-- ==== Sys2Proof/Word.lean ====
section
/-! DEFINITION. The word types of the GTVF codec core (00_scope.md R9). -/

namespace Sys2Proof

/-- A luma sample, a `u8` field, one channel of a pixel: `SAMPLE_W` = 8 bits (R9). -/
abbrev Byte := BitVec 8

/-- A `u16` field, a header dimension or a count field: `FIELD16_W` = 16 bits (R9). -/
abbrev Half := BitVec 16

/-- The `len` field of a token, bits 14:0 of the count field (30_encoding.md R102). -/
abbrev Len := BitVec 15

end Sys2Proof
end

