-- ==== Sys2Proof/Config.lean ====
section
/-! DEFINITION. What is fixed for the machine: the named constants of 00_scope.md R9 (kept in one place as
93_implementation_defined.md U12 asks), the two mode enumerations, and the free values, which have no body. -/

namespace Sys2Proof

/-- `ENC.mode` (10_state.md R34). No bit assignment exists and no rule depends on one. -/
inductive EncMode where
  | chooseMode
  | repeatMode
  | literalMode
  deriving DecidableEq, Repr, Inhabited

/-- `DEC.dmode` (R40): `ReadCount`, `Literal`, `Repeat`. -/
inductive DecMode where
  | readCount
  | literal
  | repeating
  deriving DecidableEq, Repr, Inhabited

namespace Config

/-- `KIND_BIT` (R9): a count field at or above it opens a repeat token. Literal unaudited (log 24). -/
def kindBit : Half := 0x8000#16

/-- `MAX_RUN` (R9), also `LITBUF_CAP` (R37): the largest length one token carries. Literal unaudited (log 24). -/
def maxRun : Nat := 0x7FFF

/-- The value of `ENC.count` at every frame start (R35). Literal unaudited (log 24). -/
def initialCount : Int := -1

/-- Free values of the encode path, indexed by `State.encFree`: what `ENC.last` holds at a frame start (R50, log 7) and
what the encoder's registers hold after a faulting composite operation (60_exceptions.md R227, log 6). -/
opaque freeEncLast : Nat → Byte
opaque freeEncMode : Nat → EncMode
/-- R35's range -1 to 0x7FFF is kept: `ENC.count` becomes this minus one. -/
opaque freeEncCountSucc : Nat → Fin 0x8001
opaque freeEncLastValid : Nat → Bool
opaque freeEncBuf : Nat → List Byte
/-- R33: 32 bits hold `ENC.pos`. -/
opaque freeEncPos : Nat → BitVec 32

/-- Free values of the decode path, indexed by `State.decFree`: what `DEC.pixel` holds at a frame start (R50, R262, log 7)
and what the decoder's registers hold after a faulting composite operation (R227, log 6). -/
opaque freeDecPixel : Nat → Byte
opaque freeDecMode : Nat → DecMode
/-- R41: 15 bits hold `DEC.remaining`. -/
opaque freeDecRemaining : Nat → BitVec 15

end Config

end Sys2Proof
end

