-- ==== Sys2Proof/Syntax.lean ====
section
/-! DEFINITION. The syntax: one constructor per row of spec/opcode_table.json, the four stream elements of
30_encoding.md first, then the seventeen port operations of R114 in the table's order. -/

namespace Sys2Proof

inductive Instr where
  /-- `HDR h w` (R101): the stream header, height first. -/
  | hdr (height width : Half)
  /-- `LIT n [b0, ..., b(n-1)]` (R103): `len` literal samples. -/
  | lit (len : Len) (payload : List Byte)
  /-- `RPT n v` (R104): `len` samples equal to `value`. -/
  | rpt (len : Len) (value : Byte)
  /-- `RSV` (R107): the reserved count field `0x0000` (`kind = false`) or `0x8000` (`kind = true`). -/
  | rsv (kind : Bool)
  /-- `BSR.LOAD(bytes)` (R133). -/
  | bsrLoad (bytes : List Byte)
  /-- `BSR.READ_U8()` (R130). -/
  | bsrReadU8
  /-- `BSR.READ_U16()` (R131). -/
  | bsrReadU16
  /-- `BSR.AT_END()` (R132). -/
  | bsrAtEnd
  /-- `BSW.WRITE_U8(v)` (R134). -/
  | bswWriteU8 (v : Byte)
  /-- `BSW.WRITE_U16(v)` (R135). -/
  | bswWriteU16 (v : Half)
  /-- `FB.CONSTRUCT(h, w)` (R150). -/
  | fbConstruct (h w : Half)
  /-- `FB.INSERT_PIXEL(v)` (R151). -/
  | fbInsertPixel (v : Byte)
  /-- `FB.IS_FULL()` (R152). -/
  | fbIsFull
  /-- `FB.EMIT()` (R153). -/
  | fbEmit
  /-- `FB.RESTART()` (R154). -/
  | fbRestart
  /-- `ENC.START(h, w)` (R160). -/
  | encStart (h w : Half)
  /-- `ENC.SAMPLE(s)` (R161). -/
  | encSample (v : Byte)
  /-- `DEC.START()` (R190). -/
  | decStart
  /-- `DEC.STEP()` (R191). -/
  | decStep
  /-- `DEC.FRAME()` (R195). -/
  | decFrame
  /-- `DEC.RUN()` (R196). -/
  | decRun
  deriving DecidableEq, Repr

/-- The four rows that the decoder fetches from the stream; the others are port operations without an encoding (R114). -/
def Instr.isElement : Instr → Bool
  | .hdr _ _ => true
  | .lit _ _ => true
  | .rpt _ _ => true
  | .rsv _ => true
  | .bsrLoad _ => false
  | .bsrReadU8 => false
  | .bsrReadU16 => false
  | .bsrAtEnd => false
  | .bswWriteU8 _ => false
  | .bswWriteU16 _ => false
  | .fbConstruct _ _ => false
  | .fbInsertPixel _ => false
  | .fbIsFull => false
  | .fbEmit => false
  | .fbRestart => false
  | .encStart _ _ => false
  | .encSample _ => false
  | .decStart => false
  | .decStep => false
  | .decFrame => false
  | .decRun => false

end Sys2Proof
end

