-- ==== Sys2Proof/WellFormed.lean ====
section
/-! DEFINITION. Which terms stand for a legal element or operation: the operand ranges of the opcode table and of
30_encoding.md R101, R103, R104, R108, R112. An ill-formed term still has a meaning where the spec gives it one (a zero
dimension raises `InvalidHeader`, a zero length is `RSV`). -/

namespace Sys2Proof

/-- A dimension in `DIM_MIN` to `DIM_MAX`, 1 to 65535 (R9, R108). -/
def legalDim (d : Half) : Bool := d != 0

/-- A token length in `MIN_RUN` to `MAX_RUN`, 1 to 0x7FFF (R9, R107). -/
def legalLen (n : Len) : Bool := n != 0

def Instr.wellFormed : Instr → Bool
  | .hdr h w => legalDim h && legalDim w
  | .lit n p => legalLen n && (p.length == n.toNat)
  | .rpt n _ => legalLen n
  | .rsv _ => true
  | .bsrLoad _ => true
  | .bsrReadU8 => true
  | .bsrReadU16 => true
  | .bsrAtEnd => true
  | .bswWriteU8 _ => true
  | .bswWriteU16 _ => true
  | .fbConstruct h w => legalDim h && legalDim w
  | .fbInsertPixel _ => true
  | .fbIsFull => true
  | .fbEmit => true
  | .fbRestart => true
  | .encStart h w => legalDim h && legalDim w
  | .encSample _ => true
  | .decStart => true
  | .decStep => true
  | .decFrame => true
  | .decRun => true

end Sys2Proof
end

