-- ==== Sys2Proof/Decode.lean ====
section
/-! DEFINITION. The stream decoder of 30_encoding.md R113, total on any bytes and rejecting by name, and after it the
encoder, written from R101, R103, R104, R106 and R112. Which element stands at the cursor is decided by position: the
header at the start of the stream, a token elsewhere. -/

namespace Sys2Proof

/-! ## Byte order and fields -/

/-- `{byte0, byte1}`: the first byte of the stream is the more significant (20_memory.md R71, R72). -/
def bigEndian (b0 b1 : Byte) : Half := b0 ++ b1

/-- `v[15:8]`, written first (R73). -/
def hiByte (v : Half) : Byte := v.extractLsb' 8 8

/-- `v[7:0]`, written second (R73). -/
def loByte (v : Half) : Byte := v.extractLsb' 0 8

/-- The two bytes of a 16-bit field in stream order (R73). -/
def halfBytes (v : Half) : List Byte := [hiByte v, loByte v]

/-- `kind = count_field[15]` (R102, R106). -/
def countKind (c : Half) : Bool := c.getLsbD 15

/-- `len = count_field[14:0]` (R102, R106). -/
def countLen (c : Half) : Len := c.extractLsb' 0 15

/-- The count field `{kind, len}` (R102). -/
def countField (kind : Bool) (n : Len) : Half := BitVec.ofBool kind ++ n

/-! ## The decoder -/

/-- Where the cursor stands (R109): at the header or at the start of a token. -/
inductive ElementPos where
  | header
  | token
  deriving DecidableEq, Repr

/-- Why no element could be decoded: the bytes end inside a field that the decoder reads before it acts. -/
inductive Reject where
  /-- fewer than 2 bytes where the height is expected -/
  | truncatedHeight
  /-- fewer than 2 bytes where the width is expected -/
  | truncatedWidth
  /-- fewer than 2 bytes where a count field is expected -/
  | truncatedCount
  /-- no byte where the value of a repeat token is expected -/
  | truncatedValue
  deriving DecidableEq, Repr

/-- How many bytes of the element were read before the field that is cut short (60_exceptions.md R227). -/
def Reject.consumed : Reject → Nat
  | .truncatedHeight => 0
  | .truncatedWidth => 2
  | .truncatedCount => 0
  | .truncatedValue => 2

inductive Decoded where
  | element (i : Instr) (rest : List Byte)
  | rejected (why : Reject)
  deriving DecidableEq, Repr

/-- `HDR` (R101), recognised by position alone. -/
def decodeHeader : List Byte → Decoded
  | b0 :: b1 :: b2 :: b3 :: rest => .element (.hdr (bigEndian b0 b1) (bigEndian b2 b3)) rest
  | _ :: _ :: _ => .rejected .truncatedWidth
  | _ => .rejected .truncatedHeight

/-- What follows a count field `c`: `RSV` takes precedence (R113), then bit 15 tells `RPT` from `LIT` (R105). A literal
payload is taken as far as the bytes go: the hardware reads it one byte at a time (43_decoder.md R193), so a payload that
is cut short is no rejection but an ill-formed `LIT`, which runs up to the cut (log 19). -/
def decodeCount (c : Half) (rest : List Byte) : Decoded :=
  if countLen c = 0 then .element (.rsv (countKind c)) rest
  else if countKind c then
    match rest with
    | v :: rest' => .element (.rpt (countLen c) v) rest'
    | [] => .rejected .truncatedValue
  else .element (.lit (countLen c) (rest.take (countLen c).toNat)) (rest.drop (countLen c).toNat)

/-- `LIT`, `RPT` or `RSV` (R113). -/
def decodeToken : List Byte → Decoded
  | b0 :: b1 :: rest => decodeCount (bigEndian b0 b1) rest
  | _ => .rejected .truncatedCount

def decode : ElementPos → List Byte → Decoded
  | .header, bytes => decodeHeader bytes
  | .token, bytes => decodeToken bytes

/-! ## The encoder -/

/-- The bytes of an element in stream order (R112); a port operation has no encoding (R114). -/
def encode : Instr → Option (List Byte)
  | .hdr h w => some (halfBytes h ++ halfBytes w)
  | .lit n p => some (halfBytes (countField false n) ++ p)
  | .rpt n v => some (halfBytes (countField true n) ++ [v])
  | .rsv k => some (halfBytes (countField k 0))
  | .bsrLoad _ => none
  | .bsrReadU8 => none
  | .bsrReadU16 => none
  | .bsrAtEnd => none
  | .bswWriteU8 _ => none
  | .bswWriteU16 _ => none
  | .fbConstruct _ _ => none
  | .fbInsertPixel _ => none
  | .fbIsFull => none
  | .fbEmit => none
  | .fbRestart => none
  | .encStart _ _ => none
  | .encSample _ => none
  | .decStart => none
  | .decStep => none
  | .decFrame => none
  | .decRun => none

/-- Where an element stands in the stream (R100). -/
def Instr.position : Instr → ElementPos
  | .hdr _ _ => .header
  | _ => .token

/-! ## Words numbered as the opcode table numbers them (log 17) -/

/-- The position of the table row: only `HDR` is 32 bits wide (and only `HDR` has no pattern bits at all). -/
def tablePos (nbits : Nat) : ElementPos := if nbits = 32 ∨ nbits = 0 then .header else .token

/-- The 16-bit word that a token's table row is matched on: its count field, big-endian in the stream. -/
def tableCount (w : Nat) : Half := BitVec.ofNat 16 w

/-- The bytes of the element, up to the operand bytes that the table gives no bits: those are zero. A header's word is
the 32-bit number {height, width}; a token's first word is the count field, and bits 23:16 are the byte after it. -/
def tableLead (nbits w : Nat) : List Byte :=
  match tablePos nbits with
  | .header =>
    halfBytes (BitVec.ofNat 16 (w / 65536)) ++ halfBytes (BitVec.ofNat 16 w)
  | .token => halfBytes (tableCount w) ++ [BitVec.ofNat 8 (w / 65536)]

/-- How many zero bytes follow `tableLead` before the element is whole: the rest of a literal payload. -/
def tableZeros (nbits w : Nat) : Nat :=
  match tablePos nbits with
  | .header => 0
  | .token => if countKind (tableCount w) then 0 else (countLen (tableCount w)).toNat - 1

def tableBytes (nbits w : Nat) : List Byte := tableLead nbits w ++ List.replicate (tableZeros nbits w) 0

def decodeTableWord (nbits w : Nat) : Option Instr :=
  match decode (tablePos nbits) (tableBytes nbits w) with
  | .element i _ => some i
  | .rejected _ => none

end Sys2Proof
end

