-- ==== Sys2Proof/Machine/State.lean ====
section
/-! DEFINITION. State as plain data, one record per unit (10_state.md R20), and the state after reset (R50, R260). -/

namespace Sys2Proof.Machine

/-- A byte-addressed memory: (address, byte) pairs, addresses strictly rising, no entry equal to `0`, which is what an
unlisted address reads as (log 9). -/
abbrev Memory := List Host.Cell

/-- The two data paths (00_scope.md R3). -/
inductive Path where
  | encode
  | decode
  deriving DecidableEq, Repr

/-- A fault register: which fault, and the information that it records (60_exceptions.md R220, 10_state.md R45). -/
inductive FaultRecord where
  /-- code 0 -/
  | noFault
  /-- code 1, with `BSR.cur` at the failing read -/
  | truncatedStream (cur : Nat)
  /-- code 2, with `FB.fcur` -/
  | bufferOverflow (fcur : Nat)
  /-- code 3, with the two values -/
  | invalidHeader (h w : Half)
  /-- code 4, with `|BSW.OUT|` at the failing write -/
  | sinkFailure (written : Nat)
  /-- code 5, with the raw count field -/
  | reservedCount (raw : Half)
  deriving DecidableEq, Repr

/-- `ENC.phase` (R38). -/
inductive EncPhase where
  | idle
  | run
  | fault
  deriving DecidableEq, Repr

/-- `DEC.phase` (R43). -/
inductive DecPhase where
  | idle
  | run
  | done
  | fault
  deriving DecidableEq, Repr

/-- A pixel: three 8-bit channels in the order R, G, B (R29, 20_memory.md R81). -/
structure Pixel where
  red : Byte
  green : Byte
  blue : Byte
  deriving DecidableEq, Repr

/-- A frame as the Frame Sink received it: a copy of the dimensions and of the pixels in raster order (R47). -/
structure Frame where
  height : Half
  width : Half
  pix : List Pixel
  deriving DecidableEq, Repr

/-- Bitstream Reader (R21 to R23). `attached` tells a buffer of no bytes from no buffer, which is what R21 gives `BSR.BUF`
at power-on and what the `require` of `DEC.START` looks at (43_decoder.md R190, log 12). -/
structure Bsr where
  buf : Memory
  len : Nat
  cur : Nat
  attached : Bool
  deriving DecidableEq, Repr

/-- Bitstream Writer: it holds nothing but the sink it appends to (R25). -/
structure Bsw where
  out : List Byte
  deriving DecidableEq, Repr

/-- Frame Buffer (R27 to R30). `pix` lists the pixels written in the current frame from raster position 0 on: a pixel
not written holds no value and is not listed (R29, log 11). -/
structure Fb where
  constructed : Bool
  height : Half
  width : Half
  fcur : Nat
  pix : List Pixel
  deriving DecidableEq, Repr

/-- Token Encoder (R32 to R38, R45). -/
structure Enc where
  height : Half
  width : Half
  pos : Nat
  mode : EncMode
  count : Int
  lastValid : Bool
  last : Byte
  buf : List Byte
  phase : EncPhase
  fault : FaultRecord
  deriving DecidableEq, Repr

/-- Token Decoder (R40 to R45). -/
structure Dec where
  dmode : DecMode
  remaining : Nat
  pixel : Byte
  phase : DecPhase
  fault : FaultRecord
  /-- a token of the frame in progress has been begun: a count field has been read since the Frame Buffer was last emptied
  (the model's own bit, log 13) -/
  frameBegun : Bool
  deriving DecidableEq, Repr

/-- What an operation returned to the host (R12; the model's own register, log 3). -/
inductive OpResult where
  | noValue
  | u8 (v : Byte)
  | u16 (v : Half)
  | bit (b : Bool)
  /-- what `DEC.FRAME` returns: a frame, or none at the end of the stream -/
  | frame (f : Option Frame)
  deriving DecidableEq, Repr

/-- What a reset is applied to (70_reset_and_hazards.md R260: "the whole core or to one path"). -/
inductive ResetScope where
  | core
  | path (p : Path)
  deriving DecidableEq, Repr

/-- What the host asks of the core next (the model's own interface, log 1). -/
inductive Request where
  /-- perform a port operation (R114) -/
  | op (i : Instr)
  /-- execute the stream element at the cursor (43_decoder.md section 4, log 2) -/
  | element
  /-- reset (R260, log 20) -/
  | reset (scope : ResetScope)
  deriving DecidableEq, Repr

structure State where
  bsr : Bsr
  bsw : Bsw
  fb : Fb
  enc : Enc
  dec : Dec
  /-- `SINK.frames` (R47) -/
  frames : List Frame
  /-- the environment's answers to the coming byte writes, `sink_accepts` (R26, log 5) -/
  sinkAnswers : List Bool
  /-- the host's pending requests, oldest first (log 1) -/
  requests : List Request
  /-- the result of the last operation (log 3) -/
  result : OpResult
  /-- the index of the encode path's next free values (log 6, log 7) -/
  encFree : Nat
  /-- the index of the decode path's next free values (log 6, log 7) -/
  decFree : Nat
  deriving DecidableEq, Repr

/-- No step ends in a machine fault: every fault of the spec has an entry that it describes (R226, R227) and after which
the other path goes on, so it is a next state with the fault register set (log 4). No constructor, so nobody raises one;
that is safe. -/
inductive Fault where
  deriving DecidableEq, Repr

/-- Why an operation is refused (00_scope.md R12: it has no successor state). Each is safe: the model stops where the spec
gives no meaning. -/
inductive Refusal where
  /-- raised by `exec` for an instruction without a meaning; this model has none; safe -/
  | notModelled (mnemonic : String)
  /-- an operation of a path whose phase is `Fault` (60_exceptions.md R226); raised by every operation; safe -/
  | pathFaulted (p : Path)
  /-- an `ENC` or `DEC` operation or a stream element whose `require` on the phase fails (R12, R160, R161, R190, R191, R195,
  R196); safe -/
  | wrongPhase
  /-- `DEC.START`, `DEC.RUN` or the header with no buffer attached (the `require` of 43_decoder.md R190, R12, log 12); safe -/
  | noBuffer
  /-- `DEC.START`, `DEC.RUN` or the header with the cursor past address 0 (R190, R197, R12, log 12); safe -/
  | cursorNotAtStart
  /-- `DEC.FRAME` while a frame is in progress: the `require` of R195 asks for a frame boundary, and R12 refuses an operation
  whose `require` does not hold (log 13); safe -/
  | insideFrame
  /-- an `FB` operation but `FB.CONSTRUCT` before construction (10_state.md R27); safe -/
  | fbNotConstructed
  /-- a second `FB.CONSTRUCT` without a reset (41_framebuffer.md R150); safe -/
  | fbAlreadyConstructed
  /-- `FB.CONSTRUCT` with a zero dimension (R150); safe -/
  | zeroDimension
  /-- `DEC.STEP` or a token on a full Frame Buffer (43_decoder.md R191); safe -/
  | fbFull
  /-- `FB.EMIT` on a buffer that is not full (R153); safe -/
  | fbNotFull
  /-- a stream element requested while the decoder is inside a token (R109, R198, log 18); safe -/
  | insideToken
  /-- the host requests a stream element as a port operation (R114); raised by `step`; safe -/
  | notAPortOperation
  deriving DecidableEq, Repr

/-- No buffer attached (R21). -/
def Bsr.reset : Bsr := ⟨[], 0, 0, false⟩

def Bsw.reset : Bsw := ⟨[]⟩

/-- The dimensions have no power-on value in the spec; 0 is the model's (log 8). -/
def Fb.reset : Fb := ⟨false, 0, 0, 0, []⟩

/-- `height`, `width` and `last` have no power-on value in the spec; 0 is the model's (log 8). -/
def Enc.reset : Enc :=
  { height := 0, width := 0, pos := 0, mode := .chooseMode, count := Config.initialCount, lastValid := false,
    last := 0, buf := [], phase := .idle, fault := .noFault }

/-- `pixel` has no power-on value in the spec; 0 is the model's (log 8). -/
def Dec.reset : Dec :=
  { dmode := .readCount, remaining := 0, pixel := 0, phase := .idle, fault := .noFault, frameBegun := false }

/-- Power-on reset (R50, R260). -/
def State.reset : State :=
  { bsr := Bsr.reset, bsw := Bsw.reset, fb := Fb.reset, enc := Enc.reset, dec := Dec.reset, frames := [],
    sinkAnswers := [], requests := [], result := .noValue, encFree := 0, decFree := 0 }

end Sys2Proof.Machine
end

