-- ==== Sys2Proof/Machine/Flags.lean ====
section
/-! DEFINITION. The status flags of 10_state.md R48, none of them stored: they are computed from the registers. The hardware
has no arithmetic condition codes. -/

namespace Sys2Proof.Machine

/-- `FB.N = FB.height * FB.width` (R28). -/
def Fb.n (f : Fb) : Nat := f.height.toNat * f.width.toNat

/-- `ENC.N = ENC.height * ENC.width` (R32). -/
def Enc.n (e : Enc) : Nat := e.height.toNat * e.width.toNat

/-- `at_end = (BSR.cur == BSR.LEN)` (R24). -/
def Bsr.atEnd (b : Bsr) : Bool := b.cur == b.len

/-- `is_full = (FB.fcur == FB.N)` (R31). -/
def Fb.isFull (f : Fb) : Bool := f.fcur == f.n

/-- Nothing of a frame is in progress (R195, 10_state.md R43, log 13): the frame has just been filled ("the frame ends after
that row", 43_decoder.md R202), or none of its pixels is written and no token of it has been begun. What an earlier frame left
in `dmode` and `remaining` is not asked (70_reset_and_hazards.md R262). -/
def State.atFrameBoundary (s : State) : Bool := s.fb.isFull || (s.fb.fcur == 0 && !s.dec.frameBegun)

/-- The sample being consumed is the final sample of its frame: `ENC.pos == ENC.N - 1` over the integers (R33). -/
def Enc.isFinal (e : Enc) : Bool := e.pos + 1 == e.n

/-- The numeric fault code, 0 for no fault (60_exceptions.md R220). -/
def FaultRecord.code : FaultRecord → BitVec 3
  | .noFault => 0
  | .truncatedStream _ => 1
  | .bufferOverflow _ => 2
  | .invalidHeader _ _ => 3
  | .sinkFailure _ => 4
  | .reservedCount _ => 5

end Sys2Proof.Machine
end

