-- ==== Sys2Proof/Machine/Ops.lean ====
section
/-! DEFINITION. The named operations that every meaning is written over: memory, one named update per field of State, the
outcome of an operation (00_scope.md R12), taking a fault (60_exceptions.md R226, R227) and, beside it, the only way
back from one, reset (R260). -/

namespace Sys2Proof.Machine

/-! ## Memory -/

/-- The byte at an address; an unlisted address reads as 0 (log 9). -/
def Memory.read : Memory → Nat → Byte
  | [], _ => 0
  | (k, v) :: m, a => if k = a then v else Memory.read m a

/-- The cells of a byte sequence laid out from address `a` on; a zero byte is not listed. -/
def Memory.ofBytesFrom : Nat → List Byte → Memory
  | _, [] => []
  | a, b :: bs => if b = 0 then Memory.ofBytesFrom (a + 1) bs else (a, b) :: Memory.ofBytesFrom (a + 1) bs

/-- A whole buffer from address 0 on (R21). -/
def Memory.ofBytes (bs : List Byte) : Memory := Memory.ofBytesFrom 0 bs

/-- Write one byte, keeping the canonical form: writing 0 unlists the address. No operation of the core writes the
buffer (R21, R85); only `State.withFetchWord` uses this. -/
def Memory.write : Memory → Nat → Byte → Memory
  | [], a, b => if b = 0 then [] else [(a, b)]
  | (k, v) :: m, a, b =>
    if k < a then (k, v) :: Memory.write m a b
    else if k = a then (if b = 0 then m else (a, b) :: m)
    else if b = 0 then (k, v) :: m else (a, b) :: (k, v) :: m

/-- Write a byte sequence from address `a` on. -/
def Memory.writeAll : Memory → Nat → List Byte → Memory
  | m, _, [] => m
  | m, a, b :: bs => Memory.writeAll (Memory.write m a b) (a + 1) bs

/-- Set the `n` bytes from address `a` on to 0. -/
def Memory.clear (m : Memory) (a n : Nat) : Memory := m.filter fun c => c.1 < a || a + n ≤ c.1

/-- The `n` bytes from address `a` on, in address order. -/
def Memory.readAll (m : Memory) : Nat → Nat → List Byte
  | 0, _ => []
  | n + 1, a => Memory.read m a :: Memory.readAll m n (a + 1)

/-- The canonical form: addresses strictly rising, none below `lo`, no entry equal to 0. -/
def Memory.wfFrom : Nat → Memory → Bool
  | _, [] => true
  | lo, (k, v) :: m => lo ≤ k && v != 0 && Memory.wfFrom (k + 1) m

/-- The canonical form of a memory (log 9). -/
def Memory.wf (m : Memory) : Bool := Memory.wfFrom 0 m

/-! ## Named updates, one per field -/

def State.setBsr (s : State) (x : Bsr) : State := { s with bsr := x }

/-- `BSR.cur <- c` (R23). -/
def State.setCur (s : State) (c : Nat) : State := s.setBsr { s.bsr with cur := c }

def State.setOut (s : State) (o : List Byte) : State := { s with bsw := ⟨o⟩ }

def State.setFb (s : State) (x : Fb) : State := { s with fb := x }

def State.setEnc (s : State) (x : Enc) : State := { s with enc := x }

def State.setDec (s : State) (x : Dec) : State := { s with dec := x }

def State.setFrames (s : State) (x : List Frame) : State := { s with frames := x }

def State.setSinkAnswers (s : State) (x : List Bool) : State := { s with sinkAnswers := x }

def State.setRequests (s : State) (x : List Request) : State := { s with requests := x }

def State.setResult (s : State) (x : OpResult) : State := { s with result := x }

def State.setEncFree (s : State) (x : Nat) : State := { s with encFree := x }

def State.setDecFree (s : State) (x : Nat) : State := { s with decFree := x }

/-! ## The outcome of an operation (R12) -/

/-- `ok`: results and next state; `fault`: which fault, and the state with the effects of the primitives that completed
before it (R227); `refused`: no successor state. -/
inductive Res (α : Type) where
  | ok (a : α) (s : State)
  | fault (f : FaultRecord) (s : State)
  | refused (r : Refusal)
  deriving DecidableEq, Repr

/-- `call U.OP(args)` and then the rest: a fault of the callee is raised at once by the caller (R11, R228). -/
def Res.bind {α β : Type} (r : Res α) (k : α → State → Res β) : Res β :=
  match r with
  | .ok a s => k a s
  | .fault f s => .fault f s
  | .refused why => .refused why

/-! ## Taking a fault -/

/-- Fault entry (R226): the path's phase becomes `Fault` and its fault register takes the fault with what it records
(R220). The operation returns nothing. There is no handler, no saved program counter and no return. From phase `Done` too:
R226 says so of every fault, though R260 calls reset the only way out of `Done`; following R226 there is the model's choice
(log 15). -/
def takeFault (p : Path) (f : FaultRecord) (s : State) : State :=
  match p with
  | .encode => (s.setEnc { s.enc with phase := .fault, fault := f }).setResult .noValue
  | .decode => (s.setDec { s.dec with phase := .fault, fault := f }).setResult .noValue

/-- The registers of a unit whose composite operation has faulted are not specified (R227, 93_implementation_defined.md
U11): each becomes a free value (log 6). -/
def leaveUnspecified (p : Path) (s : State) : State :=
  match p with
  | .encode =>
    (s.setEnc
      { s.enc with
        mode := Config.freeEncMode s.encFree
        count := (Config.freeEncCountSucc s.encFree).val - 1
        lastValid := Config.freeEncLastValid s.encFree
        last := Config.freeEncLast s.encFree
        buf := (Config.freeEncBuf s.encFree).take Config.maxRun
        pos := (Config.freeEncPos s.encFree).toNat }).setEncFree (s.encFree + 1)
  | .decode =>
    (s.setDec
      { s.dec with
        dmode := Config.freeDecMode s.decFree
        remaining := (Config.freeDecRemaining s.decFree).toNat
        pixel := Config.freeDecPixel s.decFree }).setDecFree (s.decFree + 1)

/-- How an operation that the host performs ends. A fault of a unit primitive changes nothing but the path's phase and
fault register (R227, log 15). -/
def finishPrimitive {α : Type} (p : Path) (toResult : α → OpResult) (r : Res α) : Host.Outcome State Fault Refusal :=
  match r with
  | .ok a s => .next (s.setResult (toResult a))
  | .fault f s => .next (takeFault p f s)
  | .refused why => .refused why

/-- The same for a composite operation: after a fault the unit's other registers are unspecified (R227). -/
def finishComposite {α : Type} (p : Path) (toResult : α → OpResult) (r : Res α) : Host.Outcome State Fault Refusal :=
  match r with
  | .ok a s => .next (s.setResult (toResult a))
  | .fault f s => .next (takeFault p f (leaveUnspecified p s))
  | .refused why => .refused why

/-- An operation without a result. -/
def noResult (_ : Unit) : OpResult := .noValue

/-- A path in phase `Fault`. -/
def State.faulted (s : State) : Path → Bool
  | .encode => s.enc.phase == .fault
  | .decode => s.dec.phase == .fault

/-- Every later operation of a path that has faulted is refused (R226, log 14). -/
def guardPath {α : Type} (p : Path) (s : State) (r : Res α) : Res α :=
  if s.faulted p then .refused (.pathFaulted p) else r

/-! ## Reset -/

/-- Reset of one path: every register of the path at its power-on value (R260, R50). The environment's answers, the
host's requests and the free-value counters are no registers of a path. -/
def resetPath (p : Path) (s : State) : State :=
  match p with
  | .encode => ((s.setEnc Enc.reset).setOut []).setResult .noValue
  | .decode => ((((s.setBsr Bsr.reset).setFb Fb.reset).setDec Dec.reset).setFrames []).setResult .noValue

def resetScope (scope : ResetScope) (s : State) : State :=
  match scope with
  | .core => resetPath .decode (resetPath .encode s)
  | .path p => resetPath p s

end Sys2Proof.Machine
end

