-- ==== Sys2Proof/Machine/Operands.lean ====
section
/-! DEFINITION. The operand forms: no operation takes an address, every access is at the unit's own cursor with
post-increment (20_memory.md R77). These are the primitives `MemRead`, `SinkWrite` and `PixWrite` of 00_scope.md R11. -/

namespace Sys2Proof.Machine

/-- `MemRead(addr, 1)` (R72). -/
def memRead8 (s : State) (a : Nat) : Byte := Memory.read s.bsr.buf a

/-- `MemRead(addr, 2)`, big-endian (R72). -/
def memRead16 (s : State) (a : Nat) : Half := bigEndian (memRead8 s a) (memRead8 s (a + 1))

/-- One draw of `sink_accepts` (R26): the environment's next answer; once the listed answers are used up the sink accepts
every byte, which loses nothing, since after one refusal nothing is written any more (log 5). -/
def State.sinkAccepts (s : State) : Bool := s.sinkAnswers.headD true

/-- The state after one draw. -/
def State.drawSink (s : State) : State := s.setSinkAnswers s.sinkAnswers.tail

/-- `SinkWrite(b)` (R11, R134): append the byte, or `SinkFailure(|BSW.OUT|)` with nothing appended. -/
def sinkWrite (b : Byte) (s : State) : Res Unit :=
  if s.sinkAccepts then .ok () (s.drawSink.setOut (s.bsw.out ++ [b]))
  else .fault (.sinkFailure s.bsw.out.length) s.drawSink

/-- The grey pixel `(v, v, v)` (R29, R151). -/
def greyPixel (v : Byte) : Pixel := ⟨v, v, v⟩

/-- `PixWrite(p, v)` (R11): the pixel at raster position `p`. -/
def pixWrite (pix : List Pixel) (p : Nat) (v : Byte) : List Pixel :=
  pix.take p ++ greyPixel v :: pix.drop (p + 1)

end Sys2Proof.Machine
end

