-- ==== Sys2Proof/Machine/Writer.lean ====
section
/-! DEFINITION. The Bitstream Writer (40_bitstream.md R134, R135). -/

namespace Sys2Proof.Machine

/-- `BSW.WRITE_U8(v)` (R134). -/
def bswWriteU8 (v : Byte) (s : State) : Res Unit := sinkWrite v s

/-- `BSW.WRITE_U16(v)` (R135): the high byte, then the low byte; if the second is refused the first stays. -/
def bswWriteU16 (v : Half) (s : State) : Res Unit :=
  (bswWriteU8 (hiByte v) s).bind fun _ s1 => bswWriteU8 (loByte v) s1

def execBswWriteU8 (v : Byte) (s : State) : Host.Outcome State Fault Refusal :=
  finishPrimitive .encode noResult (guardPath .encode s (bswWriteU8 v s))

/-- R227 lists it among the composite operations: after a refused byte the registers of the encoder are left open (log 6,
log 15). -/
def execBswWriteU16 (v : Half) (s : State) : Host.Outcome State Fault Refusal :=
  finishComposite .encode noResult (guardPath .encode s (bswWriteU16 v s))

end Sys2Proof.Machine
end

