-- ==== Sys2Proof/Machine/Encoder.lean ====
section
/-! DEFINITION. The Token Encoder (42_encoder.md R160 to R174). `encArm` is the run/literal state machine of R161 without
the position counter; it says which tokens one sample closes and what the registers become. -/

namespace Sys2Proof.Machine

/-- What the encoder emits: `LIT n b` (R168) or `RPT n v` (R167). -/
inductive Token where
  | lit (n : Nat) (b : List Byte)
  | rpt (n : Nat) (v : Byte)
  deriving DecidableEq, Repr

/-- Write the bytes of a payload in order (R168). -/
def writeBytes : List Byte → State → Res Unit
  | [], s => .ok () s
  | b :: bs, s => (bswWriteU8 b s).bind fun _ s1 => writeBytes bs s1

/-- `emit token` (R167, R168). -/
def emitToken (t : Token) (s : State) : Res Unit :=
  match t with
  | .lit n b => (bswWriteU16 (BitVec.ofNat 16 n) s).bind fun _ s1 => writeBytes b s1
  | .rpt n v => (bswWriteU16 (BitVec.ofNat 16 (Config.kindBit.toNat + n)) s).bind fun _ s1 => bswWriteU8 v s1

/-- The tokens of one operation, in order; after a refused byte no further token is started (R229 (f)). -/
def emitTokens : List Token → State → Res Unit
  | [], s => .ok () s
  | t :: ts, s => (emitToken t s).bind fun _ s1 => emitTokens ts s1

/-- Whether the sample at hand is taken by the `RepeatMode` arm: `ChooseMode` resolves on it, to `RepeatMode` if it equals
the last sample and else to `LiteralMode` (R163). -/
def takenByRepeat (m : EncMode) (same : Bool) : Bool :=
  match m with
  | .chooseMode => same
  | .repeatMode => true
  | .literalMode => false

/-- The one-sample token of cases F0, F2, F3 and F5 when the sample is final (R166). -/
def loneToken (final : Bool) (v : Byte) : List Token := if final then [.lit 1 [v]] else []

/-- `count` has reached `0x7FFF` (R164, R165). -/
def countFull (c : Int) : Bool := c == (Config.maxRun : Int)

/-- `RepeatMode` arm (R164; F1, F2, F3 of R166): `c` is the count after the increment. -/
def repeatArm (e : Enc) (c : Int) (final : Bool) (v : Byte) : List Token × Enc :=
  if v ≠ e.last ∨ countFull c then
    (.rpt c.toNat e.last :: loneToken final v, { e with count := 0, mode := .chooseMode, last := v })
  else if final then
    ([.rpt (c + 1).toNat e.last], { e with count := c + 1, mode := .repeatMode, last := v })
  else ([], { e with count := c, mode := .repeatMode, last := v })

/-- `LiteralMode` arm (R165; F4, F5 of R166). -/
def literalArm (e : Enc) (c : Int) (final : Bool) (v : Byte) : List Token × Enc :=
  if final ∧ ¬ countFull c then
    ([.lit (c + 1).toNat (e.buf ++ [e.last] ++ [v])],
      { e with count := c + 1, buf := e.buf ++ [e.last] ++ [v], mode := .literalMode, last := v })
  else if v = e.last ∨ countFull c then
    (.lit c.toNat (e.buf ++ [e.last]) :: loneToken final v,
      { e with count := 0, mode := .chooseMode, buf := [], last := v })
  else ([], { e with count := c, buf := e.buf ++ [e.last], mode := .literalMode, last := v })

/-- One sample through the state machine (R161): `count` goes up on every sample, the first included (R162). -/
def encArm (e : Enc) (v : Byte) : List Token × Enc :=
  let c := e.count + 1
  if ¬ e.lastValid then (loneToken e.isFinal v, { e with count := c, last := v, lastValid := true })
  else if takenByRepeat e.mode (v == e.last) then repeatArm e c e.isFinal v
  else literalArm e c e.isFinal v

/-- The frame-start reset of the encoder (70_reset_and_hazards.md R261); `last` holds no value from here on (R50): a free
value (log 7). -/
def encFrameStart (s : State) : State :=
  (s.setEnc
    { s.enc with
      pos := 0, mode := .chooseMode, count := Config.initialCount, lastValid := false, buf := []
      last := Config.freeEncLast s.encFree }).setEncFree (s.encFree + 1)

/-- `ENC.START(h, w)` (R160): `InvalidHeader` before anything is written; the height is written first. -/
def encStart (h w : Half) (s : State) : Res Unit :=
  if s.enc.phase ≠ .idle then .refused .wrongPhase
  else if h = 0 ∨ w = 0 then .fault (.invalidHeader h w) s
  else
    (bswWriteU16 h (s.setEnc { s.enc with height := h, width := w })).bind fun _ s1 =>
    (bswWriteU16 w s1).bind fun _ s2 =>
      let s3 := encFrameStart s2
      .ok () (s3.setEnc { s3.enc with phase := .run })

/-- `ENC.SAMPLE(s)` (R161): the tokens that the sample closes, then the registers, then the end of the frame (R169) or
the next position. -/
def encSample (v : Byte) (s : State) : Res Unit :=
  if s.enc.phase ≠ .run then .refused .wrongPhase
  else
    (emitTokens (encArm s.enc v).1 s).bind fun _ s1 =>
      let s2 := s1.setEnc (encArm s.enc v).2
      if s.enc.isFinal then .ok () (encFrameStart s2)
      else .ok () (s2.setEnc { s2.enc with pos := s2.enc.pos + 1 })

def execEncStart (h w : Half) (s : State) : Host.Outcome State Fault Refusal :=
  finishComposite .encode noResult (guardPath .encode s (encStart h w s))

def execEncSample (v : Byte) (s : State) : Host.Outcome State Fault Refusal :=
  finishComposite .encode noResult (guardPath .encode s (encSample v s))

end Sys2Proof.Machine
end

