-- ==== Sys2Proof/Machine/FrameBuffer.lean ====
section
/-! DEFINITION. The Frame Buffer raster-fill controller (41_framebuffer.md R150 to R154). Every operation but
`FB.CONSTRUCT` is refused before construction (10_state.md R27). -/

namespace Sys2Proof.Machine

/-- Refuse an `FB` operation on a buffer that is not constructed (R27). -/
def requireFb {α : Type} (s : State) (r : Res α) : Res α :=
  if s.fb.constructed then r else .refused .fbNotConstructed

/-- `FB.CONSTRUCT(h, w)` (R150): possible once between resets. -/
def fbConstruct (h w : Half) (s : State) : Res Unit :=
  if s.fb.constructed then .refused .fbAlreadyConstructed
  else if h = 0 ∨ w = 0 then .refused .zeroDimension
  else .ok () (s.setFb ⟨true, h, w, 0, []⟩)

/-- `FB.INSERT_PIXEL(v)` (R151). -/
def fbInsertPixel (v : Byte) (s : State) : Res Unit :=
  requireFb s <|
    if s.fb.isFull then .fault (.bufferOverflow s.fb.fcur) s
    else .ok () (s.setFb { s.fb with pix := pixWrite s.fb.pix s.fb.fcur v, fcur := s.fb.fcur + 1 })

/-- `FB.IS_FULL()` (R152). -/
def fbIsFull (s : State) : Res Bool := requireFb s (.ok s.fb.isFull s)

/-- The frame that a full buffer is handed over as: `(FB.height, FB.width, FB.pix[0 .. N-1])` (R153). -/
def Fb.frame (f : Fb) : Frame := ⟨f.height, f.width, f.pix.take f.n⟩

/-- `FB.EMIT()` (R153): only a full frame is ever handed over. -/
def fbEmit (s : State) : Res Unit :=
  requireFb s <|
    if s.fb.isFull then .ok () (s.setFrames (s.frames ++ [s.fb.frame])) else .refused .fbNotFull

/-- An empty Frame Buffer for the next frame, of which nothing is in progress yet (R154, log 13). -/
def State.emptyFb (s : State) : State :=
  (s.setFb { s.fb with fcur := 0, pix := [] }).setDec { s.dec with frameBegun := false }

/-- `FB.RESTART()` (R154): every pixel holds no value again. -/
def fbRestart (s : State) : Res Unit := requireFb s (.ok () s.emptyFb)

def execFbConstruct (h w : Half) (s : State) : Host.Outcome State Fault Refusal :=
  finishPrimitive .decode noResult (guardPath .decode s (fbConstruct h w s))

def execFbInsertPixel (v : Byte) (s : State) : Host.Outcome State Fault Refusal :=
  finishPrimitive .decode noResult (guardPath .decode s (fbInsertPixel v s))

def execFbIsFull (s : State) : Host.Outcome State Fault Refusal :=
  finishPrimitive .decode .bit (guardPath .decode s (fbIsFull s))

def execFbEmit (s : State) : Host.Outcome State Fault Refusal :=
  finishPrimitive .decode noResult (guardPath .decode s (fbEmit s))

def execFbRestart (s : State) : Host.Outcome State Fault Refusal :=
  finishPrimitive .decode noResult (guardPath .decode s (fbRestart s))

end Sys2Proof.Machine
end

