-- ==== Sys2Proof/Machine/Reader.lean ====
section
/-! DEFINITION. The Bitstream Reader (40_bitstream.md R130 to R133). -/

namespace Sys2Proof.Machine

/-- `BSR.LOAD(bytes)` (R133). -/
def bsrLoad (bytes : List Byte) (s : State) : Res Unit :=
  .ok () (s.setBsr ⟨Memory.ofBytes bytes, bytes.length, 0, true⟩)

/-- `BSR.READ_U8()` (R130). -/
def bsrReadU8 (s : State) : Res Byte :=
  if s.bsr.len - s.bsr.cur < 1 then .fault (.truncatedStream s.bsr.cur) s
  else .ok (memRead8 s s.bsr.cur) (s.setCur (s.bsr.cur + 1))

/-- `BSR.READ_U16()` (R131): all or nothing (R76). -/
def bsrReadU16 (s : State) : Res Half :=
  if s.bsr.len - s.bsr.cur < 2 then .fault (.truncatedStream s.bsr.cur) s
  else .ok (memRead16 s s.bsr.cur) (s.setCur (s.bsr.cur + 2))

/-- `BSR.AT_END()` (R132). -/
def bsrAtEnd (s : State) : Res Bool := .ok s.bsr.atEnd s

def execBsrLoad (bytes : List Byte) (s : State) : Host.Outcome State Fault Refusal :=
  finishPrimitive .decode noResult (guardPath .decode s (bsrLoad bytes s))

def execBsrReadU8 (s : State) : Host.Outcome State Fault Refusal :=
  finishPrimitive .decode .u8 (guardPath .decode s (bsrReadU8 s))

def execBsrReadU16 (s : State) : Host.Outcome State Fault Refusal :=
  finishPrimitive .decode .u16 (guardPath .decode s (bsrReadU16 s))

def execBsrAtEnd (s : State) : Host.Outcome State Fault Refusal :=
  finishPrimitive .decode .bit (guardPath .decode s (bsrAtEnd s))

end Sys2Proof.Machine
end

