-- ==== Sys2Proof/Machine/Decoder.lean ====
section
/-! DEFINITION. The Token Decoder (43_decoder.md R190 to R196): one transition, one frame, the whole stream. -/

namespace Sys2Proof.Machine

/-- `DEC.START` after both header fields have been read (R190). -/
def decHeader (h w : Half) (s : State) : Res Unit :=
  if h = 0 ∨ w = 0 then .fault (.invalidHeader h w) s
  else
    (fbConstruct h w s).bind fun _ s1 =>
      .ok () (s1.setDec { s1.dec with dmode := .readCount, remaining := 0, phase := .run, frameBegun := false })

/-- `require DEC.phase == Idle` "and a buffer loaded with BSR.cur == 0" (R190, log 12). -/
def requireStart {α : Type} (s : State) (r : Res α) : Res α :=
  if s.dec.phase ≠ .idle then .refused .wrongPhase
  else if ¬ s.bsr.attached then .refused .noBuffer
  else if s.bsr.cur ≠ 0 then .refused .cursorNotAtStart
  else r

/-- `DEC.START()` (R190): height first; the dimensions are tested after both fields have been read. -/
def decStart (s : State) : Res Unit :=
  requireStart s <|
    (bsrReadU16 s).bind fun h s1 =>
    (bsrReadU16 s1).bind fun w s2 => decHeader h w s2

/-- `raw` is one of the two reserved count fields (R107, R192). -/
def reservedCount (raw : Half) : Bool := raw == 0 || raw == Config.kindBit

/-- Enter a literal token of `n` samples (R192). -/
def beginLiteral (n : Nat) (s : State) : State :=
  s.setDec { s.dec with remaining := n, dmode := .literal, frameBegun := true }

/-- Enter a repeat token of `n` samples of value `v` (R192). -/
def beginRepeat (n : Nat) (v : Byte) (s : State) : State :=
  s.setDec { s.dec with remaining := n, pixel := v, dmode := .repeating, frameBegun := true }

/-- `ReadCount` arm (R192): the reserved values are tested before the value byte is read. -/
def readCountArm (s : State) : Res Unit :=
  (bsrReadU16 s).bind fun raw s1 =>
    if reservedCount raw then .fault (.reservedCount raw) s1
    else if raw < Config.kindBit then .ok () (beginLiteral raw.toNat s1)
    else (bsrReadU8 s1).bind fun v s2 => .ok () (beginRepeat (raw - Config.kindBit).toNat v s2)

/-- One sample of the current token is used up; at the end of the token the decoder returns to `ReadCount` (R193, R194). -/
def countDown (d : Dec) : Dec :=
  { d with
    remaining := d.remaining - 1
    dmode := if d.remaining - 1 = 0 then .readCount else d.dmode }

/-- Insert one sample of the current token and count it down (R193, R194). -/
def placeSample (v : Byte) (s : State) : Res Unit :=
  (fbInsertPixel v s).bind fun _ s1 => .ok () (s1.setDec (countDown s1.dec))

/-- `Literal` arm (R193): the read comes before the insertion. -/
def literalStep (s : State) : Res Unit := (bsrReadU8 s).bind fun v s1 => placeSample v s1

/-- `Repeat` arm (R194): no byte is consumed. -/
def repeatStep (s : State) : Res Unit := placeSample s.dec.pixel s

/-- The arm that `DEC.dmode` selects (R191). -/
def decArm (s : State) : Res Unit :=
  match s.dec.dmode with
  | .readCount => readCountArm s
  | .literal => literalStep s
  | .repeating => repeatStep s

/-- `require DEC.phase == Run and not FB.IS_FULL()` (R191). -/
def requireRoom {α : Type} (s : State) (r : Res α) : Res α :=
  if s.dec.phase ≠ .run then .refused .wrongPhase
  else requireFb s (if s.fb.isFull then .refused .fbFull else r)

/-- `DEC.STEP()` (R191). -/
def decStep (s : State) : Res Unit := requireRoom s (decArm s)

/-- `while not FB.IS_FULL(): call DEC.STEP()` (R195), by recursion on the pixels still to fill: each round performs the
steps up to and including the one that writes a pixel (a `ReadCount` step writes none and is followed by one that does).
`Laws/Decoder.lean` proves that this is the loop of the rule. -/
def fillFrame : Nat → State → Res Unit
  | 0, s => .ok () s
  | k + 1, s =>
    if s.fb.isFull then .ok () s
    else
      (if s.dec.dmode = .readCount then decStep s else .ok () s).bind fun _ s1 =>
      (decStep s1).bind fun _ s2 => fillFrame k s2

/-- The frame-start reset of the decoder (70_reset_and_hazards.md R262): `DEC.pixel` holds no value, a free value (log 7). -/
def decFrameStart (s : State) : State :=
  (s.setDec { s.dec with dmode := .readCount, remaining := 0, pixel := Config.freeDecPixel s.decFree }).setDecFree
    (s.decFree + 1)

/-- `require DEC.phase == Run` "at a frame boundary: nothing of a frame is in progress" (R195, log 13). -/
def requireBoundary {α : Type} (s : State) (r : Res α) : Res α :=
  if s.dec.phase ≠ .run then .refused .wrongPhase
  else if s.atFrameBoundary then r
  else .refused .insideFrame

/-- `DEC.FRAME()` (R195): a frame, or none at the end of the stream. -/
def decFrame (s : State) : Res (Option Frame) :=
  requireBoundary s <|
  if s.bsr.atEnd then .ok none (s.setDec { s.dec with phase := .done })
  else
    (fbRestart s).bind fun _ s1 =>
    (fillFrame s1.fb.n (decFrameStart s1)).bind fun _ s2 =>
    (fbEmit s2).bind fun _ s3 => .ok (some s2.fb.frame) s3

/-- `repeat: f <- call DEC.FRAME() until f == none` (R196), by recursion on the bytes still to read: a completed frame
consumes at least 3. `Laws/Decoder.lean` proves that this is the loop of the rule. -/
def runFrames : Nat → State → Res Unit
  | 0, s => (decFrame s).bind fun _ s1 => .ok () s1
  | k + 1, s =>
    (decFrame s).bind fun f s1 =>
      match f with
      | none => .ok () s1
      | some _ => runFrames k s1

/-- `DEC.RUN()` (R196). -/
def decRun (s : State) : Res Unit :=
  (decStart s).bind fun _ s1 => runFrames (s1.bsr.len - s1.bsr.cur) s1

def execDecStart (s : State) : Host.Outcome State Fault Refusal :=
  finishComposite .decode noResult (guardPath .decode s (decStart s))

def execDecStep (s : State) : Host.Outcome State Fault Refusal :=
  finishComposite .decode noResult (guardPath .decode s (decStep s))

def execDecFrame (s : State) : Host.Outcome State Fault Refusal :=
  finishComposite .decode .frame (guardPath .decode s (decFrame s))

def execDecRun (s : State) : Host.Outcome State Fault Refusal :=
  finishComposite .decode noResult (guardPath .decode s (decRun s))

end Sys2Proof.Machine
end

