-- ==== Sys2Proof/Machine/Stream.lean ====
section
/-! DEFINITION. The stream elements as the decoder executes them (43_decoder.md R197 to R200), written over the arms of the
decoder's state machine. -/

namespace Sys2Proof.Machine

/-- A token is met where `DEC.STEP` may run and the decoder is at the start of a token (R198, R199, log 18). -/
def requireToken {α : Type} (s : State) (r : Res α) : Res α :=
  requireRoom s (if s.dec.dmode = .readCount then r else .refused .insideToken)

/-- The cursor moves past `k` bytes of the element (R206). -/
def State.pass (s : State) (k : Nat) : State := s.setCur (s.bsr.cur + k)

/-- How many of a token's `n` samples the frame has room for: `min(n, N - f)` (R198, R199). -/
def Fb.room (f : Fb) (n : Nat) : Nat := min n (f.n - f.fcur)

/-- `HDR h w` (R197): executed once, by `DEC.START`, at `cur == 0`. -/
def hdr (h w : Half) (s : State) : Res Unit := requireStart s (decHeader h w (s.pass 4))

/-- `m` `Literal` steps on the given payload bytes: each byte is passed and its sample placed; `TruncatedStream` where the
payload ends first (R198). -/
def literalSamples : Nat → List Byte → State → Res Unit
  | 0, _, s => .ok () s
  | _ + 1, [], s => .fault (.truncatedStream s.bsr.cur) s
  | m + 1, b :: bs, s => (placeSample b (s.pass 1)).bind fun _ s1 => literalSamples m bs s1

/-- `m` `Repeat` steps (R199). -/
def repeatSamples : Nat → State → Res Unit
  | 0, s => .ok () s
  | m + 1, s => (repeatStep s).bind fun _ s1 => repeatSamples m s1

/-- `RSV` (R200): the cursor has advanced past the count field; nothing is inserted. -/
def rsv (kind : Bool) (s : State) : Res Unit :=
  requireToken s (.fault (.reservedCount (countField kind 0)) (s.pass 2))

/-- `LIT n [b0, ...]` (R198); `n = 0` is not a `LIT` but `RSV` (R200, log 23). -/
def lit (n : Len) (payload : List Byte) (s : State) : Res Unit :=
  if n = 0 then rsv false s
  else
    requireToken s <|
      literalSamples (s.fb.room n.toNat) payload (beginLiteral n.toNat (s.pass 2))

/-- `RPT n v` (R199); `n = 0` is not an `RPT` but `RSV` (R200, log 23). -/
def rpt (n : Len) (v : Byte) (s : State) : Res Unit :=
  if n = 0 then rsv true s
  else requireToken s <| repeatSamples (s.fb.room n.toNat) (beginRepeat n.toNat v (s.pass 3))

def execHdr (h w : Half) (s : State) : Host.Outcome State Fault Refusal :=
  finishComposite .decode noResult (guardPath .decode s (hdr h w s))

def execLit (n : Len) (payload : List Byte) (s : State) : Host.Outcome State Fault Refusal :=
  finishComposite .decode noResult (guardPath .decode s (lit n payload s))

def execRpt (n : Len) (v : Byte) (s : State) : Host.Outcome State Fault Refusal :=
  finishComposite .decode noResult (guardPath .decode s (rpt n v s))

def execRsv (kind : Bool) (s : State) : Host.Outcome State Fault Refusal :=
  finishComposite .decode noResult (guardPath .decode s (rsv kind s))

end Sys2Proof.Machine
end

