-- ==== Sys2Proof/Machine/Dispatch.lean ====
section
/-! DEFINITION. One arm per constructor of Instr. -/

namespace Sys2Proof.Machine

def exec (i : Instr) (s : State) : Host.Outcome State Fault Refusal :=
  match i with
  | .hdr h w => Sys2Proof.Machine.execHdr h w s
  | .lit n p => Sys2Proof.Machine.execLit n p s
  | .rpt n v => Sys2Proof.Machine.execRpt n v s
  | .rsv k => Sys2Proof.Machine.execRsv k s
  | .bsrLoad bytes => Sys2Proof.Machine.execBsrLoad bytes s
  | .bsrReadU8 => Sys2Proof.Machine.execBsrReadU8 s
  | .bsrReadU16 => Sys2Proof.Machine.execBsrReadU16 s
  | .bsrAtEnd => Sys2Proof.Machine.execBsrAtEnd s
  | .bswWriteU8 v => Sys2Proof.Machine.execBswWriteU8 v s
  | .bswWriteU16 v => Sys2Proof.Machine.execBswWriteU16 v s
  | .fbConstruct h w => Sys2Proof.Machine.execFbConstruct h w s
  | .fbInsertPixel v => Sys2Proof.Machine.execFbInsertPixel v s
  | .fbIsFull => Sys2Proof.Machine.execFbIsFull s
  | .fbEmit => Sys2Proof.Machine.execFbEmit s
  | .fbRestart => Sys2Proof.Machine.execFbRestart s
  | .encStart h w => Sys2Proof.Machine.execEncStart h w s
  | .encSample v => Sys2Proof.Machine.execEncSample v s
  | .decStart => Sys2Proof.Machine.execDecStart s
  | .decStep => Sys2Proof.Machine.execDecStep s
  | .decFrame => Sys2Proof.Machine.execDecFrame s
  | .decRun => Sys2Proof.Machine.execDecRun s

end Sys2Proof.Machine
end

