-- ==== Sys2Proof/Machine/Fetch.lean ====
section
/-! DEFINITION. Fetching the stream element at the cursor (30_encoding.md R113), and placing one there. -/

namespace Sys2Proof.Machine

/-- The bytes from the cursor to the end of the buffer. -/
def State.bytesAtCursor (s : State) : List Byte := Memory.readAll s.bsr.buf (s.bsr.len - s.bsr.cur) s.bsr.cur

/-- What the decode path finds at its cursor. -/
inductive Fetched where
  | instr (i : Instr)
  /-- the bytes end inside a field that is read before the element acts -/
  | cut (why : Reject)
  | refused (r : Refusal)
  deriving DecidableEq, Repr

/-- Which kind of element the decoder expects, by its phase (R113, R190, R191): the header in phase `Idle` at address 0 of
an attached buffer, a token in phase `Run` at the start of a token with room in the frame; otherwise no element is met. -/
def elementPos (s : State) : ElementPos ⊕ Refusal :=
  match s.dec.phase with
  | .fault => .inr (.pathFaulted .decode)
  | .done => .inr .wrongPhase
  | .idle =>
    if ¬ s.bsr.attached then .inr .noBuffer
    else if s.bsr.cur ≠ 0 then .inr .cursorNotAtStart
    else .inl .header
  | .run =>
    if ¬ s.fb.constructed then .inr .fbNotConstructed
    else if s.fb.isFull then .inr .fbFull
    else if s.dec.dmode = .readCount then .inl .token
    else .inr .insideToken

def fetch (s : State) : Fetched :=
  match elementPos s with
  | .inr r => .refused r
  | .inl pos =>
    match decode pos s.bytesAtCursor with
    | .element i _ => .instr i
    | .rejected why => .cut why

/-- `TruncatedStream` at the field that is cut short; the fields before it have been read (60_exceptions.md R221, R227). -/
def cutShort (why : Reject) (s : State) : Host.Outcome State Fault Refusal :=
  finishComposite .decode noResult
    (Res.fault (α := Unit) (.truncatedStream (s.bsr.cur + why.consumed)) (s.pass why.consumed))

/-- Ready to meet a token: phase `Run`, at the start of a token, with room in the frame. A state that is ready is left as
it is; else the smallest legal frame is started. -/
def State.readyForToken (s : State) : State :=
  if s.dec.phase = .run ∧ s.fb.constructed ∧ ¬ s.fb.isFull ∧ s.dec.dmode = .readCount then s
  else
    (s.setFb ⟨true, 1, 1, 0, []⟩).setDec
      { s.dec with dmode := .readCount, remaining := 0, phase := .run, fault := .noFault, frameBegun := false }

/-- Ready to meet the header: phase `Idle`, cursor at 0, Frame Buffer not constructed. -/
def State.readyForHeader (s : State) : State :=
  ((s.setCur 0).setFb Fb.reset).setDec { s.dec with phase := .idle, fault := .noFault }

def State.readyFor (s : State) : ElementPos → State
  | .header => s.readyForHeader
  | .token => s.readyForToken

/-- Store the bytes of a table word at the cursor; a buffer is attached that reaches at least to their end. -/
def State.placeWord (s : State) (nbits w : Nat) : State :=
  let lead := tableLead nbits w
  let zeros := tableZeros nbits w
  let cur := s.bsr.cur
  s.setBsr
    { s.bsr with
      buf := Memory.writeAll (Memory.clear s.bsr.buf (cur + lead.length) zeros) cur lead
      len := max s.bsr.len (cur + lead.length + zeros)
      attached := true }

end Sys2Proof.Machine
end

