-- ==== Sys2Proof/Machine/Step.lean ====
section
/-! DEFINITION. One step: the oldest pending request of the host (log 1). -/

namespace Sys2Proof.Machine

/-- Execute the stream element at the cursor. -/
def stepElement (s : State) : Host.Outcome State Fault Refusal :=
  match fetch s with
  | .instr i => exec i s
  | .cut why => cutShort why s
  | .refused r => .refused r

/-- Perform a port operation; a stream element is none (R114). -/
def stepOp (i : Instr) (s : State) : Host.Outcome State Fault Refusal :=
  if i.isElement then .refused .notAPortOperation else exec i s

/-- With no request pending the core does nothing (R260: after reset a path does nothing until the host acts). -/
def step (s : State) : Host.Outcome State Fault Refusal :=
  match s.requests with
  | [] => .next s
  | .op i :: rest => stepOp i (s.setRequests rest)
  | .element :: rest => stepElement (s.setRequests rest)
  | .reset scope :: rest => .next (resetScope scope (s.setRequests rest))

/-- The state whose next step fetches and runs the element of a table word: its bytes stand at the cursor, the decode path
is ready to meet such an element, and the host asks for it (log 17, log 21). -/
def State.withFetchWord (s : State) (nbits w : Nat) : State :=
  let s1 := (s.readyFor (tablePos nbits)).placeWord nbits w
  s1.setRequests (.element :: s1.requests)

end Sys2Proof.Machine
end

