-- ==== Sys2Proof/Safety.lean ====
section
/-! DEFINITION. The terms that claims are stated in: the invariants of the units (10_state.md), what a token stands for, the
two sides of the state that the data paths own, and running a list of operations. -/

namespace Sys2Proof.Machine

/-! ## Invariants of the units -/

/-- R21 to R23: the buffer is canonical, no cell lies at or above `LEN`, `0 <= cur <= LEN`, and no buffer has no bytes. -/
def Bsr.Inv (b : Bsr) : Prop :=
  Memory.wf b.buf = true ∧ (∀ c ∈ b.buf, c.1 < b.len) ∧ b.cur ≤ b.len ∧ (b.attached = false → b.len = 0)

/-- R29: "all three channels equal to the same decoded luma value". -/
def Pixel.Grey (p : Pixel) : Prop := p.red = p.green ∧ p.green = p.blue

/-- R27, R29, R30: legal dimensions, `0 <= fcur <= N`, exactly the pixels below `fcur` hold a value, all of them grey. -/
def Fb.Inv (f : Fb) : Prop :=
  (f.constructed = true → f.height ≠ 0 ∧ f.width ≠ 0) ∧ f.fcur ≤ f.n ∧ f.pix.length = f.fcur ∧ ∀ p ∈ f.pix, p.Grey

/-- R47, R153: a frame in the Frame Sink is whole: legal dimensions, all its pixels, all grey. -/
def Frame.Whole (f : Frame) : Prop :=
  f.height ≠ 0 ∧ f.width ≠ 0 ∧ f.pix.length = f.height.toNat * f.width.toNat ∧ ∀ p ∈ f.pix, p.Grey

/-- R39 (b) to (d): what the mode says of the other registers once a sample is pending. -/
def Enc.ModeInv (e : Enc) : Prop :=
  match e.mode with
  | .chooseMode => e.count = 0 ∧ e.buf = []
  | .repeatMode => 1 ≤ e.count ∧ e.count < Config.maxRun ∧ e.buf = []
  | .literalMode =>
    1 ≤ e.count ∧ e.count < Config.maxRun ∧ (e.buf.length : Int) = e.count ∧ e.buf.getLast? ≠ some e.last

/-- R39 (a) to (d), R32, R33: the encoder's registers between two samples in phase `Run`. -/
def Enc.RunInv (e : Enc) : Prop :=
  e.height ≠ 0 ∧ e.width ≠ 0 ∧ e.pos < e.n ∧ (e.lastValid = false ↔ e.pos = 0) ∧
  (e.lastValid = false → e.count = Config.initialCount ∧ e.mode = .chooseMode ∧ e.buf = []) ∧
  (e.lastValid = true → e.ModeInv)

/-- R45, R220: the encoder faults only with `InvalidHeader` or `SinkFailure`, and a fault goes together with phase `Fault`. -/
def Enc.FaultInv (e : Enc) : Prop :=
  match e.fault with
  | .noFault => e.phase ≠ .fault
  | .invalidHeader _ _ => e.phase = .fault
  | .sinkFailure _ => e.phase = .fault
  | _ => False

def Enc.Inv (e : Enc) : Prop := e.FaultInv ∧ (e.phase = .run → e.RunInv)

/-- R40, R41, R192: between two steps in phase `Run` a token in progress owes 1 to 0x7FFF samples, and none is owed in
`ReadCount`. -/
def Dec.RunInv (d : Dec) : Prop :=
  match d.dmode with
  | .readCount => d.remaining = 0
  | _ => 1 ≤ d.remaining ∧ d.remaining ≤ Config.maxRun

/-- R45, R220: the decode path faults with any fault but `SinkFailure`. -/
def Dec.FaultInv (d : Dec) : Prop :=
  match d.fault with
  | .noFault => d.phase ≠ .fault
  | .sinkFailure _ => False
  | _ => d.phase = .fault

def Dec.Inv (d : Dec) : Prop := d.FaultInv ∧ (d.phase = .run → d.RunInv)

/-- The invariant of the machine. -/
structure State.Inv (s : State) : Prop where
  bsr : s.bsr.Inv
  fb : s.fb.Inv
  enc : s.enc.Inv
  dec : s.dec.Inv
  /-- R44: a decoder in phase `Run` has constructed the Frame Buffer -/
  running : s.dec.phase = .run → s.fb.constructed = true
  frames : ∀ f ∈ s.frames, f.Whole

/-! ## The two paths -/

/-- The state of the encode path and of its sink (R3, R20). -/
def State.encodeSide (s : State) : Enc × Bsw × List Bool × Nat := (s.enc, s.bsw, s.sinkAnswers, s.encFree)

/-- The state of the decode path and of the Frame Sink (R3, R20). -/
def State.decodeSide (s : State) : Bsr × Fb × Dec × List Frame × Nat := (s.bsr, s.fb, s.dec, s.frames, s.decFree)

end Sys2Proof.Machine

/-- The path that an operation belongs to (R3). -/
def Sys2Proof.Instr.path : Sys2Proof.Instr → Sys2Proof.Machine.Path
  | .bswWriteU8 _ => .encode
  | .bswWriteU16 _ => .encode
  | .encStart _ _ => .encode
  | .encSample _ => .encode
  | .hdr _ _ => .decode
  | .lit _ _ => .decode
  | .rpt _ _ => .decode
  | .rsv _ => .decode
  | .bsrLoad _ => .decode
  | .bsrReadU8 => .decode
  | .bsrReadU16 => .decode
  | .bsrAtEnd => .decode
  | .fbConstruct _ _ => .decode
  | .fbInsertPixel _ => .decode
  | .fbIsFull => .decode
  | .fbEmit => .decode
  | .fbRestart => .decode
  | .decStart => .decode
  | .decStep => .decode
  | .decFrame => .decode
  | .decRun => .decode

namespace Sys2Proof.Machine

/-- The sink takes the next `n` bytes (R26). -/
def State.sinkTakes (s : State) (n : Nat) : Prop := ∀ a ∈ s.sinkAnswers.take n, a = true

/-- "the sink accepts every byte" (R26). -/
def State.sinkTakesAll (s : State) : Prop := ∀ a ∈ s.sinkAnswers, a = true

/-! ## Tokens -/

/-- The bytes of a token (R103, R104, R112). -/
def Token.bytes : Token → List Byte
  | .lit n b => halfBytes (BitVec.ofNat 16 n) ++ b
  | .rpt n v => halfBytes (BitVec.ofNat 16 (Config.kindBit.toNat + n)) ++ [v]

/-- The samples that a token stands for (R103, R104). -/
def Token.samples : Token → List Byte
  | .lit _ b => b
  | .rpt n v => List.replicate n v

/-- A token of the format: a length in 1 to 0x7FFF, and a literal payload of that length (R103, R104, R107). -/
def Token.Legal : Token → Prop
  | .lit n b => 1 ≤ n ∧ n ≤ Config.maxRun ∧ b.length = n
  | .rpt n _ => 1 ≤ n ∧ n ≤ Config.maxRun

/-- The bytes of a sequence of tokens (R100). -/
def tokensBytes (ts : List Token) : List Byte := ts.flatMap Token.bytes

/-- The samples that a sequence of tokens stands for. -/
def tokensSamples (ts : List Token) : List Byte := ts.flatMap Token.samples

/-- The bytes of a header (R101). -/
def headerBytes (h w : Half) : List Byte := halfBytes h ++ halfBytes w

/-- The frame that a decoder makes of `N` samples: grey pixels in raster order (R151, R205). -/
def greyFrame (h w : Half) (samples : List Byte) : Frame := ⟨h, w, samples.map greyPixel⟩

/-- The pending samples: consumed but not yet emitted (R39 (a) to (d)). -/
def Enc.pending (e : Enc) : List Byte :=
  if e.lastValid = false then []
  else
    match e.mode with
    | .chooseMode => [e.last]
    | .repeatMode => List.replicate (e.count + 1).toNat e.last
    | .literalMode => e.buf ++ [e.last]

/-! ## Running operations -/

/-- Perform a list of operations in order, stopping at the first refusal. -/
def runOps : List Instr → State → Host.Outcome State Fault Refusal
  | [], s => .next s
  | i :: is, s =>
    match exec i s with
    | .next t => runOps is t
    | .fault r => .fault r
    | .refused r => .refused r

end Sys2Proof.Machine
end

