-- ==== Sys2Proof/Certificates/Slice0/Obligations.lean ====
section
/-! DEFINITION. The statements for the provers.

Conventions of the model that many of them use, none of them a rule of the spec: the `result` register (log 3) holds what an
operation returns, `.noValue` for nothing; `sinkAnswers` (log 5) lists the sink's coming answers, and a sink whose list is used
up takes every byte; `requests` (log 1) is the host's queue; `frameBegun` (log 13) says that a count field has been read since
the Frame Buffer was last emptied. The value of `last` at a frame start and of the other registers of a
unit after a faulting composite operation is free (log 6, log 7): a statement either leaves it open or repeats it. -/

open Sys2Proof Sys2Proof.Machine

/-! ## The stream encoding -/

/-- The example elements of 95_test_vectors.md section 2.3 (D-X1, D-X3 to D-X6, D-X8, D-X9), written out as bytes, decode to
the elements that they stand for. -/
def Obligations.SpecExampleBytesDecode : Prop :=
  decode .token [0x00, 0x01, 0x2A] = .element (.lit 1 [0x2A]) [] ∧
  decode .token [0x80, 0x01, 0x2A] = .element (.rpt 1 0x2A) [] ∧
  decode .token [0xFF, 0xFF, 0x00] = .element (.rpt 0x7FFF 0) [] ∧
  decode .token [0x00, 0x00] = .element (.rsv false) [] ∧
  decode .token [0x80, 0x00] = .element (.rsv true) [] ∧
  decode .token [0x81, 0x00, 0x05] = .element (.rpt 256 5) [] ∧
  decode .header [0x01, 0x00, 0x00, 0x02] = .element (.hdr 256 2) []

/-- R101, R103, R104, R106, R112: every well-formed stream element, with every operand value that the encoding admits, is
read back from its bytes, whatever follows them. -/
def Obligations.DecodeEncodeElement : Prop :=
  ∀ (i : Instr) (bs rest : List Byte),
    i.wellFormed = true → encode i = some bs → decode i.position (bs ++ rest) = .element i rest

/-- The other direction: the bytes of a decoded element are its encoding and the rest; no byte is dropped or read twice. -/
def Obligations.EncodeDecodedElement : Prop :=
  ∀ (pos : ElementPos) (bytes : List Byte) (i : Instr) (rest : List Byte),
    decode pos bytes = .element i rest → i.position = pos ∧ ∃ bs, encode i = some bs ∧ bs ++ rest = bytes

/-- R105: the 16-bit count space is `LIT` from 0x0001 to 0x7FFF, `RPT` from 0x8001 to 0xFFFF, and reserved at 0x0000 and
0x8000; testing `count_field < 0x8000` and testing bit 15 are the same test. Where the bytes end before a literal's payload does,
the payload that is read is what is there: the model's choice (log 19). -/
def Obligations.CountFieldPartition : Prop :=
  ∀ (c : Half) (v : Byte) (rest : List Byte),
    (c = 0x0000#16 → decodeToken (hiByte c :: loByte c :: rest) = .element (.rsv false) rest) ∧
    (c = 0x8000#16 → decodeToken (hiByte c :: loByte c :: rest) = .element (.rsv true) rest) ∧
    (0x0001 ≤ c.toNat → c.toNat ≤ 0x7FFF →
      decodeToken (hiByte c :: loByte c :: rest) =
        .element (.lit (BitVec.ofNat 15 c.toNat) (rest.take c.toNat)) (rest.drop c.toNat)) ∧
    (0x8001 ≤ c.toNat →
      decodeToken (hiByte c :: loByte c :: v :: rest) =
        .element (.rpt (BitVec.ofNat 15 (c.toNat - 0x8000)) v) rest) ∧
    (c < 0x8000#16 ↔ c.getLsbD 15 = false)

/-! ## Bitstream Reader -/

/-- R130: `BSR.READ_U8` returns the byte at the cursor and advances by 1, or raises `TruncatedStream`, which puts the path in
phase `Fault` (R226). That a fault of this primitive, called by the host, is recorded in the register of the path and keeps the
decoder's other registers is the model's reading of R226 and R227, in phase `Done` too, which R260 says only reset leaves
(log 15). -/
def Obligations.ReadU8Result : Prop :=
  ∀ s : State, s.dec.phase ≠ .fault →
    (s.bsr.cur + 1 ≤ s.bsr.len →
      exec .bsrReadU8 s =
        .next { s with
          bsr := { s.bsr with cur := s.bsr.cur + 1 }
          result := .u8 (Memory.read s.bsr.buf s.bsr.cur) }) ∧
    (s.bsr.len < s.bsr.cur + 1 →
      exec .bsrReadU8 s =
        .next { s with
          dec := { s.dec with phase := .fault, fault := .truncatedStream s.bsr.cur }
          result := .noValue })

/-- R131: `BSR.READ_U16` returns `BUF[cur] * 256 + BUF[cur+1]` and advances by 2 from any cursor, or raises `TruncatedStream`
and consumes nothing, not even a lone byte. The fault's record and the registers kept across it are the model's reading of R226
and R227, in phase `Done` too (R260, log 15). -/
def Obligations.ReadU16Result : Prop :=
  ∀ s : State, s.dec.phase ≠ .fault →
    (s.bsr.cur + 2 ≤ s.bsr.len →
      ∃ v : Half,
        v.toNat = (Memory.read s.bsr.buf s.bsr.cur).toNat * 256 + (Memory.read s.bsr.buf (s.bsr.cur + 1)).toNat ∧
        exec .bsrReadU16 s =
          .next { s with bsr := { s.bsr with cur := s.bsr.cur + 2 }, result := .u16 v }) ∧
    (s.bsr.len < s.bsr.cur + 2 →
      exec .bsrReadU16 s =
        .next { s with
          dec := { s.dec with phase := .fault, fault := .truncatedStream s.bsr.cur }
          result := .noValue })

/-- R133 (the spec's decision D23): `BSR.LOAD(bytes)` attaches the buffer with the cursor at 0; the loaded bytes are what is
read at addresses 0 to LEN-1, and `at_end` holds exactly of an empty buffer. That a load in phase `Run` or `Done` is performed
and keeps the decoder's registers is the model's reading (log 26). -/
def Obligations.LoadAttachesBuffer : Prop :=
  ∀ (bytes : List Byte) (s : State), s.dec.phase ≠ .fault →
    ∃ m : Memory,
      exec (.bsrLoad bytes) s =
        .next { s with bsr := { buf := m, len := bytes.length, cur := 0, attached := true }, result := .noValue } ∧
      Memory.wf m = true ∧ (∀ i (h : i < bytes.length), Memory.read m i = bytes[i]) ∧
      (Bsr.atEnd { buf := m, len := bytes.length, cur := 0, attached := true } = true ↔ bytes = [])

/-- R132: `BSR.AT_END` returns whether `cur == LEN` and changes nothing. -/
def Obligations.AtEndResult : Prop :=
  ∀ s : State, s.dec.phase ≠ .fault →
    exec .bsrAtEnd s = .next { s with result := .bit (decide (s.bsr.cur = s.bsr.len)) }

/-! ## Bitstream Writer -/

/-- R134: `BSW.WRITE_U8` appends the byte if the sink takes it, else raises `SinkFailure` with nothing appended. That a fault of
this primitive, called by the host, is recorded in the register of the path and keeps the encoder's other registers is the model's
reading of R226 and R227 (log 15). -/
def Obligations.WriteU8Result : Prop :=
  ∀ (v : Byte) (s : State), s.enc.phase ≠ .fault →
    (s.sinkAnswers.headD true = true →
      exec (.bswWriteU8 v) s =
        .next { s with
          bsw := ⟨s.bsw.out ++ [v]⟩
          sinkAnswers := s.sinkAnswers.tail
          result := .noValue }) ∧
    (s.sinkAnswers.headD true = false →
      exec (.bswWriteU8 v) s =
        .next { s with
          enc := { s.enc with phase := .fault, fault := .sinkFailure s.bsw.out.length }
          sinkAnswers := s.sinkAnswers.tail
          result := .noValue })

/-- R135: `BSW.WRITE_U16` appends the high byte and then the low byte; a refused first byte appends nothing, a refused second
byte leaves the first appended. After a refused byte the encoder's registers `mode`, `count`, `last_valid`, `last`, `buf` and
`pos` are left open: R227 lists this operation as composite, and the model makes them free values (log 6, log 15). -/
def Obligations.WriteU16Result : Prop :=
  ∀ (v : Half) (s : State), s.enc.phase ≠ .fault →
    (s.sinkTakes 2 →
      exec (.bswWriteU16 v) s =
        .next { s with
          bsw := ⟨s.bsw.out ++ [BitVec.ofNat 8 (v.toNat / 256), BitVec.ofNat 8 (v.toNat % 256)]⟩
          sinkAnswers := s.sinkAnswers.drop 2
          result := .noValue }) ∧
    (∀ rest, s.sinkAnswers = false :: rest →
      ∃ t, exec (.bswWriteU16 v) s = .next t ∧ t.bsw.out = s.bsw.out ∧ t.enc.phase = .fault ∧
        t.enc.fault = .sinkFailure s.bsw.out.length ∧ t.decodeSide = s.decodeSide) ∧
    (∀ rest, s.sinkAnswers = true :: false :: rest →
      ∃ t, exec (.bswWriteU16 v) s = .next t ∧ t.bsw.out = s.bsw.out ++ [BitVec.ofNat 8 (v.toNat / 256)] ∧
        t.enc.phase = .fault ∧ t.enc.fault = .sinkFailure (s.bsw.out.length + 1) ∧ t.decodeSide = s.decodeSide)

/-- 95_test_vectors.md D-B15: a 16-bit field written to an empty sink, taken from it and loaded, reads back as written, for
every value. -/
def Obligations.WrittenFieldReadsBack : Prop :=
  ∀ (v : Half) (s : State), s.enc.phase ≠ .fault → s.dec.phase ≠ .fault → s.sinkTakes 2 → s.bsw.out = [] →
    ∃ t1 t2 t3, exec (.bswWriteU16 v) s = .next t1 ∧ exec (.bsrLoad t1.bsw.out) t1 = .next t2 ∧
      exec .bsrReadU16 t2 = .next t3 ∧ t3.result = .u16 v ∧ t3.bsr.atEnd = true

/-! ## Frame Buffer -/

/-- R150: `FB.CONSTRUCT(h, w)` fixes the dimensions of an empty buffer; a zero dimension and a second construction are
refused. -/
def Obligations.ConstructResult : Prop :=
  ∀ (h w : Half) (s : State), s.dec.phase ≠ .fault →
    (s.fb.constructed = false → h ≠ 0 → w ≠ 0 →
      exec (.fbConstruct h w) s =
        .next { s with
          fb := { constructed := true, height := h, width := w, fcur := 0, pix := [] }
          result := .noValue }) ∧
    (s.fb.constructed = false → h = 0 ∨ w = 0 → exec (.fbConstruct h w) s = .refused .zeroDimension) ∧
    (s.fb.constructed = true → exec (.fbConstruct h w) s = .refused .fbAlreadyConstructed)

/-- R151: `FB.INSERT_PIXEL(v)` writes `(v, v, v)` at the next raster position and advances the fill cursor, every pixel
before it unchanged; on a full buffer it raises `BufferOverflow` and writes nothing. The fault's record and the decoder's
registers kept across it are the model's reading of R226 and R227, in phase `Done` too (R260, log 15). -/
def Obligations.InsertPixelResult : Prop :=
  ∀ (v : Byte) (s : State), s.dec.phase ≠ .fault → s.fb.constructed = true → s.fb.Inv →
    (s.fb.fcur < s.fb.height.toNat * s.fb.width.toNat →
      exec (.fbInsertPixel v) s =
        .next { s with
          fb := { s.fb with fcur := s.fb.fcur + 1, pix := s.fb.pix ++ [⟨v, v, v⟩] }
          result := .noValue }) ∧
    (s.fb.fcur = s.fb.height.toNat * s.fb.width.toNat →
      exec (.fbInsertPixel v) s =
        .next { s with
          dec := { s.dec with phase := .fault, fault := .bufferOverflow s.fb.fcur }
          result := .noValue })

/-- R152: `FB.IS_FULL` returns whether `fcur == N` and changes nothing; it is never true right after `FB.CONSTRUCT` or
`FB.RESTART`. -/
def Obligations.IsFullResult : Prop :=
  (∀ s : State, s.dec.phase ≠ .fault → s.fb.constructed = true →
    exec .fbIsFull s =
      .next { s with result := .bit (decide (s.fb.fcur = s.fb.height.toNat * s.fb.width.toNat)) }) ∧
  (∀ (h w : Half) (s t : State), exec (.fbConstruct h w) s = .next t →
    exec .fbIsFull t = .next { t with result := .bit false }) ∧
  ∀ s t : State, s.fb.Inv → exec .fbRestart s = .next t → exec .fbIsFull t = .next { t with result := .bit false }

/-- R153: `FB.EMIT` hands a full frame to the Frame Sink, at its end; on a buffer that is not full it is refused. -/
def Obligations.EmitResult : Prop :=
  ∀ s : State, s.dec.phase ≠ .fault → s.fb.constructed = true → s.fb.Inv →
    (s.fb.fcur = s.fb.height.toNat * s.fb.width.toNat →
      exec .fbEmit s =
        .next { s with
          frames := s.frames ++ [{ height := s.fb.height, width := s.fb.width, pix := s.fb.pix }]
          result := .noValue }) ∧
    (s.fb.fcur ≠ s.fb.height.toNat * s.fb.width.toNat → exec .fbEmit s = .refused .fbNotFull)

/-- R154: `FB.RESTART` empties the buffer and keeps the dimensions; no frame is in progress afterwards (the model's own bit
`frameBegun`, log 13), and every other register of the decoder stays. -/
def Obligations.RestartResult : Prop :=
  ∀ s : State, s.dec.phase ≠ .fault → s.fb.constructed = true →
    exec .fbRestart s =
      .next { s with
        fb := { s.fb with fcur := 0, pix := [] }
        dec := { s.dec with frameBegun := false }
        result := .noValue }

/-- R27: before construction every `FB` operation but `FB.CONSTRUCT` is refused. -/
def Obligations.FrameBufferNeedsConstruction : Prop :=
  ∀ (v : Byte) (s : State), s.dec.phase ≠ .fault → s.fb.constructed = false →
    exec (.fbInsertPixel v) s = .refused .fbNotConstructed ∧ exec .fbIsFull s = .refused .fbNotConstructed ∧
    exec .fbEmit s = .refused .fbNotConstructed ∧ exec .fbRestart s = .refused .fbNotConstructed

/-! ## Token Encoder -/

/-- R160: `ENC.START(h, w)` in phase `Idle` writes the header, height first, and starts the first frame; a zero dimension
raises `InvalidHeader` before anything is written; a refused byte raises `SinkFailure`; in another phase it is refused. -/
def Obligations.EncStartResult : Prop :=
  ∀ (h w : Half) (s : State),
    (s.enc.phase = .idle → h ≠ 0 → w ≠ 0 → s.sinkTakes 4 →
      ∃ t, exec (.encStart h w) s = .next t ∧
        t.bsw.out = s.bsw.out ++ [hiByte h, loByte h, hiByte w, loByte w] ∧
        t.enc = { s.enc with
          height := h, width := w, pos := 0, mode := .chooseMode, count := -1, lastValid := false, last := t.enc.last,
          buf := [], phase := .run } ∧
        t.sinkAnswers = s.sinkAnswers.drop 4 ∧ t.result = .noValue ∧ t.requests = s.requests ∧
        t.decodeSide = s.decodeSide) ∧
    (s.enc.phase = .idle → h = 0 ∨ w = 0 →
      ∃ t, exec (.encStart h w) s = .next t ∧ t.enc.phase = .fault ∧ t.enc.fault = .invalidHeader h w ∧
        t.bsw = s.bsw ∧ t.sinkAnswers = s.sinkAnswers ∧ t.decodeSide = s.decodeSide) ∧
    (∀ (k : Nat) (rest : List Bool), s.enc.phase = .idle → h ≠ 0 → w ≠ 0 → k < 4 →
      s.sinkAnswers = List.replicate k true ++ false :: rest →
      ∃ t, exec (.encStart h w) s = .next t ∧ t.enc.phase = .fault ∧
        t.enc.fault = .sinkFailure (s.bsw.out.length + k) ∧
        t.bsw.out = s.bsw.out ++ [hiByte h, loByte h, hiByte w, loByte w].take k ∧ t.decodeSide = s.decodeSide) ∧
    (s.enc.phase = .run → exec (.encStart h w) s = .refused .wrongPhase)

/-- R170: the transition table of `ENC.mode` for a sample that is not final, with `c` the count after the increment: what is
emitted and what the registers become, row by row; the sink's answers go down by one for each byte, and everything else of the
state is unchanged. -/
def Obligations.EncSampleTransitionTable : Prop :=
  ∀ (v : Byte) (s : State), s.enc.phase = .run → s.enc.RunInv → s.sinkTakesAll →
    s.enc.pos + 1 < s.enc.height.toNat * s.enc.width.toNat →
    ∃ t, exec (.encSample v) s = .next t ∧
      t.enc = { s.enc with
        pos := s.enc.pos + 1, lastValid := true, last := v, mode := t.enc.mode, count := t.enc.count, buf := t.enc.buf } ∧
      t.decodeSide = s.decodeSide ∧ t.requests = s.requests ∧ t.result = .noValue ∧ t.encFree = s.encFree ∧
      t.sinkAnswers = s.sinkAnswers.drop (t.bsw.out.length - s.bsw.out.length) ∧
      (s.enc.lastValid = false →
        t.bsw = s.bsw ∧ t.enc.mode = .chooseMode ∧ t.enc.count = 0 ∧ t.enc.buf = []) ∧
      (s.enc.lastValid = true → s.enc.mode = .chooseMode → v = s.enc.last →
        t.bsw = s.bsw ∧ t.enc.mode = .repeatMode ∧ t.enc.count = 1 ∧ t.enc.buf = []) ∧
      (s.enc.lastValid = true → s.enc.mode = .chooseMode → v ≠ s.enc.last →
        t.bsw = s.bsw ∧ t.enc.mode = .literalMode ∧ t.enc.count = 1 ∧ t.enc.buf = [s.enc.last]) ∧
      (s.enc.lastValid = true → s.enc.mode = .repeatMode → v = s.enc.last → s.enc.count + 1 ≤ 0x7FFE →
        t.bsw = s.bsw ∧ t.enc.mode = .repeatMode ∧ t.enc.count = s.enc.count + 1 ∧ t.enc.buf = []) ∧
      (s.enc.lastValid = true → s.enc.mode = .repeatMode → v ≠ s.enc.last ∨ s.enc.count + 1 = 0x7FFF →
        t.bsw.out = s.bsw.out ++
          (halfBytes (BitVec.ofNat 16 (0x8000 + (s.enc.count + 1).toNat)) ++ [s.enc.last]) ∧
        t.enc.mode = .chooseMode ∧ t.enc.count = 0 ∧ t.enc.buf = []) ∧
      (s.enc.lastValid = true → s.enc.mode = .literalMode → v ≠ s.enc.last → s.enc.count + 1 ≤ 0x7FFE →
        t.bsw = s.bsw ∧ t.enc.mode = .literalMode ∧ t.enc.count = s.enc.count + 1 ∧
        t.enc.buf = s.enc.buf ++ [s.enc.last]) ∧
      (s.enc.lastValid = true → s.enc.mode = .literalMode → v = s.enc.last ∨ s.enc.count + 1 = 0x7FFF →
        t.bsw.out = s.bsw.out ++
          (halfBytes (BitVec.ofNat 16 (s.enc.count + 1).toNat) ++ (s.enc.buf ++ [s.enc.last])) ∧
        t.enc.mode = .chooseMode ∧ t.enc.count = 0 ∧ t.enc.buf = [])

/-- R166 and R169: the final sample of a frame, case by case (F0 to F5): what is emitted, and the per-frame state at its
frame-start value afterwards. A pending single sample (`ChooseMode`) counts as `RepeatMode` if it equals the final sample
and as `LiteralMode` if it does not (R163). The bytes of F0, F2, F3 and F5 are the spec's own decisions D7 and D8 (log 27), and
the value of `last` afterwards is free (log 7). -/
def Obligations.EncSampleFinalCases : Prop :=
  ∀ (v : Byte) (s : State), s.enc.phase = .run → s.enc.RunInv → s.sinkTakesAll →
    s.enc.pos + 1 = s.enc.height.toNat * s.enc.width.toNat →
    ∃ t, exec (.encSample v) s = .next t ∧
      t.enc = { s.enc with
        pos := 0, mode := .chooseMode, count := -1, lastValid := false, last := t.enc.last, buf := [] } ∧
      t.decodeSide = s.decodeSide ∧ t.requests = s.requests ∧ t.result = .noValue ∧ t.encFree = s.encFree + 1 ∧
      t.sinkAnswers = s.sinkAnswers.drop (t.bsw.out.length - s.bsw.out.length) ∧
      (s.enc.lastValid = false → t.bsw.out = s.bsw.out ++ [0x00, 0x01, v]) ∧
      (s.enc.lastValid = true → s.enc.mode = .repeatMode ∨ (s.enc.mode = .chooseMode ∧ v = s.enc.last) →
        (v = s.enc.last → s.enc.count + 1 ≤ 0x7FFE →
          t.bsw.out = s.bsw.out ++
            (halfBytes (BitVec.ofNat 16 (0x8000 + (s.enc.count + 2).toNat)) ++ [s.enc.last])) ∧
        (v ≠ s.enc.last ∨ s.enc.count + 1 = 0x7FFF →
          t.bsw.out = s.bsw.out ++
            (halfBytes (BitVec.ofNat 16 (0x8000 + (s.enc.count + 1).toNat)) ++ [s.enc.last] ++ [0x00, 0x01, v]))) ∧
      (s.enc.lastValid = true → s.enc.mode = .literalMode ∨ (s.enc.mode = .chooseMode ∧ v ≠ s.enc.last) →
        (s.enc.count + 1 ≤ 0x7FFE →
          t.bsw.out = s.bsw.out ++
            (halfBytes (BitVec.ofNat 16 (s.enc.count + 2).toNat) ++ (s.enc.buf ++ [s.enc.last, v]))) ∧
        (s.enc.count + 1 = 0x7FFF →
          t.bsw.out = s.bsw.out ++
            (halfBytes 0x7FFF#16 ++ (s.enc.buf ++ [s.enc.last]) ++ [0x00, 0x01, v])))

/-- R39 (e), R174: whatever the sample, the bytes emitted are whole legal tokens; their samples followed by the samples still
pending are the samples that were pending followed by the new one, and nothing is pending after the final sample. Every
repeat token has at least 2 samples, and so has every literal token but a lone one that ends the frame. -/
def Obligations.EncSampleAccountsForEverySample : Prop :=
  ∀ (v : Byte) (s : State), s.enc.phase = .run → s.enc.RunInv → s.sinkTakesAll →
    ∃ (t : State) (ts : List Token), exec (.encSample v) s = .next t ∧
      t.bsw.out = s.bsw.out ++ tokensBytes ts ∧
      tokensSamples ts ++ t.enc.pending = s.enc.pending ++ [v] ∧
      (s.enc.pos + 1 = s.enc.height.toNat * s.enc.width.toNat → t.enc.pending = []) ∧
      ∀ k ∈ ts, k.Legal ∧ (2 ≤ k.samples.length ∨
        (k = .lit 1 [v] ∧ ts.getLast? = some k ∧ s.enc.pos + 1 = s.enc.height.toNat * s.enc.width.toNat))

/-- R171: if the sink refuses the byte after the first `k` of those that `ENC.SAMPLE` writes to a willing sink, exactly
those `k` are in the sink, the encoder is in phase `Fault` with `SinkFailure`, and every later `ENC` operation is refused. -/
def Obligations.SinkFailureEndsEncoding : Prop :=
  ∀ (v : Byte) (s t0 : State) (k : Nat) (rest : List Bool), s.enc.phase = .run →
    exec (.encSample v) { s with sinkAnswers := [] } = .next t0 →
    s.sinkAnswers = List.replicate k true ++ false :: rest → s.bsw.out.length + k < t0.bsw.out.length →
    ∃ t, exec (.encSample v) s = .next t ∧ t.bsw.out = t0.bsw.out.take (s.bsw.out.length + k) ∧
      t.enc.phase = .fault ∧ t.enc.fault = .sinkFailure (s.bsw.out.length + k) ∧ t.decodeSide = s.decodeSide ∧
      (∀ x, exec (.encSample x) t = .refused (.pathFaulted .encode)) ∧
      ∀ h w, exec (.encStart h w) t = .refused (.pathFaulted .encode)

/-- R173, R176 (first half): `ENC.START` and `k * N` samples write the header followed, frame by frame, by legal tokens
whose samples are the samples of the frame: the stream is well-formed (R111) and no token crosses a frame boundary. -/
def Obligations.EncodedFramesFormAStream : Prop :=
  ∀ (h w : Half) (frames : List (List Byte)) (s : State), h ≠ 0 → w ≠ 0 →
    (∀ f ∈ frames, f.length = h.toNat * w.toNat) → s.enc.phase = .idle → s.sinkTakesAll →
    ∃ (t : State) (groups : List (List Token)),
      runOps (.encStart h w :: frames.flatten.map .encSample) s = .next t ∧ t.enc.phase = .run ∧ t.enc.pos = 0 ∧
      t.enc.pending = [] ∧
      t.bsw.out = s.bsw.out ++ (headerBytes h w ++ groups.flatMap tokensBytes) ∧
      groups.map tokensSamples = frames ∧ ∀ g ∈ groups, ∀ k ∈ g, k.Legal

/-- R176: the round trip. For every dimensions and every sequence of frames, what the encoder writes to a willing sink is a
well-formed stream (R111: a legal header, then whole legal tokens in groups that hold the samples of one frame each), and
loaded and decoded by `DEC.RUN` it ends in phase `Done` with exactly those frames, as grey pixels, added to the Frame Sink. -/
def Obligations.RoundTrip : Prop :=
  ∀ (h w : Half) (frames : List (List Byte)) (s : State), h ≠ 0 → w ≠ 0 →
    (∀ f ∈ frames, f.length = h.toNat * w.toNat) → s.Inv → s.enc.phase = .idle → s.bsw.out = [] → s.sinkTakesAll →
    s.dec.phase = .idle → s.fb.constructed = false →
    ∃ (t u : State) (groups : List (List Token)),
      runOps (.encStart h w :: frames.flatten.map .encSample) s = .next t ∧
      t.bsw.out = headerBytes h w ++ groups.flatMap tokensBytes ∧ (∀ g ∈ groups, ∀ k ∈ g, k.Legal) ∧
      groups.map tokensSamples = frames ∧
      runOps [.bsrLoad t.bsw.out, .decRun] t = .next u ∧
      u.dec.phase = .done ∧ u.dec.fault = .noFault ∧ u.bsr.atEnd = true ∧
      u.frames = s.frames ++ frames.map (greyFrame h w)

/-! ## Token Decoder -/

/-- R190: `DEC.START` in phase `Idle`, with a buffer loaded and the cursor at 0, reads height and width and constructs the
Frame Buffer; too few bytes raise `TruncatedStream` at the field that is cut short, a zero dimension raises `InvalidHeader`
after both fields have been read. With no buffer, at another cursor (the words beside the rule's `require`, read as a part of
it: log 12) and in phase `Run` or `Done` it is refused; on legal dimensions and a Frame Buffer that the host has constructed
itself it is refused because `FB.CONSTRUCT` is (log 16). -/
def Obligations.DecStartResult : Prop :=
  ∀ s : State,
    (∀ (b0 b1 b2 b3 : Byte) (rest : List Byte), s.dec.phase = .idle → s.bsr.attached = true → s.bsr.cur = 0 →
      s.bytesAtCursor = b0 :: b1 :: b2 :: b3 :: rest →
      (bigEndian b0 b1 ≠ 0 → bigEndian b2 b3 ≠ 0 → s.fb.constructed = false →
        exec .decStart s =
          .next { s with
            bsr := { s.bsr with cur := 4 }
            fb := { constructed := true, height := bigEndian b0 b1, width := bigEndian b2 b3, fcur := 0, pix := [] }
            dec := { s.dec with dmode := .readCount, remaining := 0, phase := .run, frameBegun := false }
            result := .noValue }) ∧
      (bigEndian b0 b1 ≠ 0 → bigEndian b2 b3 ≠ 0 → s.fb.constructed = true →
        exec .decStart s = .refused .fbAlreadyConstructed) ∧
      (bigEndian b0 b1 = 0 ∨ bigEndian b2 b3 = 0 →
        ∃ t, exec .decStart s = .next t ∧ t.dec.phase = .fault ∧
          t.dec.fault = .invalidHeader (bigEndian b0 b1) (bigEndian b2 b3) ∧
          t.bsr = { s.bsr with cur := 4 } ∧ t.fb = s.fb ∧ t.frames = s.frames ∧ t.encodeSide = s.encodeSide)) ∧
    (s.dec.phase = .idle → s.bsr.attached = true → s.bsr.cur = 0 → s.bytesAtCursor.length < 2 →
      ∃ t, exec .decStart s = .next t ∧ t.dec.phase = .fault ∧ t.dec.fault = .truncatedStream 0 ∧
        t.bsr = s.bsr ∧ t.fb = s.fb ∧ t.frames = s.frames ∧ t.encodeSide = s.encodeSide) ∧
    (s.dec.phase = .idle → s.bsr.attached = true → s.bsr.cur = 0 → 2 ≤ s.bytesAtCursor.length →
      s.bytesAtCursor.length < 4 →
      ∃ t, exec .decStart s = .next t ∧ t.dec.phase = .fault ∧ t.dec.fault = .truncatedStream 2 ∧
        t.bsr = { s.bsr with cur := 2 } ∧ t.fb = s.fb ∧ t.frames = s.frames ∧ t.encodeSide = s.encodeSide) ∧
    (s.dec.phase = .idle → s.bsr.attached = false → exec .decStart s = .refused .noBuffer) ∧
    (s.dec.phase = .idle → s.bsr.attached = true → s.bsr.cur ≠ 0 → exec .decStart s = .refused .cursorNotAtStart) ∧
    (s.dec.phase = .run ∨ s.dec.phase = .done → exec .decStart s = .refused .wrongPhase)

/-- R192: the `ReadCount` step. A literal count is taken as `remaining`; a repeat count less 0x8000 is, with the byte after
it as `pixel`; a reserved count raises `ReservedCount` before anything else is read; a cut field raises `TruncatedStream`. -/
def Obligations.DecStepReadCount : Prop :=
  ∀ s : State, s.dec.phase = .run → s.fb.constructed = true →
    s.fb.fcur ≠ s.fb.height.toNat * s.fb.width.toNat → s.dec.dmode = .readCount →
    (∀ (b0 b1 : Byte) (rest : List Byte), s.bytesAtCursor = b0 :: b1 :: rest →
      (1 ≤ (bigEndian b0 b1).toNat → (bigEndian b0 b1).toNat < 0x8000 →
        exec .decStep s =
          .next { s with
            bsr := { s.bsr with cur := s.bsr.cur + 2 }
            dec := { s.dec with dmode := .literal, remaining := (bigEndian b0 b1).toNat, frameBegun := true }
            result := .noValue }) ∧
      (∀ (v : Byte) (rest' : List Byte), rest = v :: rest' → 0x8001 ≤ (bigEndian b0 b1).toNat →
        exec .decStep s =
          .next { s with
            bsr := { s.bsr with cur := s.bsr.cur + 3 }
            dec := { s.dec with
              dmode := .repeating
              remaining := (bigEndian b0 b1).toNat - 0x8000
              pixel := v
              frameBegun := true }
            result := .noValue }) ∧
      (rest = [] → 0x8001 ≤ (bigEndian b0 b1).toNat →
        ∃ t, exec .decStep s = .next t ∧ t.dec.phase = .fault ∧ t.dec.fault = .truncatedStream (s.bsr.cur + 2) ∧
          t.bsr = { s.bsr with cur := s.bsr.cur + 2 } ∧ t.fb = s.fb ∧ t.frames = s.frames ∧
          t.encodeSide = s.encodeSide) ∧
      (bigEndian b0 b1 = 0x0000#16 ∨ bigEndian b0 b1 = 0x8000#16 →
        ∃ t, exec .decStep s = .next t ∧ t.dec.phase = .fault ∧ t.dec.fault = .reservedCount (bigEndian b0 b1) ∧
          t.bsr = { s.bsr with cur := s.bsr.cur + 2 } ∧ t.fb = s.fb ∧ t.frames = s.frames ∧
          t.encodeSide = s.encodeSide)) ∧
    (s.bytesAtCursor.length < 2 →
      ∃ t, exec .decStep s = .next t ∧ t.dec.phase = .fault ∧ t.dec.fault = .truncatedStream s.bsr.cur ∧
        t.bsr = s.bsr ∧ t.fb = s.fb ∧ t.frames = s.frames ∧ t.encodeSide = s.encodeSide)

/-- R193: the `Literal` step reads one byte, inserts it as a grey pixel and counts down, returning to `ReadCount` at the end
of the token; with no byte left it raises `TruncatedStream` and inserts nothing. -/
def Obligations.DecStepLiteral : Prop :=
  ∀ s : State, s.dec.phase = .run → s.fb.constructed = true → s.fb.Inv →
    s.fb.fcur ≠ s.fb.height.toNat * s.fb.width.toNat → s.dec.dmode = .literal → 1 ≤ s.dec.remaining →
    (∀ (v : Byte) (rest : List Byte), s.bytesAtCursor = v :: rest →
      exec .decStep s =
        .next { s with
          bsr := { s.bsr with cur := s.bsr.cur + 1 }
          fb := { s.fb with fcur := s.fb.fcur + 1, pix := s.fb.pix ++ [⟨v, v, v⟩] }
          dec := { s.dec with
            remaining := s.dec.remaining - 1
            dmode := if s.dec.remaining = 1 then .readCount else .literal }
          result := .noValue }) ∧
    (s.bytesAtCursor = [] →
      ∃ t, exec .decStep s = .next t ∧ t.dec.phase = .fault ∧ t.dec.fault = .truncatedStream s.bsr.cur ∧
        t.bsr = s.bsr ∧ t.fb = s.fb ∧ t.frames = s.frames ∧ t.encodeSide = s.encodeSide)

/-- R194: the `Repeat` step inserts the stored pixel and counts down, returning to `ReadCount` at the end of the token; it
reads no byte. -/
def Obligations.DecStepRepeat : Prop :=
  ∀ s : State, s.dec.phase = .run → s.fb.constructed = true → s.fb.Inv →
    s.fb.fcur ≠ s.fb.height.toNat * s.fb.width.toNat → s.dec.dmode = .repeating → 1 ≤ s.dec.remaining →
    exec .decStep s =
      .next { s with
        fb := { s.fb with fcur := s.fb.fcur + 1, pix := s.fb.pix ++ [⟨s.dec.pixel, s.dec.pixel, s.dec.pixel⟩] }
        dec := { s.dec with
          remaining := s.dec.remaining - 1
          dmode := if s.dec.remaining = 1 then .readCount else .repeating }
        result := .noValue }

/-- R231: `DEC.FRAME` at the end of the stream and at a frame boundary ends the run normally: phase `Done`, no frame, no fault,
nothing else changed. Inside a frame, at the end of the stream or not, it is refused. A frame boundary is where the Frame Buffer
is full, its frame ended (R202), or empty with no token of the frame begun, whatever an earlier frame left in `dmode` and
`remaining` (R262): the model's reading of the words beside the `require` of R195 (log 13). -/
def Obligations.DecFrameAtEnd : Prop :=
  ∀ s : State, s.dec.phase = .run →
    (s.fb.fcur = s.fb.height.toNat * s.fb.width.toNat ∨ (s.fb.fcur = 0 ∧ s.dec.frameBegun = false) →
      s.bsr.cur = s.bsr.len →
      exec .decFrame s = .next { s with dec := { s.dec with phase := .done }, result := .frame none }) ∧
    (s.fb.fcur ≠ s.fb.height.toNat * s.fb.width.toNat → s.fb.fcur ≠ 0 ∨ s.dec.frameBegun = true →
      exec .decFrame s = .refused .insideFrame)

/-- R195, R205: `DEC.FRAME` on the bytes of legal tokens whose samples fill the frame exactly hands over the frame of those
samples, returns it, and stops at the byte after the last token, again at a frame boundary (log 13); the stream left to read is
the rest. -/
def Obligations.DecFrameDecodesTokens : Prop :=
  ∀ (ts : List Token) (rest : List Byte) (s : State), s.Inv → s.dec.phase = .run →
    s.atFrameBoundary = true → (∀ k ∈ ts, k.Legal) → (tokensSamples ts).length = s.fb.height.toNat * s.fb.width.toNat →
    s.bytesAtCursor = tokensBytes ts ++ rest →
    ∃ t, exec .decFrame s = .next t ∧
      t.result = .frame (some (greyFrame s.fb.height s.fb.width (tokensSamples ts))) ∧
      t.frames = s.frames ++ [greyFrame s.fb.height s.fb.width (tokensSamples ts)] ∧
      t.bytesAtCursor = rest ∧ t.bsr.cur = s.bsr.cur + (tokensBytes ts).length ∧ t.bsr.buf = s.bsr.buf ∧
      t.dec.phase = .run ∧ t.dec.dmode = .readCount ∧ t.dec.remaining = 0 ∧ t.atFrameBoundary = true ∧
      t.encodeSide = s.encodeSide

/-- R195, R229 (d): a `DEC.FRAME` at a frame boundary (log 13) that is not at the end of the stream either hands over exactly
one whole frame, having consumed at least 3 bytes, and stands at a frame boundary again, or faults and hands over none; there is
no third outcome. -/
def Obligations.DecFrameOutcome : Prop :=
  ∀ s : State, s.Inv → s.dec.phase = .run → s.atFrameBoundary = true → s.bsr.cur ≠ s.bsr.len →
    ∃ t, exec .decFrame s = .next t ∧
      ((t.dec.phase = .run ∧ s.bsr.cur + 3 ≤ t.bsr.cur ∧ t.atFrameBoundary = true ∧
          ∃ f, t.result = .frame (some f) ∧ t.frames = s.frames ++ [f] ∧ f.Whole ∧
            f.height = s.fb.height ∧ f.width = s.fb.width) ∨
        (t.dec.phase = .fault ∧ t.frames = s.frames ∧ t.result = .noValue ∧
          s.bsr.cur ≤ t.bsr.cur ∧
          (t.dec.fault = .truncatedStream t.bsr.cur ∨ ∃ raw, t.dec.fault = .reservedCount raw)))

/-- R204, R262: frames are independent. What `DEC.FRAME` does at a frame boundary (log 13) does not depend on what the previous
frame left in `dmode`, `remaining`, `pixel`, `fcur` or the pixels: a full buffer or an empty one, with any token left open. And
an `FB.RESTART` first, at the boundary, changes nothing of it. -/
def Obligations.FramesAreIndependent : Prop :=
  ∀ (s : State) (m : DecMode) (r : Nat) (p : Byte) (b : Bool) (c : Nat) (pix : List Pixel), s.dec.phase = .run →
    s.fb.constructed = true → s.bsr.cur ≠ s.bsr.len → s.atFrameBoundary = true →
    (c = s.fb.height.toNat * s.fb.width.toNat ∨ (c = 0 ∧ b = false)) →
    exec .decFrame { s with
      dec := { s.dec with dmode := m, remaining := r, pixel := p, frameBegun := b }
      fb := { s.fb with fcur := c, pix := pix } } = exec .decFrame s ∧
    ∃ t, exec .fbRestart s = .next t ∧ exec .decFrame t = exec .decFrame s

/-- R205: on a well-formed stream (R111: a legal header, then legal tokens in groups of exactly `N` samples, and nothing
more), loaded with the cursor at 0 (R190, log 12), `DEC.RUN` raises no fault, ends in phase `Done` at the end of the buffer, and
hands over one frame per group, holding the samples of its tokens in order. -/
def Obligations.DecRunOnWellFormedStream : Prop :=
  ∀ (h w : Half) (groups : List (List Token)) (s : State), h ≠ 0 → w ≠ 0 → (∀ g ∈ groups, ∀ k ∈ g, k.Legal) →
    (∀ g ∈ groups, (tokensSamples g).length = h.toNat * w.toNat) →
    s.Inv → s.dec.phase = .idle → s.fb.constructed = false → s.bsr.attached = true → s.bsr.cur = 0 →
    s.bytesAtCursor = headerBytes h w ++ groups.flatMap tokensBytes →
    ∃ t, exec .decRun s = .next t ∧ t.dec.phase = .done ∧ t.dec.fault = .noFault ∧ t.bsr.cur = t.bsr.len ∧
      t.bsr.buf = s.bsr.buf ∧ t.fb.height = h ∧ t.fb.width = w ∧
      t.frames = s.frames ++ groups.map (fun g => greyFrame h w (tokensSamples g)) ∧ t.encodeSide = s.encodeSide

/-- R196, R222: from power-on state of the decoder, on any bytes whatever, loaded with the cursor at 0 (R190, log 12),
`DEC.RUN` ends: either in phase `Done` at the end of the buffer with at most `(LEN - 4) / 3` frames, or in phase `Fault` with
`TruncatedStream`, `InvalidHeader` or `ReservedCount`; `BufferOverflow` never occurs. The frames handed over before stay and
every frame is whole. -/
def Obligations.DecRunAlwaysEnds : Prop :=
  ∀ s : State, s.Inv → s.dec.phase = .idle → s.fb.constructed = false → s.bsr.attached = true → s.bsr.cur = 0 →
    ∃ t, exec .decRun s = .next t ∧ s.frames <+: t.frames ∧ (∀ f ∈ t.frames, f.Whole) ∧
      ((t.dec.phase = .done ∧ t.dec.fault = .noFault ∧ t.bsr.cur = t.bsr.len ∧
          3 * t.frames.length + 4 ≤ 3 * s.frames.length + s.bsr.len) ∨
        (t.dec.phase = .fault ∧
          (t.dec.fault = .truncatedStream t.bsr.cur ∨ (∃ h w, t.dec.fault = .invalidHeader h w) ∨
            ∃ raw, t.dec.fault = .reservedCount raw)))

/-- R203: a header at address 0 (R190, log 12) followed by a count field but no payload byte raises `TruncatedStream` at the
byte after the count field and hands over no frame, for a literal and for a repeat count. -/
def Obligations.CountWithoutPayloadTruncates : Prop :=
  ∀ (h w : Half) (kind : Bool) (n : Len) (s : State), h ≠ 0 → w ≠ 0 → n ≠ 0 → s.Inv → s.dec.phase = .idle →
    s.fb.constructed = false → s.bsr.attached = true → s.bsr.cur = 0 →
    s.bytesAtCursor = headerBytes h w ++ halfBytes (countField kind n) →
    ∃ t, exec .decRun s = .next t ∧ t.dec.phase = .fault ∧ t.dec.fault = .truncatedStream 6 ∧ t.bsr.cur = 6 ∧ t.frames = s.frames

/-! ## The stream elements -/

/-- R197: `HDR h w`, executed at `cur == 0` of a loaded buffer, constructs the Frame Buffer, moves the cursor to 4 and puts the
decoder in phase `Run`; with a zero dimension it raises `InvalidHeader`, the cursor past the header. With no buffer and at
another cursor it is refused as `DEC.START` is (log 12), and so it is with legal dimensions on a Frame Buffer that the host has
constructed itself (log 16). -/
def Obligations.HeaderElementResult : Prop :=
  ∀ (h w : Half) (s : State), s.dec.phase = .idle →
    (s.bsr.attached = true → s.bsr.cur = 0 →
      (h ≠ 0 → w ≠ 0 → s.fb.constructed = false →
        exec (.hdr h w) s =
          .next { s with
            bsr := { s.bsr with cur := 4 }
            fb := { constructed := true, height := h, width := w, fcur := 0, pix := [] }
            dec := { s.dec with dmode := .readCount, remaining := 0, phase := .run, frameBegun := false }
            result := .noValue }) ∧
      (h ≠ 0 → w ≠ 0 → s.fb.constructed = true → exec (.hdr h w) s = .refused .fbAlreadyConstructed) ∧
      (h = 0 ∨ w = 0 →
        ∃ t, exec (.hdr h w) s = .next t ∧ t.dec.phase = .fault ∧ t.dec.fault = .invalidHeader h w ∧
          t.bsr = { s.bsr with cur := 4 } ∧ t.fb = s.fb ∧ t.frames = s.frames ∧ t.encodeSide = s.encodeSide)) ∧
    (s.bsr.attached = false → exec (.hdr h w) s = .refused .noBuffer) ∧
    (s.bsr.attached = true → s.bsr.cur ≠ 0 → exec (.hdr h w) s = .refused .cursorNotAtStart)

/-- R198: `LIT n [b0, ...]` met at raster position `f` of a frame of `N` pixels places `m = min(n, N - f)` samples and moves
the cursor past `2 + m` bytes; if the buffer ends before the `m`-th payload byte it raises `TruncatedStream` and the samples
read so far stay in the Frame Buffer. -/
def Obligations.LiteralElementResult : Prop :=
  ∀ (n : Len) (p : List Byte) (s : State), s.dec.phase = .run → s.fb.constructed = true → s.fb.Inv →
    s.fb.fcur ≠ s.fb.height.toNat * s.fb.width.toNat → s.dec.dmode = .readCount → n ≠ 0 →
    ∀ m, m = min n.toNat (s.fb.height.toNat * s.fb.width.toNat - s.fb.fcur) →
    (m ≤ p.length →
      exec (.lit n p) s =
        .next { s with
          bsr := { s.bsr with cur := s.bsr.cur + (2 + m) }
          fb := { s.fb with fcur := s.fb.fcur + m, pix := s.fb.pix ++ (p.take m).map (fun b => ⟨b, b, b⟩) }
          dec := { s.dec with
            remaining := n.toNat - m
            dmode := if m = n.toNat then .readCount else .literal
            frameBegun := true }
          result := .noValue }) ∧
    (p.length < m →
      ∃ t, exec (.lit n p) s = .next t ∧ t.dec.phase = .fault ∧
        t.dec.fault = .truncatedStream (s.bsr.cur + (2 + p.length)) ∧
        t.bsr = { s.bsr with cur := s.bsr.cur + (2 + p.length) } ∧
        t.fb = { s.fb with fcur := s.fb.fcur + p.length, pix := s.fb.pix ++ p.map (fun b => ⟨b, b, b⟩) } ∧
        t.frames = s.frames ∧ t.encodeSide = s.encodeSide)

/-- R199: `RPT n v` met at raster position `f` places `m = min(n, N - f)` pixels `(v, v, v)` and moves the cursor past 3 bytes,
whatever `m` is; the rest of the run is dropped when the frame fills. -/
def Obligations.RepeatElementResult : Prop :=
  ∀ (n : Len) (v : Byte) (s : State), s.dec.phase = .run → s.fb.constructed = true → s.fb.Inv →
    s.fb.fcur ≠ s.fb.height.toNat * s.fb.width.toNat → s.dec.dmode = .readCount → n ≠ 0 →
    ∀ m, m = min n.toNat (s.fb.height.toNat * s.fb.width.toNat - s.fb.fcur) →
    exec (.rpt n v) s =
      .next { s with
        bsr := { s.bsr with cur := s.bsr.cur + 3 }
        fb := { s.fb with fcur := s.fb.fcur + m, pix := s.fb.pix ++ List.replicate m ⟨v, v, v⟩ }
        dec := { s.dec with
          remaining := n.toNat - m
          pixel := v
          dmode := if m = n.toNat then .readCount else .repeating
          frameBegun := true }
        result := .noValue }

/-- R200 (the spec's own decision D10; the source gives no behaviour here): a reserved count field raises `ReservedCount`
carrying the raw value, with the cursor past its 2 bytes; the path is in phase `Fault` (R226), nothing is inserted and no frame
is handed over. -/
def Obligations.ReservedElementResult : Prop :=
  ∀ (kind : Bool) (s : State), s.dec.phase = .run → s.fb.constructed = true →
    s.fb.fcur ≠ s.fb.height.toNat * s.fb.width.toNat → s.dec.dmode = .readCount →
    ∃ t, exec (.rsv kind) s = .next t ∧ t.dec.phase = .fault ∧
      t.dec.fault = .reservedCount (if kind then 0x8000#16 else 0x0000#16) ∧
      t.bsr = { s.bsr with cur := s.bsr.cur + 2 } ∧ t.fb = s.fb ∧ t.frames = s.frames ∧ t.result = .noValue ∧
      t.requests = s.requests ∧ t.encodeSide = s.encodeSide

/-- R198, R199: executing the token that stands at the cursor is one `ReadCount` step and `m = min(n, N - f)` steps of its
kind, performed one by one. -/
def Obligations.ElementIsItsSteps : Prop :=
  ∀ (s : State) (i : Instr) (rest : List Byte) (m : Nat), s.Inv → s.dec.phase = .run →
    s.fb.fcur ≠ s.fb.height.toNat * s.fb.width.toNat → s.dec.dmode = .readCount →
    decode .token s.bytesAtCursor = .element i rest →
    ((∃ n p, i = .lit n p ∧ m = min n.toNat (s.fb.height.toNat * s.fb.width.toNat - s.fb.fcur) ∧ m ≤ p.length) ∨
      ∃ n v, i = .rpt n v ∧ m = min n.toNat (s.fb.height.toNat * s.fb.width.toNat - s.fb.fcur)) →
    exec i s = runOps (List.replicate (1 + m) .decStep) s

/-- R190, R197: executing the header element at the cursor is `DEC.START`, on any bytes: whole, cut short or with a zero
dimension, and refused where `DEC.START` is. -/
def Obligations.HeaderElementIsDecStart : Prop :=
  ∀ s : State, s.dec.phase = .idle → stepElement s = exec .decStart s

/-- A step that the host asks to execute an element fetches the bytes at the cursor, as a header in phase `Idle` and as a
token at the start of a token in phase `Run`, and is `exec` of the instruction that they decode to, with the request taken
from the queue. -/
def Obligations.StepRunsFetchedElement : Prop :=
  ∀ (s : State) (queue : List Request) (i : Instr) (rest : List Byte), s.requests = .element :: queue →
    (s.dec.phase = .idle → decode .header s.bytesAtCursor = .element i rest →
      step s = exec i { s with requests := queue }) ∧
    (s.dec.phase = .run → s.fb.constructed = true → s.fb.fcur ≠ s.fb.height.toNat * s.fb.width.toNat →
      s.dec.dmode = .readCount → decode .token s.bytesAtCursor = .element i rest →
      step s = exec i { s with requests := queue })

/-- A token that cannot be decoded because the bytes end inside its count field or before its value raises `TruncatedStream`
at the field that is cut short, with the fields before it read (R221, R227). -/
def Obligations.StepOnCutToken : Prop :=
  ∀ (s : State) (queue : List Request) (why : Reject), s.requests = .element :: queue → s.dec.phase = .run →
    s.fb.constructed = true → s.fb.fcur ≠ s.fb.height.toNat * s.fb.width.toNat → s.dec.dmode = .readCount →
    decode .token s.bytesAtCursor = .rejected why →
    ∃ t, step s = .next t ∧ t.dec.phase = .fault ∧ t.dec.fault = .truncatedStream t.bsr.cur ∧
      (why = .truncatedCount ∧ t.bsr = s.bsr ∨
        why = .truncatedValue ∧ t.bsr = { s.bsr with cur := s.bsr.cur + 2 }) ∧
      t.fb = s.fb ∧ t.frames = s.frames ∧ t.requests = queue ∧ t.encodeSide = s.encodeSide

/-- A step performs the oldest request of the host: a port operation is `exec` of it, a stream element is no port operation
(R114), a reset resets, and with no request pending the core does nothing (R260). -/
def Obligations.StepPerformsOldestRequest : Prop :=
  ∀ s : State,
    (s.requests = [] → step s = .next s) ∧
    (∀ i queue, s.requests = .op i :: queue →
      (i.isElement = false → step s = exec i { s with requests := queue }) ∧
      (i.isElement = true → step s = .refused .notAPortOperation)) ∧
    ∀ scope queue, s.requests = .reset scope :: queue → step s = .next (resetScope scope { s with requests := queue })

/-! ## The whole machine -/

/-- The machine's invariant holds after reset. -/
def Obligations.ResetMeetsInvariant : Prop := State.reset.Inv

/-- Every step keeps the machine's invariant: the buffer canonical and the cursor inside it (R21 to R23), the Frame Buffer
filled in raster order with grey pixels (R29, R30), the encoder's representation invariant (R39), the decoder's ranges (R40,
R41), fault registers in agreement with the phases (R45), only whole frames in the Frame Sink (R153). -/
def Obligations.StepKeepsInvariant : Prop :=
  ∀ s t : State, s.Inv → step s = .next t → t.Inv

/-- R50, R260: the state after reset, at every value that the spec gives. -/
def Obligations.ResetStateValues : Prop :=
  State.reset.bsr.attached = false ∧ State.reset.bsr.len = 0 ∧ State.reset.bsr.cur = 0 ∧
  State.reset.bsw.out = [] ∧
  State.reset.fb.constructed = false ∧ State.reset.fb.fcur = 0 ∧ State.reset.fb.pix = [] ∧
  State.reset.enc.pos = 0 ∧ State.reset.enc.mode = .chooseMode ∧ State.reset.enc.count = -1 ∧
  State.reset.enc.lastValid = false ∧ State.reset.enc.buf = [] ∧ State.reset.enc.phase = .idle ∧
  State.reset.enc.fault.code = 0 ∧ State.reset.dec.dmode = .readCount ∧ State.reset.dec.remaining = 0 ∧
  State.reset.dec.phase = .idle ∧ State.reset.dec.fault.code = 0 ∧ State.reset.frames = []

/-- R260: a reset of one path puts every register of that path at its power-on value, from any state, faulted or not, and
leaves the other path alone; a reset of the core resets both. -/
def Obligations.ResetRestoresPath : Prop :=
  ∀ s : State,
    ((resetScope (.path .encode) s).enc = State.reset.enc ∧ (resetScope (.path .encode) s).bsw = State.reset.bsw ∧
      (resetScope (.path .encode) s).decodeSide = s.decodeSide) ∧
    ((resetScope (.path .decode) s).bsr = State.reset.bsr ∧ (resetScope (.path .decode) s).fb = State.reset.fb ∧
      (resetScope (.path .decode) s).dec = State.reset.dec ∧ (resetScope (.path .decode) s).frames = [] ∧
      (resetScope (.path .decode) s).encodeSide = s.encodeSide) ∧
    ((resetScope .core s).enc = State.reset.enc ∧ (resetScope .core s).bsw = State.reset.bsw ∧
      (resetScope .core s).bsr = State.reset.bsr ∧ (resetScope .core s).fb = State.reset.fb ∧
      (resetScope .core s).dec = State.reset.dec ∧ (resetScope .core s).frames = [])

/-- R3, R86: the two paths share no state. An operation of the encode path changes nothing of the decode path, an operation
of the decode path nothing of the encode path, and neither touches the host's requests. -/
def Obligations.PathsShareNothing : Prop :=
  ∀ (i : Instr) (s t : State), exec i s = .next t →
    (i.path = .encode → t.decodeSide = s.decodeSide) ∧ (i.path = .decode → t.encodeSide = s.encodeSide) ∧
    t.requests = s.requests

/-- R86: operations of the two paths "may run in any interleaving without affecting each other": if an encode operation and
then a decode operation complete, so do they in the other order, each with the same result, and the state is the same, up to
the result register, which holds the result of the last. -/
def Obligations.PathsCommute : Prop :=
  ∀ (i j : Instr) (s t u : State), i.path = .encode → j.path = .decode → exec i s = .next t → exec j t = .next u →
    ∃ t' u', exec j s = .next t' ∧ exec i t' = .next u' ∧
      u'.encodeSide = u.encodeSide ∧ u'.decodeSide = u.decodeSide ∧ u'.requests = u.requests ∧
      t'.result = u.result ∧ u'.result = t.result

/-- R226: every later operation of a path in phase `Fault` is refused. -/
def Obligations.FaultedPathRefuses : Prop :=
  ∀ (i : Instr) (s : State),
    (i.path = .encode → s.enc.phase = .fault → exec i s = .refused (.pathFaulted .encode)) ∧
    (i.path = .decode → s.dec.phase = .fault → exec i s = .refused (.pathFaulted .decode))

/-- R226: nothing but reset leaves phase `Fault` or clears `fault`: over any step that is not a reset of that path, a faulted
path keeps its phase and its fault register. -/
def Obligations.OnlyResetLeavesFault : Prop :=
  ∀ s t : State, step s = .next t →
    (s.enc.phase = .fault → (∀ r queue, s.requests = .reset r :: queue → r = .path .decode) →
      t.enc.phase = .fault ∧ t.enc.fault = s.enc.fault) ∧
    (s.dec.phase = .fault → (∀ r queue, s.requests = .reset r :: queue → r = .path .encode) →
      t.dec.phase = .fault ∧ t.dec.fault = s.dec.fault)

/-- R21, R23: no operation but `BSR.LOAD` writes the input buffer, byte by byte, or its length, or attaches or detaches it, and
the cursor never moves backwards and never leaves the buffer. -/
def Obligations.BufferImmutableCursorAdvances : Prop :=
  ∀ (i : Instr) (s t : State), exec i s = .next t → i.isElement = false → (∀ bytes, i ≠ .bsrLoad bytes) →
    (∀ a, Memory.read t.bsr.buf a = Memory.read s.bsr.buf a) ∧ t.bsr.len = s.bsr.len ∧
    t.bsr.attached = s.bsr.attached ∧ s.bsr.cur ≤ t.bsr.cur ∧
    (s.bsr.cur ≤ s.bsr.len → t.bsr.cur ≤ t.bsr.len)

/-- R25: the output sink is append-only: every operation keeps the bytes already in it, in order, and no operation of the
decode path adds any. -/
def Obligations.OutputIsAppendOnly : Prop :=
  ∀ (i : Instr) (s t : State), exec i s = .next t →
    s.bsw.out <+: t.bsw.out ∧ (i.path = .decode → t.bsw = s.bsw)

/-- R47: frames are only added to the Frame Sink, and only by `FB.EMIT`, `DEC.FRAME` and `DEC.RUN`. -/
def Obligations.FramesAreAppendOnly : Prop :=
  ∀ (i : Instr) (s t : State), exec i s = .next t →
    s.frames <+: t.frames ∧ (i ≠ .fbEmit → i ≠ .decFrame → i ≠ .decRun → t.frames = s.frames)

/-- R27, R32: dimensions are immutable. A constructed Frame Buffer keeps its dimensions over every operation, and an encoder
that is not in phase `Idle` keeps its own. -/
def Obligations.DimensionsAreImmutable : Prop :=
  ∀ (i : Instr) (s t : State), exec i s = .next t →
    (s.fb.constructed = true →
      t.fb.constructed = true ∧ t.fb.height = s.fb.height ∧ t.fb.width = s.fb.width) ∧
    (s.enc.phase ≠ .idle → t.enc.height = s.enc.height ∧ t.enc.width = s.enc.width)

/-- R12: an operation requested in the wrong phase is refused; so are `DEC.STEP` and the token elements on a full Frame Buffer
(R191), and a token element inside an open token (log 18), whether performed or met at the cursor. -/
def Obligations.WrongPhaseRefused : Prop :=
  ∀ (s : State) (v : Byte) (h w : Half) (n : Len) (p : List Byte) (k : Bool),
    (s.enc.phase = .idle → exec (.encSample v) s = .refused .wrongPhase) ∧
    (s.enc.phase = .run → exec (.encStart h w) s = .refused .wrongPhase) ∧
    (s.dec.phase = .run ∨ s.dec.phase = .done →
      exec .decStart s = .refused .wrongPhase ∧ exec .decRun s = .refused .wrongPhase ∧
      exec (.hdr h w) s = .refused .wrongPhase) ∧
    (s.dec.phase = .idle ∨ s.dec.phase = .done →
      exec .decStep s = .refused .wrongPhase ∧ exec .decFrame s = .refused .wrongPhase ∧
      exec (.lit n p) s = .refused .wrongPhase ∧ exec (.rpt n v) s = .refused .wrongPhase ∧
      exec (.rsv k) s = .refused .wrongPhase) ∧
    (s.dec.phase = .run → s.fb.constructed = true → s.fb.fcur = s.fb.height.toNat * s.fb.width.toNat →
      exec .decStep s = .refused .fbFull ∧ exec (.lit n p) s = .refused .fbFull ∧
      exec (.rpt n v) s = .refused .fbFull ∧ exec (.rsv k) s = .refused .fbFull ∧ stepElement s = .refused .fbFull) ∧
    (s.dec.phase = .run → s.fb.constructed = true → s.fb.fcur ≠ s.fb.height.toNat * s.fb.width.toNat →
      s.dec.dmode ≠ .readCount →
      exec (.lit n p) s = .refused .insideToken ∧ exec (.rpt n v) s = .refused .insideToken ∧
      exec (.rsv k) s = .refused .insideToken ∧ stepElement s = .refused .insideToken)
end

