-- ==== Sys2Proof/Laws/State.lean ====
section
/-! SUPPORT. One lemma per named update of State: every field after it, true by rfl. -/

namespace Sys2Proof.Machine

@[simp] theorem State.setBsr_fields (s : State) (x : Bsr) :
    (s.setBsr x).bsr = x ∧ (s.setBsr x).bsw = s.bsw ∧ (s.setBsr x).fb = s.fb ∧ (s.setBsr x).enc = s.enc ∧
    (s.setBsr x).dec = s.dec ∧ (s.setBsr x).frames = s.frames ∧ (s.setBsr x).sinkAnswers = s.sinkAnswers ∧
    (s.setBsr x).requests = s.requests ∧ (s.setBsr x).result = s.result ∧ (s.setBsr x).encFree = s.encFree ∧
    (s.setBsr x).decFree = s.decFree := ⟨rfl, rfl, rfl, rfl, rfl, rfl, rfl, rfl, rfl, rfl, rfl⟩

@[simp] theorem State.setCur_fields (s : State) (c : Nat) :
    (s.setCur c).bsr = ⟨s.bsr.buf, s.bsr.len, c, s.bsr.attached⟩ ∧ (s.setCur c).bsw = s.bsw ∧ (s.setCur c).fb = s.fb ∧
    (s.setCur c).enc = s.enc ∧ (s.setCur c).dec = s.dec ∧ (s.setCur c).frames = s.frames ∧
    (s.setCur c).sinkAnswers = s.sinkAnswers ∧ (s.setCur c).requests = s.requests ∧ (s.setCur c).result = s.result ∧
    (s.setCur c).encFree = s.encFree ∧ (s.setCur c).decFree = s.decFree :=
  ⟨rfl, rfl, rfl, rfl, rfl, rfl, rfl, rfl, rfl, rfl, rfl⟩

@[simp] theorem State.setOut_fields (s : State) (x : List Byte) :
    (s.setOut x).bsr = s.bsr ∧ (s.setOut x).bsw = ⟨x⟩ ∧ (s.setOut x).fb = s.fb ∧ (s.setOut x).enc = s.enc ∧
    (s.setOut x).dec = s.dec ∧ (s.setOut x).frames = s.frames ∧ (s.setOut x).sinkAnswers = s.sinkAnswers ∧
    (s.setOut x).requests = s.requests ∧ (s.setOut x).result = s.result ∧ (s.setOut x).encFree = s.encFree ∧
    (s.setOut x).decFree = s.decFree := ⟨rfl, rfl, rfl, rfl, rfl, rfl, rfl, rfl, rfl, rfl, rfl⟩

@[simp] theorem State.setFb_fields (s : State) (x : Fb) :
    (s.setFb x).bsr = s.bsr ∧ (s.setFb x).bsw = s.bsw ∧ (s.setFb x).fb = x ∧ (s.setFb x).enc = s.enc ∧
    (s.setFb x).dec = s.dec ∧ (s.setFb x).frames = s.frames ∧ (s.setFb x).sinkAnswers = s.sinkAnswers ∧
    (s.setFb x).requests = s.requests ∧ (s.setFb x).result = s.result ∧ (s.setFb x).encFree = s.encFree ∧
    (s.setFb x).decFree = s.decFree := ⟨rfl, rfl, rfl, rfl, rfl, rfl, rfl, rfl, rfl, rfl, rfl⟩

@[simp] theorem State.setEnc_fields (s : State) (x : Enc) :
    (s.setEnc x).bsr = s.bsr ∧ (s.setEnc x).bsw = s.bsw ∧ (s.setEnc x).fb = s.fb ∧ (s.setEnc x).enc = x ∧
    (s.setEnc x).dec = s.dec ∧ (s.setEnc x).frames = s.frames ∧ (s.setEnc x).sinkAnswers = s.sinkAnswers ∧
    (s.setEnc x).requests = s.requests ∧ (s.setEnc x).result = s.result ∧ (s.setEnc x).encFree = s.encFree ∧
    (s.setEnc x).decFree = s.decFree := ⟨rfl, rfl, rfl, rfl, rfl, rfl, rfl, rfl, rfl, rfl, rfl⟩

@[simp] theorem State.setDec_fields (s : State) (x : Dec) :
    (s.setDec x).bsr = s.bsr ∧ (s.setDec x).bsw = s.bsw ∧ (s.setDec x).fb = s.fb ∧ (s.setDec x).enc = s.enc ∧
    (s.setDec x).dec = x ∧ (s.setDec x).frames = s.frames ∧ (s.setDec x).sinkAnswers = s.sinkAnswers ∧
    (s.setDec x).requests = s.requests ∧ (s.setDec x).result = s.result ∧ (s.setDec x).encFree = s.encFree ∧
    (s.setDec x).decFree = s.decFree := ⟨rfl, rfl, rfl, rfl, rfl, rfl, rfl, rfl, rfl, rfl, rfl⟩

@[simp] theorem State.setFrames_fields (s : State) (x : List Frame) :
    (s.setFrames x).bsr = s.bsr ∧ (s.setFrames x).bsw = s.bsw ∧ (s.setFrames x).fb = s.fb ∧
    (s.setFrames x).enc = s.enc ∧ (s.setFrames x).dec = s.dec ∧ (s.setFrames x).frames = x ∧
    (s.setFrames x).sinkAnswers = s.sinkAnswers ∧ (s.setFrames x).requests = s.requests ∧
    (s.setFrames x).result = s.result ∧ (s.setFrames x).encFree = s.encFree ∧ (s.setFrames x).decFree = s.decFree :=
  ⟨rfl, rfl, rfl, rfl, rfl, rfl, rfl, rfl, rfl, rfl, rfl⟩

@[simp] theorem State.setSinkAnswers_fields (s : State) (x : List Bool) :
    (s.setSinkAnswers x).bsr = s.bsr ∧ (s.setSinkAnswers x).bsw = s.bsw ∧ (s.setSinkAnswers x).fb = s.fb ∧
    (s.setSinkAnswers x).enc = s.enc ∧ (s.setSinkAnswers x).dec = s.dec ∧ (s.setSinkAnswers x).frames = s.frames ∧
    (s.setSinkAnswers x).sinkAnswers = x ∧ (s.setSinkAnswers x).requests = s.requests ∧
    (s.setSinkAnswers x).result = s.result ∧ (s.setSinkAnswers x).encFree = s.encFree ∧
    (s.setSinkAnswers x).decFree = s.decFree := ⟨rfl, rfl, rfl, rfl, rfl, rfl, rfl, rfl, rfl, rfl, rfl⟩

@[simp] theorem State.setRequests_fields (s : State) (x : List Request) :
    (s.setRequests x).bsr = s.bsr ∧ (s.setRequests x).bsw = s.bsw ∧ (s.setRequests x).fb = s.fb ∧
    (s.setRequests x).enc = s.enc ∧ (s.setRequests x).dec = s.dec ∧ (s.setRequests x).frames = s.frames ∧
    (s.setRequests x).sinkAnswers = s.sinkAnswers ∧ (s.setRequests x).requests = x ∧
    (s.setRequests x).result = s.result ∧ (s.setRequests x).encFree = s.encFree ∧
    (s.setRequests x).decFree = s.decFree := ⟨rfl, rfl, rfl, rfl, rfl, rfl, rfl, rfl, rfl, rfl, rfl⟩

@[simp] theorem State.setResult_fields (s : State) (x : OpResult) :
    (s.setResult x).bsr = s.bsr ∧ (s.setResult x).bsw = s.bsw ∧ (s.setResult x).fb = s.fb ∧
    (s.setResult x).enc = s.enc ∧ (s.setResult x).dec = s.dec ∧ (s.setResult x).frames = s.frames ∧
    (s.setResult x).sinkAnswers = s.sinkAnswers ∧ (s.setResult x).requests = s.requests ∧
    (s.setResult x).result = x ∧ (s.setResult x).encFree = s.encFree ∧ (s.setResult x).decFree = s.decFree :=
  ⟨rfl, rfl, rfl, rfl, rfl, rfl, rfl, rfl, rfl, rfl, rfl⟩

@[simp] theorem State.setEncFree_fields (s : State) (x : Nat) :
    (s.setEncFree x).bsr = s.bsr ∧ (s.setEncFree x).bsw = s.bsw ∧ (s.setEncFree x).fb = s.fb ∧
    (s.setEncFree x).enc = s.enc ∧ (s.setEncFree x).dec = s.dec ∧ (s.setEncFree x).frames = s.frames ∧
    (s.setEncFree x).sinkAnswers = s.sinkAnswers ∧ (s.setEncFree x).requests = s.requests ∧
    (s.setEncFree x).result = s.result ∧ (s.setEncFree x).encFree = x ∧ (s.setEncFree x).decFree = s.decFree :=
  ⟨rfl, rfl, rfl, rfl, rfl, rfl, rfl, rfl, rfl, rfl, rfl⟩

@[simp] theorem State.setDecFree_fields (s : State) (x : Nat) :
    (s.setDecFree x).bsr = s.bsr ∧ (s.setDecFree x).bsw = s.bsw ∧ (s.setDecFree x).fb = s.fb ∧
    (s.setDecFree x).enc = s.enc ∧ (s.setDecFree x).dec = s.dec ∧ (s.setDecFree x).frames = s.frames ∧
    (s.setDecFree x).sinkAnswers = s.sinkAnswers ∧ (s.setDecFree x).requests = s.requests ∧
    (s.setDecFree x).result = s.result ∧ (s.setDecFree x).encFree = s.encFree ∧ (s.setDecFree x).decFree = x :=
  ⟨rfl, rfl, rfl, rfl, rfl, rfl, rfl, rfl, rfl, rfl, rfl⟩

@[simp] theorem State.emptyFb_fields (s : State) :
    s.emptyFb.bsr = s.bsr ∧ s.emptyFb.bsw = s.bsw ∧ s.emptyFb.fb = { s.fb with fcur := 0, pix := [] } ∧ s.emptyFb.enc = s.enc ∧
    s.emptyFb.dec = { s.dec with frameBegun := false } ∧ s.emptyFb.frames = s.frames ∧
    s.emptyFb.sinkAnswers = s.sinkAnswers ∧ s.emptyFb.requests = s.requests ∧ s.emptyFb.result = s.result ∧
    s.emptyFb.encFree = s.encFree ∧ s.emptyFb.decFree = s.decFree := ⟨rfl, rfl, rfl, rfl, rfl, rfl, rfl, rfl, rfl, rfl, rfl⟩

@[simp] theorem State.drawSink_fields (s : State) :
    s.drawSink.bsr = s.bsr ∧ s.drawSink.bsw = s.bsw ∧ s.drawSink.fb = s.fb ∧ s.drawSink.enc = s.enc ∧
    s.drawSink.dec = s.dec ∧ s.drawSink.frames = s.frames ∧ s.drawSink.sinkAnswers = s.sinkAnswers.tail ∧
    s.drawSink.requests = s.requests ∧ s.drawSink.result = s.result ∧ s.drawSink.encFree = s.encFree ∧
    s.drawSink.decFree = s.decFree := ⟨rfl, rfl, rfl, rfl, rfl, rfl, rfl, rfl, rfl, rfl, rfl⟩

end Sys2Proof.Machine
end

