-- ==== Sys2Proof/Laws/Ops.lean ====
section
/-! SUPPORT. The laws of the outcome of an operation and of fault entry. `Res.Ensures P Q` says what an operation that
ends with `ok` (P) or with a fault (Q) guarantees; a later proof about a composite operation goes through `ensures_bind`
and the lemma of each primitive, and unfolds neither. -/

namespace Sys2Proof.Machine

/-- `P` holds of the results and state of an `ok`, `Q` of the fault and state of a fault. -/
def Res.Ensures {α : Type} (P : α → State → Prop) (Q : FaultRecord → State → Prop) : Res α → Prop
  | .ok a s => P a s
  | .fault f s => Q f s
  | .refused _ => True

variable {α β : Type}

@[simp] theorem Res.bind_ok (a : α) (s : State) (k : α → State → Res β) : (Res.ok a s).bind k = k a s := rfl

@[simp] theorem Res.bind_fault (f : FaultRecord) (s : State) (k : α → State → Res β) :
    (Res.fault f s : Res α).bind k = .fault f s := rfl

@[simp] theorem Res.bind_refused (r : Refusal) (k : α → State → Res β) : (Res.refused r : Res α).bind k = .refused r := rfl

theorem Res.bind_assoc {γ : Type} (r : Res α) (k : α → State → Res β) (j : β → State → Res γ) :
    (r.bind k).bind j = r.bind fun a s => (k a s).bind j := by
  cases r <;> rfl

@[simp] theorem Res.ensures_ok (P : α → State → Prop) (Q : FaultRecord → State → Prop) (a : α) (s : State) :
    (Res.ok a s).Ensures P Q ↔ P a s := Iff.rfl

@[simp] theorem Res.ensures_fault (P : α → State → Prop) (Q : FaultRecord → State → Prop) (f : FaultRecord) (s : State) :
    (Res.fault f s : Res α).Ensures P Q ↔ Q f s := Iff.rfl

@[simp] theorem Res.ensures_refused (P : α → State → Prop) (Q : FaultRecord → State → Prop) (r : Refusal) :
    (Res.refused r : Res α).Ensures P Q := trivial

@[simp] theorem Res.ensures_bind (P : β → State → Prop) (Q : FaultRecord → State → Prop) (r : Res α)
    (k : α → State → Res β) :
    (r.bind k).Ensures P Q ↔ r.Ensures (fun a s => (k a s).Ensures P Q) Q := by
  cases r <;> rfl

theorem Res.Ensures.mono {P P' : α → State → Prop} {Q Q' : FaultRecord → State → Prop} {r : Res α}
    (h : r.Ensures P Q) (hP : ∀ a s, P a s → P' a s) (hQ : ∀ f s, Q f s → Q' f s) : r.Ensures P' Q' := by
  cases r with
  | ok a s => exact hP a s h
  | fault f s => exact hQ f s h
  | refused _ => trivial

theorem Res.Ensures.and {P P' : α → State → Prop} {Q Q' : FaultRecord → State → Prop} {r : Res α}
    (h : r.Ensures P Q) (h' : r.Ensures P' Q') : r.Ensures (fun a s => P a s ∧ P' a s) (fun f s => Q f s ∧ Q' f s) := by
  cases r with
  | ok a s => exact ⟨h, h'⟩
  | fault f s => exact ⟨h, h'⟩
  | refused _ => trivial

/-- What an operation that answers a next state has done. -/
theorem finishPrimitive_next {p : Path} {toResult : α → OpResult} {r : Res α} {t : State}
    (h : finishPrimitive p toResult r = .next t) :
    (∃ a s, r = .ok a s ∧ t = s.setResult (toResult a)) ∨ ∃ f s, r = .fault f s ∧ t = takeFault p f s := by
  cases r with
  | ok a s => exact .inl ⟨a, s, rfl, (Host.Outcome.next.inj h).symm⟩
  | fault f s => exact .inr ⟨f, s, rfl, (Host.Outcome.next.inj h).symm⟩
  | refused _ => cases h

theorem finishComposite_next {p : Path} {toResult : α → OpResult} {r : Res α} {t : State}
    (h : finishComposite p toResult r = .next t) :
    (∃ a s, r = .ok a s ∧ t = s.setResult (toResult a)) ∨
      ∃ f s, r = .fault f s ∧ t = takeFault p f (leaveUnspecified p s) := by
  cases r with
  | ok a s => exact .inl ⟨a, s, rfl, (Host.Outcome.next.inj h).symm⟩
  | fault f s => exact .inr ⟨f, s, rfl, (Host.Outcome.next.inj h).symm⟩
  | refused _ => cases h

/-- A guarded operation that is not refused ran on a path that had not faulted. -/
theorem guardPath_of_not_faulted {p : Path} {s : State} (h : s.faulted p = false) (r : Res α) : guardPath p s r = r := by
  simp [guardPath, h]

theorem guardPath_of_faulted {p : Path} {s : State} (h : s.faulted p = true) (r : Res α) :
    guardPath p s r = .refused (.pathFaulted p) := by
  simp [guardPath, h]

theorem guardPath_ensures {p : Path} {s : State} {r : Res α} {P : α → State → Prop} {Q : FaultRecord → State → Prop}
    (h : s.faulted p = false → r.Ensures P Q) : (guardPath p s r).Ensures P Q := by
  cases hf : s.faulted p
  · rw [guardPath_of_not_faulted hf]; exact h hf
  · rw [guardPath_of_faulted hf]; trivial

/-- How an operation that the host performs ends, by the outcome of its meaning, on a path that has not faulted. -/
theorem finishPrimitive_of_ok {p : Path} {g : α → OpResult} {s t : State} {r : Res α} {a : α} (hf : s.faulted p = false)
    (h : r = .ok a t) : finishPrimitive p g (guardPath p s r) = .next (t.setResult (g a)) := by
  rw [guardPath_of_not_faulted hf, h]; rfl

theorem finishPrimitive_of_fault {p : Path} {g : α → OpResult} {s t : State} {r : Res α} {f : FaultRecord}
    (hf : s.faulted p = false) (h : r = .fault f t) :
    finishPrimitive p g (guardPath p s r) = .next (takeFault p f t) := by
  rw [guardPath_of_not_faulted hf, h]; rfl

theorem finishPrimitive_of_refused {p : Path} {g : α → OpResult} {s : State} {r : Res α} {why : Refusal}
    (hf : s.faulted p = false) (h : r = .refused why) : finishPrimitive p g (guardPath p s r) = .refused why := by
  rw [guardPath_of_not_faulted hf, h]; rfl

theorem finishComposite_of_ok {p : Path} {g : α → OpResult} {s t : State} {r : Res α} {a : α} (hf : s.faulted p = false)
    (h : r = .ok a t) : finishComposite p g (guardPath p s r) = .next (t.setResult (g a)) := by
  rw [guardPath_of_not_faulted hf, h]; rfl

theorem finishComposite_of_fault {p : Path} {g : α → OpResult} {s t : State} {r : Res α} {f : FaultRecord}
    (hf : s.faulted p = false) (h : r = .fault f t) :
    finishComposite p g (guardPath p s r) = .next (takeFault p f (leaveUnspecified p t)) := by
  rw [guardPath_of_not_faulted hf, h]; rfl

theorem finishComposite_of_refused {p : Path} {g : α → OpResult} {s : State} {r : Res α} {why : Refusal}
    (hf : s.faulted p = false) (h : r = .refused why) : finishComposite p g (guardPath p s r) = .refused why := by
  rw [guardPath_of_not_faulted hf, h]; rfl

theorem decode_not_faulted {s : State} (h : s.dec.phase ≠ .fault) : s.faulted .decode = false := by
  simp [State.faulted, h]

theorem encode_not_faulted {s : State} (h : s.enc.phase ≠ .fault) : s.faulted .encode = false := by
  simp [State.faulted, h]

@[simp] theorem faulted_decode_iff (s : State) : s.faulted .decode = true ↔ s.dec.phase = .fault := by
  simp [State.faulted]

@[simp] theorem faulted_encode_iff (s : State) : s.faulted .encode = true ↔ s.enc.phase = .fault := by
  simp [State.faulted]

/-- Fault entry on the decode path: every field after it. -/
@[simp] theorem takeFault_decode_fields (f : FaultRecord) (s : State) :
    (takeFault .decode f s).bsr = s.bsr ∧ (takeFault .decode f s).bsw = s.bsw ∧ (takeFault .decode f s).fb = s.fb ∧
    (takeFault .decode f s).enc = s.enc ∧
    (takeFault .decode f s).dec = { s.dec with phase := .fault, fault := f } ∧
    (takeFault .decode f s).frames = s.frames ∧ (takeFault .decode f s).sinkAnswers = s.sinkAnswers ∧
    (takeFault .decode f s).requests = s.requests ∧ (takeFault .decode f s).result = .noValue ∧
    (takeFault .decode f s).encFree = s.encFree ∧ (takeFault .decode f s).decFree = s.decFree :=
  ⟨rfl, rfl, rfl, rfl, rfl, rfl, rfl, rfl, rfl, rfl, rfl⟩

/-- Fault entry on the encode path: every field after it. -/
@[simp] theorem takeFault_encode_fields (f : FaultRecord) (s : State) :
    (takeFault .encode f s).bsr = s.bsr ∧ (takeFault .encode f s).bsw = s.bsw ∧ (takeFault .encode f s).fb = s.fb ∧
    (takeFault .encode f s).enc = { s.enc with phase := .fault, fault := f } ∧
    (takeFault .encode f s).dec = s.dec ∧
    (takeFault .encode f s).frames = s.frames ∧ (takeFault .encode f s).sinkAnswers = s.sinkAnswers ∧
    (takeFault .encode f s).requests = s.requests ∧ (takeFault .encode f s).result = .noValue ∧
    (takeFault .encode f s).encFree = s.encFree ∧ (takeFault .encode f s).decFree = s.decFree :=
  ⟨rfl, rfl, rfl, rfl, rfl, rfl, rfl, rfl, rfl, rfl, rfl⟩

/-- What a faulting composite operation of the decode path leaves specified (R227). -/
@[simp] theorem leaveUnspecified_decode_fields (s : State) :
    (leaveUnspecified .decode s).bsr = s.bsr ∧ (leaveUnspecified .decode s).bsw = s.bsw ∧
    (leaveUnspecified .decode s).fb = s.fb ∧ (leaveUnspecified .decode s).enc = s.enc ∧
    (leaveUnspecified .decode s).dec.phase = s.dec.phase ∧ (leaveUnspecified .decode s).dec.fault = s.dec.fault ∧
    (leaveUnspecified .decode s).frames = s.frames ∧ (leaveUnspecified .decode s).sinkAnswers = s.sinkAnswers ∧
    (leaveUnspecified .decode s).requests = s.requests ∧ (leaveUnspecified .decode s).result = s.result ∧
    (leaveUnspecified .decode s).encFree = s.encFree ∧ (leaveUnspecified .decode s).decFree = s.decFree + 1 :=
  ⟨rfl, rfl, rfl, rfl, rfl, rfl, rfl, rfl, rfl, rfl, rfl, rfl⟩

/-- What a faulting composite operation of the encode path leaves specified (R227). -/
@[simp] theorem leaveUnspecified_encode_fields (s : State) :
    (leaveUnspecified .encode s).bsr = s.bsr ∧ (leaveUnspecified .encode s).bsw = s.bsw ∧
    (leaveUnspecified .encode s).fb = s.fb ∧ (leaveUnspecified .encode s).dec = s.dec ∧
    (leaveUnspecified .encode s).enc.phase = s.enc.phase ∧ (leaveUnspecified .encode s).enc.fault = s.enc.fault ∧
    (leaveUnspecified .encode s).enc.height = s.enc.height ∧ (leaveUnspecified .encode s).enc.width = s.enc.width ∧
    (leaveUnspecified .encode s).frames = s.frames ∧ (leaveUnspecified .encode s).sinkAnswers = s.sinkAnswers ∧
    (leaveUnspecified .encode s).requests = s.requests ∧ (leaveUnspecified .encode s).result = s.result ∧
    (leaveUnspecified .encode s).encFree = s.encFree + 1 ∧ (leaveUnspecified .encode s).decFree = s.decFree :=
  ⟨rfl, rfl, rfl, rfl, rfl, rfl, rfl, rfl, rfl, rfl, rfl, rfl, rfl, rfl⟩

end Sys2Proof.Machine
end

