-- ==== Sys2Proof/Laws/FrameBuffer.lean ====
section
/-! SUPPORT. The laws of the Frame Buffer. -/

namespace Sys2Proof.Machine

@[simp] theorem greyPixel_grey (v : Byte) : (greyPixel v).Grey := ⟨rfl, rfl⟩

/-- Writing the next position appends. -/
theorem pixWrite_next {pix : List Pixel} {p : Nat} {v : Byte} (h : pix.length = p) :
    pixWrite pix p v = pix ++ [greyPixel v] := by
  subst h; simp [pixWrite]

/-- A pixel write leaves every other position alone. -/
theorem pixWrite_other {pix : List Pixel} {p q : Nat} {v : Byte} (hp : p ≤ pix.length) (hq : q ≠ p) :
    (pixWrite pix p v)[q]? = pix[q]? := by
  unfold pixWrite
  rcases Nat.lt_or_gt_of_ne hq with h | h
  · rw [List.getElem?_append_left (by simp; omega), List.getElem?_take_of_lt h]
  · rw [List.getElem?_append_right (by simp; omega)]
    obtain ⟨k, rfl⟩ : ∃ k, q = p + 1 + k := ⟨q - (p + 1), by omega⟩
    simp [Nat.min_eq_left hp, show p + 1 + k - p = k + 1 by omega, List.getElem?_drop]

theorem fbInsertPixel_ok {s : State} {v : Byte} (hc : s.fb.constructed = true) (hf : s.fb.isFull = false) :
    fbInsertPixel v s =
      .ok () (s.setFb { s.fb with pix := pixWrite s.fb.pix s.fb.fcur v, fcur := s.fb.fcur + 1 }) := by
  simp [fbInsertPixel, requireFb, hc, hf]

theorem fbInsertPixel_full {s : State} {v : Byte} (hc : s.fb.constructed = true) (hf : s.fb.isFull = true) :
    fbInsertPixel v s = .fault (.bufferOverflow s.fb.fcur) s := by
  simp [fbInsertPixel, requireFb, hc, hf]

theorem fbRestart_ok {s : State} (hc : s.fb.constructed = true) :
    fbRestart s = .ok () s.emptyFb := by
  simp [fbRestart, requireFb, hc]

theorem fbEmit_ok {s : State} (hc : s.fb.constructed = true) (hf : s.fb.isFull = true) :
    fbEmit s = .ok () (s.setFrames (s.frames ++ [s.fb.frame])) := by
  simp [fbEmit, requireFb, hc, hf]

theorem fbConstruct_ok {s : State} {h w : Half} (hc : s.fb.constructed = false) (hh : h ≠ 0) (hw : w ≠ 0) :
    fbConstruct h w s = .ok () (s.setFb ⟨true, h, w, 0, []⟩) := by
  rw [fbConstruct, if_neg (by simp [hc]), if_neg (not_or.2 ⟨hh, hw⟩)]

/-- Everything an insertion can do. -/
theorem fbInsertPixel_ensures (v : Byte) (s : State) :
    (fbInsertPixel v s).Ensures
      (fun _ t => s.fb.constructed = true ∧ s.fb.isFull = false ∧
        t = s.setFb { s.fb with pix := pixWrite s.fb.pix s.fb.fcur v, fcur := s.fb.fcur + 1 })
      (fun f t => s.fb.isFull = true ∧ f = .bufferOverflow s.fb.fcur ∧ t = s) := by
  cases hc : s.fb.constructed
  · simp [fbInsertPixel, requireFb, hc]
  · cases hf : s.fb.isFull
    · rw [fbInsertPixel_ok hc hf]; exact ⟨rfl, rfl, rfl⟩
    · rw [fbInsertPixel_full hc hf]; exact ⟨rfl, rfl, rfl⟩

/-- An insertion keeps the Frame Buffer's invariant. -/
theorem Fb.Inv.insert {f : Fb} (h : f.Inv) (hf : f.isFull = false) (v : Byte) :
    Fb.Inv { f with pix := pixWrite f.pix f.fcur v, fcur := f.fcur + 1 } := by
  obtain ⟨hd, hle, hlen, hg⟩ := h
  have hne : f.fcur ≠ f.n := by simpa [Fb.isFull] using hf
  refine ⟨hd, ?_, ?_, ?_⟩
  · show f.fcur + 1 ≤ f.n
    omega
  · simp [pixWrite_next hlen, hlen]
  · simp only [pixWrite_next hlen, List.mem_append, List.mem_singleton]
    rintro p (hp | rfl)
    · exact hg p hp
    · exact greyPixel_grey v

theorem Fb.Inv.restart {f : Fb} (h : f.Inv) : Fb.Inv { f with fcur := 0, pix := [] } :=
  ⟨h.1, Nat.zero_le _, rfl, by simp⟩

theorem Fb.Inv.construct {h w : Half} (hh : h ≠ 0) (hw : w ≠ 0) : Fb.Inv ⟨true, h, w, 0, []⟩ :=
  ⟨fun _ => ⟨hh, hw⟩, Nat.zero_le _, rfl, by simp⟩

/-- A full frame is whole. -/
theorem Fb.Inv.frame_whole {f : Fb} (h : f.Inv) (hc : f.constructed = true) (hf : f.isFull = true) : f.frame.Whole := by
  obtain ⟨hd, hle, hlen, hg⟩ := h
  have hn : f.fcur = f.n := by simpa [Fb.isFull] using hf
  refine ⟨(hd hc).1, (hd hc).2, ?_, fun p hp => hg p (List.mem_of_mem_take hp)⟩
  simp [Fb.frame, hlen, hn]
  rfl

end Sys2Proof.Machine
end

