-- ==== Sys2Proof/Laws/Decode.lean ====
section
/-! SUPPORT. The small laws of the byte order and of the count field. -/

namespace Sys2Proof

theorem bigEndian_toNat (a b : Byte) : (bigEndian a b).toNat = a.toNat * 256 + b.toNat := by
  have h : (bigEndian a b).toNat = a.toNat <<< 8 ||| b.toNat := BitVec.toNat_append a b
  have := b.isLt
  rw [h, Nat.shiftLeft_eq, Nat.mul_comm, ← Nat.two_pow_add_eq_or_of_lt (i := 8) (by omega)]

theorem hiByte_toNat (v : Half) : (hiByte v).toNat = v.toNat / 256 := by
  simp [hiByte, Nat.shiftRight_eq_div_pow]; omega

theorem loByte_toNat (v : Half) : (loByte v).toNat = v.toNat % 256 := by
  simp [loByte]

@[simp] theorem hiByte_bigEndian (a b : Byte) : hiByte (bigEndian a b) = a := by
  apply BitVec.eq_of_toNat_eq
  have := a.isLt; have := b.isLt
  rw [hiByte_toNat, bigEndian_toNat]; omega

@[simp] theorem loByte_bigEndian (a b : Byte) : loByte (bigEndian a b) = b := by
  apply BitVec.eq_of_toNat_eq
  have := a.isLt; have := b.isLt
  rw [loByte_toNat, bigEndian_toNat]; omega

@[simp] theorem bigEndian_hi_lo (v : Half) : bigEndian (hiByte v) (loByte v) = v := by
  apply BitVec.eq_of_toNat_eq
  rw [bigEndian_toNat, hiByte_toNat, loByte_toNat]; omega

@[simp] theorem halfBytes_length (v : Half) : (halfBytes v).length = 2 := rfl

theorem countLen_toNat (c : Half) : (countLen c).toNat = c.toNat % 0x8000 := by
  simp [countLen]

theorem countKind_iff (c : Half) : countKind c = true ↔ 0x8000 ≤ c.toNat := by
  have := c.isLt
  simp [countKind, BitVec.getLsbD, Nat.testBit, Nat.shiftRight_eq_div_pow]
  omega

theorem countField_toNat (k : Bool) (n : Len) : (countField k n).toNat = (if k then 0x8000 else 0) + n.toNat := by
  have h : (countField k n).toNat = (BitVec.ofBool k).toNat <<< 15 ||| n.toNat := BitVec.toNat_append _ n
  have := n.isLt
  rw [h, Nat.shiftLeft_eq, Nat.mul_comm, ← Nat.two_pow_add_eq_or_of_lt (i := 15) (by omega)]
  cases k <;> simp

@[simp] theorem countLen_countField (k : Bool) (n : Len) : countLen (countField k n) = n := by
  apply BitVec.eq_of_toNat_eq
  have := n.isLt
  rw [countLen_toNat, countField_toNat]; cases k <;> simp <;> omega

@[simp] theorem countKind_countField (k : Bool) (n : Len) : countKind (countField k n) = k := by
  have := n.isLt
  have h := countKind_iff (countField k n)
  rw [countField_toNat] at h
  cases k
  · simp at h; simpa using h.not.mpr (by omega)
  · simp at h; exact h

@[simp] theorem countField_kind_len (c : Half) : countField (countKind c) (countLen c) = c := by
  apply BitVec.eq_of_toNat_eq
  have := c.isLt
  have h := countKind_iff c
  rw [countField_toNat, countLen_toNat]
  by_cases hk : countKind c = true
  · simp [hk]; have := h.1 hk; omega
  · simp [hk]; have := h.not.1 hk; omega

theorem countLen_eq_zero_iff (c : Half) : countLen c = 0 ↔ c = 0 ∨ c = 0x8000#16 := by
  have := c.isLt
  constructor
  · intro h
    have h' := congrArg BitVec.toNat h
    rw [countLen_toNat] at h'
    simp at h'
    rcases Nat.lt_or_ge c.toNat 0x8000 with hc | hc
    · left; apply BitVec.eq_of_toNat_eq; simp; omega
    · right; apply BitVec.eq_of_toNat_eq; simp; omega
  · rintro (rfl | rfl) <;> decide

end Sys2Proof
end

