-- ==== Sys2Proof/Laws/Memory.lean ====
section
/-! SUPPORT. The laws of the byte memory: every operation keeps the canonical form, and a read after a write. -/

namespace Sys2Proof.Machine.Memory

theorem wfFrom_mono {m : Memory} {lo lo' : Nat} (h : lo' ≤ lo) (hm : wfFrom lo m = true) : wfFrom lo' m = true := by
  cases m with
  | nil => rfl
  | cons c m =>
    simp only [wfFrom, Bool.and_eq_true, decide_eq_true_eq] at hm ⊢
    exact ⟨⟨by omega, hm.1.2⟩, hm.2⟩

theorem read_eq_zero_of_lt {m : Memory} {lo a : Nat} (hm : wfFrom lo m = true) (ha : a < lo) : read m a = 0 := by
  induction m generalizing lo with
  | nil => rfl
  | cons c m ih =>
    simp [wfFrom] at hm
    simp [read, show c.1 ≠ a by omega]
    exact ih hm.2 (by omega)

theorem ofBytesFrom_wf (a : Nat) (bs : List Byte) : wfFrom a (ofBytesFrom a bs) = true := by
  induction bs generalizing a with
  | nil => rfl
  | cons b bs ih =>
    unfold ofBytesFrom
    split
    · exact wfFrom_mono (Nat.le_succ a) (ih (a + 1))
    · simp_all [wfFrom]

/-- A loaded buffer is canonical. -/
theorem ofBytes_wf (bs : List Byte) : wf (ofBytes bs) = true := ofBytesFrom_wf 0 bs

theorem ofBytesFrom_lt (a : Nat) (bs : List Byte) : ∀ c ∈ ofBytesFrom a bs, c.1 < a + bs.length := by
  induction bs generalizing a with
  | nil => simp [ofBytesFrom]
  | cons b bs ih =>
    have := ih (a + 1)
    unfold ofBytesFrom
    split
    · intro c hc; have := this c hc; simp; omega
    · intro c hc
      rcases List.mem_cons.1 hc with rfl | hc
      · simp
      · have := this c hc; simp; omega

theorem read_ofBytesFrom (a : Nat) (bs : List Byte) (i : Nat) : read (ofBytesFrom a bs) (a + i) = bs.getD i 0 := by
  induction bs generalizing a i with
  | nil => rfl
  | cons b bs ih =>
    unfold ofBytesFrom
    cases i with
    | zero =>
      split
      · rw [read_eq_zero_of_lt (ofBytesFrom_wf (a + 1) bs) (by omega)]; simp_all
      · simp [read]
    | succ i =>
      have := ih (a + 1) i
      rw [show a + (i + 1) = a + 1 + i by omega]
      split
      · simpa using this
      · simpa [read, show a ≠ a + 1 + i by omega] using this

/-- Reading a loaded buffer gives the byte that was loaded. -/
theorem read_ofBytes (bs : List Byte) (i : Nat) : read (ofBytes bs) i = bs.getD i 0 := by
  have := read_ofBytesFrom 0 bs i
  rwa [Nat.zero_add] at this

theorem wfFrom_write {m : Memory} {lo a : Nat} {b : Byte} (hm : wfFrom lo m = true) (ha : lo ≤ a) :
    wfFrom lo (write m a b) = true := by
  induction m generalizing lo with
  | nil => unfold write; split <;> simp_all [wfFrom]
  | cons c m ih =>
    simp [wfFrom] at hm
    unfold write
    split
    · have := ih hm.2 (by omega); simp_all [wfFrom]
    · split
      · split
        · exact wfFrom_mono (by omega) hm.2
        · next h1 h2 h3 => subst h2; simp_all [wfFrom]
      · split
        · simp_all [wfFrom]
        · simp_all [wfFrom]; omega

/-- A write keeps the canonical form. -/
theorem wf_write {m : Memory} {a : Nat} {b : Byte} (hm : wf m = true) : wf (write m a b) = true :=
  wfFrom_write hm (Nat.zero_le a)

theorem wf_writeAll {m : Memory} {a : Nat} {bs : List Byte} (hm : wf m = true) : wf (writeAll m a bs) = true := by
  induction bs generalizing m a with
  | nil => exact hm
  | cons b bs ih => exact ih (wf_write hm)

theorem wfFrom_filter {m : Memory} {lo : Nat} {p : Host.Cell → Bool} (hm : wfFrom lo m = true) :
    wfFrom lo (m.filter p) = true := by
  induction m generalizing lo with
  | nil => rfl
  | cons c m ih =>
    simp [wfFrom] at hm
    by_cases hp : p c
    · simp [hp, wfFrom, hm.1, ih hm.2]
    · simp [hp]; exact wfFrom_mono (by omega) (ih hm.2)

theorem wf_clear {m : Memory} {a n : Nat} (hm : wf m = true) : wf (clear m a n) = true := wfFrom_filter hm

theorem read_write_same {m : Memory} {lo a : Nat} {b : Byte} (hm : wfFrom lo m = true) : read (write m a b) a = b := by
  induction m generalizing lo with
  | nil => unfold write; split <;> simp_all [read]
  | cons c m ih =>
    simp [wfFrom] at hm
    unfold write
    split
    · simp [read, show c.1 ≠ a by omega]; exact ih hm.2
    · split
      · split
        · rw [read_eq_zero_of_lt hm.2 (by omega)]; simp_all
        · simp [read]
      · split
        · simp [read, show c.1 ≠ a by omega]; rw [read_eq_zero_of_lt hm.2 (by omega)]; simp_all
        · simp [read]

theorem read_write_ne {m : Memory} {lo a x : Nat} {b : Byte} (hm : wfFrom lo m = true) (hx : x ≠ a) :
    read (write m a b) x = read m x := by
  induction m generalizing lo with
  | nil => unfold write; split <;> simp [read, hx.symm]
  | cons c m ih =>
    simp [wfFrom] at hm
    unfold write
    split
    · by_cases hc : c.1 = x
      · simp [read, hc]
      · simp [read, hc]; exact ih hm.2
    · split
      · next _ h =>
        subst h
        have hc : c.1 ≠ x := by omega
        split <;> simp [read, hc]
      · split
        · rfl
        · simp [read, hx.symm]

theorem readAll_length (m : Memory) (n a : Nat) : (readAll m n a).length = n := by
  induction n generalizing a with
  | zero => rfl
  | succ n ih => simp [readAll, ih]

theorem readAll_drop (m : Memory) (n a k : Nat) : (readAll m n a).drop k = readAll m (n - k) (a + k) := by
  induction n generalizing a k with
  | zero => simp [readAll]
  | succ n ih =>
    cases k with
    | zero => rfl
    | succ k => simp [readAll, ih, Nat.add_comm, Nat.add_left_comm]

theorem readAll_ofBytes (bs : List Byte) (n a : Nat) (h : a + n = bs.length) : readAll (ofBytes bs) n a = bs.drop a := by
  induction n generalizing a with
  | zero => simp [readAll, List.drop_of_length_le (show bs.length ≤ a by omega)]
  | succ n ih =>
    rw [readAll, ih (a + 1) (by omega), read_ofBytes, List.drop_eq_getElem_cons (by omega : a < bs.length)]
    simp [List.getD_eq_getElem?_getD, List.getElem?_eq_getElem (by omega : a < bs.length)]

end Sys2Proof.Machine.Memory
end

