-- ==== Sys2Proof/Laws/Reader.lean ====
section
/-! SUPPORT. The laws of the Bitstream Reader, and what stands at the cursor. -/

namespace Sys2Proof.Machine

theorem bsrReadU8_ok {s : State} (h : s.bsr.cur + 1 ≤ s.bsr.len) :
    bsrReadU8 s = .ok (memRead8 s s.bsr.cur) (s.setCur (s.bsr.cur + 1)) := by
  simp [bsrReadU8, show ¬ s.bsr.len - s.bsr.cur < 1 by omega]

theorem bsrReadU8_cut {s : State} (h : s.bsr.len < s.bsr.cur + 1) :
    bsrReadU8 s = .fault (.truncatedStream s.bsr.cur) s := by
  simp [bsrReadU8, show s.bsr.len - s.bsr.cur < 1 by omega]

theorem bsrReadU16_ok {s : State} (h : s.bsr.cur + 2 ≤ s.bsr.len) :
    bsrReadU16 s = .ok (memRead16 s s.bsr.cur) (s.setCur (s.bsr.cur + 2)) := by
  simp [bsrReadU16, show ¬ s.bsr.len - s.bsr.cur < 2 by omega]

theorem bsrReadU16_cut {s : State} (h : s.bsr.len < s.bsr.cur + 2) :
    bsrReadU16 s = .fault (.truncatedStream s.bsr.cur) s := by
  simp [bsrReadU16, show s.bsr.len - s.bsr.cur < 2 by omega]

/-- Everything a byte read can do. -/
theorem bsrReadU8_ensures (s : State) :
    (bsrReadU8 s).Ensures
      (fun v t => s.bsr.cur + 1 ≤ s.bsr.len ∧ v = memRead8 s s.bsr.cur ∧ t = s.setCur (s.bsr.cur + 1))
      (fun f t => s.bsr.len < s.bsr.cur + 1 ∧ f = .truncatedStream s.bsr.cur ∧ t = s) := by
  rcases Nat.lt_or_ge s.bsr.len (s.bsr.cur + 1) with h | h
  · rw [bsrReadU8_cut h]; exact ⟨h, rfl, rfl⟩
  · rw [bsrReadU8_ok h]; exact ⟨h, rfl, rfl⟩

/-- Everything a field read can do. -/
theorem bsrReadU16_ensures (s : State) :
    (bsrReadU16 s).Ensures
      (fun v t => s.bsr.cur + 2 ≤ s.bsr.len ∧ v = memRead16 s s.bsr.cur ∧ t = s.setCur (s.bsr.cur + 2))
      (fun f t => s.bsr.len < s.bsr.cur + 2 ∧ f = .truncatedStream s.bsr.cur ∧ t = s) := by
  rcases Nat.lt_or_ge s.bsr.len (s.bsr.cur + 2) with h | h
  · rw [bsrReadU16_cut h]; exact ⟨h, rfl, rfl⟩
  · rw [bsrReadU16_ok h]; exact ⟨h, rfl, rfl⟩

theorem bytesAtCursor_length (s : State) : s.bytesAtCursor.length = s.bsr.len - s.bsr.cur :=
  Memory.readAll_length _ _ _

/-- What stands at the cursor of a freshly loaded buffer. -/
theorem bytesAtCursor_load (bs : List Byte) (s : State) :
    (s.setBsr ⟨Memory.ofBytes bs, bs.length, 0, true⟩).bytesAtCursor = bs := by
  have := Memory.readAll_ofBytes bs bs.length 0 (by simp)
  simpa [State.bytesAtCursor] using this

/-- Passing `k` bytes drops them. -/
theorem bytesAtCursor_setCur (s : State) (k : Nat) :
    (s.setCur (s.bsr.cur + k)).bytesAtCursor = s.bytesAtCursor.drop k := by
  simp [State.bytesAtCursor, Memory.readAll_drop, Nat.sub_sub]

/-- What stands at the cursor depends on the reader alone. -/
theorem bytesAtCursor_congr {s t : State} (h : t.bsr = s.bsr) : t.bytesAtCursor = s.bytesAtCursor := by
  simp [State.bytesAtCursor, h]

theorem bytesAtCursor_cons {s : State} {b : Byte} {bs : List Byte} (h : s.bytesAtCursor = b :: bs) :
    s.bsr.cur + 1 ≤ s.bsr.len ∧ memRead8 s s.bsr.cur = b := by
  have hl := bytesAtCursor_length s
  rw [h] at hl
  simp at hl
  obtain ⟨k, hk⟩ : ∃ k, s.bsr.len - s.bsr.cur = k + 1 := ⟨bs.length, hl.symm⟩
  simp [State.bytesAtCursor, hk, Memory.readAll] at h
  exact ⟨by omega, h.1⟩

/-- A byte read takes the first byte at the cursor. -/
theorem bsrReadU8_cons {s : State} {b : Byte} {bs : List Byte} (h : s.bytesAtCursor = b :: bs) :
    bsrReadU8 s = .ok b (s.setCur (s.bsr.cur + 1)) ∧ (s.setCur (s.bsr.cur + 1)).bytesAtCursor = bs := by
  obtain ⟨hl, hb⟩ := bytesAtCursor_cons h
  exact ⟨by rw [bsrReadU8_ok hl, hb], by rw [bytesAtCursor_setCur, h]; rfl⟩

theorem bsrReadU8_nil {s : State} (h : s.bytesAtCursor = []) :
    bsrReadU8 s = .fault (.truncatedStream s.bsr.cur) s := by
  have hl := bytesAtCursor_length s
  rw [h] at hl
  exact bsrReadU8_cut (by simp at hl; omega)

/-- A field read takes the first two bytes at the cursor, the first the more significant. -/
theorem bsrReadU16_cons {s : State} {b0 b1 : Byte} {bs : List Byte} (h : s.bytesAtCursor = b0 :: b1 :: bs) :
    bsrReadU16 s = .ok (bigEndian b0 b1) (s.setCur (s.bsr.cur + 2)) ∧
      (s.setCur (s.bsr.cur + 2)).bytesAtCursor = bs := by
  obtain ⟨_, hb0⟩ := bytesAtCursor_cons h
  have h1 : (s.setCur (s.bsr.cur + 1)).bytesAtCursor = b1 :: bs := by rw [bytesAtCursor_setCur, h]; rfl
  obtain ⟨hl, hb1⟩ := bytesAtCursor_cons h1
  simp [memRead8] at hl hb0 hb1
  exact ⟨by rw [bsrReadU16_ok (by omega)]; simp [memRead16, memRead8, hb0, hb1],
    by rw [bytesAtCursor_setCur, h]; rfl⟩

theorem bsrReadU16_short {s : State} (h : s.bytesAtCursor.length < 2) :
    bsrReadU16 s = .fault (.truncatedStream s.bsr.cur) s := by
  rw [bytesAtCursor_length] at h
  exact bsrReadU16_cut (by omega)

/-- At the end of the buffer nothing stands at the cursor. -/
theorem atEnd_iff {s : State} (h : s.bsr.cur ≤ s.bsr.len) : s.bsr.atEnd = true ↔ s.bytesAtCursor = [] := by
  have hl := bytesAtCursor_length s
  rw [← List.length_eq_zero_iff, hl]
  simp [Bsr.atEnd]; omega

end Sys2Proof.Machine
end

