-- ==== Sys2Proof/Laws/Decoder.lean ====
section
/-! SUPPORT. The laws of the Token Decoder: what an operation of the decode path leaves alone (`DecodeKeeps`), what each
step does from a state that meets the invariant, and that `fillFrame` and `runFrames` are the loops of R195 and R196. -/

namespace Sys2Proof.Machine

/-- What an operation of the decode path other than `BSR.LOAD` leaves alone: the encode path, the environment, the buffer;
the cursor only moves forward inside the buffer (R23), frames are only added (R47), dimensions stay (R27). -/
structure DecodeKeeps (s t : State) : Prop where
  enc : t.enc = s.enc
  bsw : t.bsw = s.bsw
  sink : t.sinkAnswers = s.sinkAnswers
  encFree : t.encFree = s.encFree
  requests : t.requests = s.requests
  result : t.result = s.result
  buf : t.bsr.buf = s.bsr.buf
  len : t.bsr.len = s.bsr.len
  attached : t.bsr.attached = s.bsr.attached
  cur : s.bsr.cur ≤ t.bsr.cur
  bound : s.bsr.cur ≤ s.bsr.len → t.bsr.cur ≤ t.bsr.len
  frames : s.frames <+: t.frames
  dims : s.fb.constructed = true → t.fb.constructed = true ∧ t.fb.height = s.fb.height ∧ t.fb.width = s.fb.width

theorem DecodeKeeps.refl (s : State) : DecodeKeeps s s :=
  ⟨rfl, rfl, rfl, rfl, rfl, rfl, rfl, rfl, rfl, le_refl _, id, List.prefix_rfl, fun h => ⟨h, rfl, rfl⟩⟩

theorem DecodeKeeps.trans {s t u : State} (h : DecodeKeeps s t) (k : DecodeKeeps t u) : DecodeKeeps s u where
  enc := k.enc.trans h.enc
  bsw := k.bsw.trans h.bsw
  sink := k.sink.trans h.sink
  encFree := k.encFree.trans h.encFree
  requests := k.requests.trans h.requests
  result := k.result.trans h.result
  buf := k.buf.trans h.buf
  len := k.len.trans h.len
  attached := k.attached.trans h.attached
  cur := h.cur.trans k.cur
  bound := fun hb => k.bound (h.bound hb)
  frames := h.frames.trans k.frames
  dims := fun hc =>
    have ⟨c1, h1, w1⟩ := h.dims hc
    have ⟨c2, h2, w2⟩ := k.dims c1
    ⟨c2, h2.trans h1, w2.trans w1⟩

theorem DecodeKeeps.setDec (s : State) (d : Dec) : DecodeKeeps s (s.setDec d) :=
  ⟨rfl, rfl, rfl, rfl, rfl, rfl, rfl, rfl, rfl, le_refl _, id, List.prefix_rfl, fun h => ⟨h, rfl, rfl⟩⟩

theorem DecodeKeeps.setCur {s : State} {k : Nat} (h : s.bsr.cur + k ≤ s.bsr.len) :
    DecodeKeeps s (s.setCur (s.bsr.cur + k)) :=
  ⟨rfl, rfl, rfl, rfl, rfl, rfl, rfl, rfl, rfl, by simp, fun _ => h, List.prefix_rfl, fun hc => ⟨hc, rfl, rfl⟩⟩

/-- What every reachable state of the decode path has, faulted or not: the parts of the machine's invariant that a fault
leaves alone. -/
structure DecodeSound (s : State) : Prop where
  bsr : s.bsr.Inv
  fb : s.fb.Inv
  frames : ∀ f ∈ s.frames, f.Whole

/-- A decoder in phase `Run` that meets its invariant. -/
structure DecodeRuns (s : State) : Prop extends DecodeSound s where
  phase : s.dec.phase = .run
  fault : s.dec.fault = .noFault
  built : s.fb.constructed = true
  regs : s.dec.RunInv

/-- The faults that `DEC.STEP` and `DEC.FRAME` can raise (60_exceptions.md R220, R222). -/
def FaultRecord.ofStep : FaultRecord → Prop
  | .truncatedStream _ => True
  | .reservedCount _ => True
  | _ => False

theorem DecodeSound.setCur {s : State} {k : Nat} (h : DecodeSound s) (hk : s.bsr.cur + k ≤ s.bsr.len) :
    DecodeSound (s.setCur (s.bsr.cur + k)) :=
  ⟨⟨h.bsr.1, h.bsr.2.1, hk, h.bsr.2.2.2⟩, h.fb, h.frames⟩

theorem DecodeSound.setDec {s : State} (h : DecodeSound s) (d : Dec) : DecodeSound (s.setDec d) :=
  ⟨h.bsr, h.fb, h.frames⟩

theorem DecodeSound.insert {s : State} (h : DecodeSound s) (hf : s.fb.isFull = false) (v : Byte) :
    DecodeSound (s.setFb { s.fb with pix := pixWrite s.fb.pix s.fb.fcur v, fcur := s.fb.fcur + 1 }) :=
  ⟨h.bsr, h.fb.insert hf v, h.frames⟩

/-! ## The arms -/

theorem raw_lt_kindBit_iff (c : Half) : c < Config.kindBit ↔ countKind c = false := by
  rw [BitVec.lt_def, ← Bool.not_eq_true, countKind_iff]
  simp [Config.kindBit]

theorem reservedCount_iff (c : Half) : reservedCount c = true ↔ countLen c = 0 := by
  rw [countLen_eq_zero_iff]
  simp [reservedCount, Config.kindBit]

theorem raw_toNat_of_lit {c : Half} (h : countKind c = false) : c.toNat = (countLen c).toNat := by
  have := (countKind_iff c).not.1 (by simp [h])
  rw [countLen_toNat]; omega

theorem raw_sub_toNat_of_rpt {c : Half} (h : countKind c = true) : (c - Config.kindBit).toNat = (countLen c).toNat := by
  have h1 := (countKind_iff c).1 h
  have := c.isLt
  rw [countLen_toNat, BitVec.toNat_sub]
  simp [Config.kindBit]; omega

theorem len_pos {n : Len} (h : n ≠ 0) : 1 ≤ n.toNat := by
  have : n.toNat ≠ 0 := fun h0 => h (BitVec.eq_of_toNat_eq (by simpa using h0))
  omega

theorem len_le (n : Len) : n.toNat ≤ Config.maxRun := by
  have := n.isLt
  simp [Config.maxRun]; omega

/-- Everything the `ReadCount` arm can do (R192). -/
theorem readCountArm_ensures (s : State) :
    (readCountArm s).Ensures
      (fun _ t => ∃ n : Len, n ≠ 0 ∧
        ((s.bsr.cur + 2 ≤ s.bsr.len ∧ memRead16 s s.bsr.cur = countField false n ∧
            t = beginLiteral n.toNat (s.setCur (s.bsr.cur + 2))) ∨
          (s.bsr.cur + 3 ≤ s.bsr.len ∧ memRead16 s s.bsr.cur = countField true n ∧
            t = beginRepeat n.toNat (memRead8 s (s.bsr.cur + 2)) (s.setCur (s.bsr.cur + 3)))))
      (fun f t => (s.bsr.len < s.bsr.cur + 2 ∧ f = .truncatedStream s.bsr.cur ∧ t = s) ∨
        (s.bsr.cur + 2 ≤ s.bsr.len ∧ t = s.setCur (s.bsr.cur + 2) ∧
          ((reservedCount (memRead16 s s.bsr.cur) = true ∧ f = .reservedCount (memRead16 s s.bsr.cur)) ∨
            (s.bsr.len < s.bsr.cur + 3 ∧ countKind (memRead16 s s.bsr.cur) = true ∧
              f = .truncatedStream (s.bsr.cur + 2))))) := by
  unfold readCountArm
  rw [Res.ensures_bind]
  refine (bsrReadU16_ensures s).mono ?_ (fun f t h => .inl h)
  rintro raw t ⟨hlen, rfl, rfl⟩
  split
  · next hres => exact .inr ⟨hlen, rfl, .inl ⟨hres, rfl⟩⟩
  · next hres =>
    have hn : countLen (memRead16 s s.bsr.cur) ≠ 0 := fun h => hres ((reservedCount_iff _).2 h)
    split
    · next hlt =>
      have hk := (raw_lt_kindBit_iff _).1 hlt
      refine ⟨countLen (memRead16 s s.bsr.cur), hn, .inl ⟨hlen, ?_, ?_⟩⟩
      · rw [← hk, countField_kind_len]
      · rw [raw_toNat_of_lit hk]
    · next hlt =>
      have hk : countKind (memRead16 s s.bsr.cur) = true := by
        rwa [raw_lt_kindBit_iff, Bool.not_eq_false] at hlt
      rw [Res.ensures_bind]
      refine (bsrReadU8_ensures _).mono ?_ ?_
      · rintro v u ⟨hl, rfl, rfl⟩
        refine ⟨countLen (memRead16 s s.bsr.cur), hn, .inr ⟨hl, ?_, ?_⟩⟩
        · rw [← hk, countField_kind_len]
        · rw [raw_sub_toNat_of_rpt hk]; rfl
      · rintro f u ⟨hl, rfl, rfl⟩
        exact .inr ⟨hlen, rfl, .inr ⟨hl, hk, rfl⟩⟩

/-- Everything placing a sample can do (R193, R194). -/
theorem placeSample_ensures (v : Byte) (s : State) :
    (placeSample v s).Ensures
      (fun _ t => s.fb.constructed = true ∧ s.fb.isFull = false ∧
        t = (s.setFb { s.fb with pix := pixWrite s.fb.pix s.fb.fcur v, fcur := s.fb.fcur + 1 }).setDec (countDown s.dec))
      (fun f t => s.fb.isFull = true ∧ f = .bufferOverflow s.fb.fcur ∧ t = s) := by
  unfold placeSample
  rw [Res.ensures_bind]
  refine (fbInsertPixel_ensures v s).mono ?_ (fun f t h => h)
  rintro _ t ⟨hc, hf, rfl⟩
  exact ⟨hc, hf, rfl⟩

theorem placeSample_ok {s : State} {v : Byte} (hc : s.fb.constructed = true) (hf : s.fb.isFull = false) :
    placeSample v s =
      .ok () ((s.setFb { s.fb with pix := pixWrite s.fb.pix s.fb.fcur v, fcur := s.fb.fcur + 1 }).setDec
        (countDown s.dec)) := by
  rw [placeSample, fbInsertPixel_ok hc hf]; rfl

theorem Dec.RunInv.countDown {d : Dec} (h : d.RunInv) (hm : d.dmode ≠ .readCount) : (countDown d).RunInv := by
  unfold Dec.RunInv at *
  unfold Machine.countDown
  by_cases h0 : d.remaining - 1 = 0
  · simp [h0]
  · cases hd : d.dmode <;> simp_all <;> omega

/-- What one `DEC.STEP` keeps beside `DecodeKeeps`. -/
structure StepKeeps (s t : State) : Prop extends DecodeKeeps s t where
  phase : t.dec.phase = s.dec.phase
  fault : t.dec.fault = s.dec.fault
  sameFrames : t.frames = s.frames
  decFree : t.decFree = s.decFree

theorem StepKeeps.refl (s : State) : StepKeeps s s := ⟨DecodeKeeps.refl s, rfl, rfl, rfl, rfl⟩

theorem StepKeeps.trans {s t u : State} (h : StepKeeps s t) (k : StepKeeps t u) : StepKeeps s u :=
  ⟨h.toDecodeKeeps.trans k.toDecodeKeeps, k.phase.trans h.phase, k.fault.trans h.fault,
    k.sameFrames.trans h.sameFrames, k.decFree.trans h.decFree⟩

theorem StepKeeps.setCur {s : State} {k : Nat} (h : s.bsr.cur + k ≤ s.bsr.len) :
    StepKeeps s (s.setCur (s.bsr.cur + k)) := ⟨DecodeKeeps.setCur h, rfl, rfl, rfl, rfl⟩

theorem StepKeeps.place (s : State) (v : Byte) :
    StepKeeps s ((s.setFb { s.fb with pix := pixWrite s.fb.pix s.fb.fcur v, fcur := s.fb.fcur + 1 }).setDec
      (countDown s.dec)) :=
  ⟨⟨rfl, rfl, rfl, rfl, rfl, rfl, rfl, rfl, rfl, le_refl _, id, List.prefix_rfl, fun h => ⟨h, rfl, rfl⟩⟩, rfl, rfl, rfl, rfl⟩

/-- Placing a sample from inside a token. -/
theorem placeSample_runs {s : State} (v : Byte) (h : DecodeRuns s) (hf : s.fb.isFull = false)
    (hm : s.dec.dmode ≠ .readCount) :
    ∃ t, placeSample v s = .ok () t ∧ DecodeRuns t ∧ StepKeeps s t ∧ t.bsr = s.bsr ∧ t.fb.fcur = s.fb.fcur + 1 :=
  ⟨_, placeSample_ok h.built hf, ⟨(h.toDecodeSound.insert hf v).setDec _, h.phase, h.fault, h.built, h.regs.countDown hm⟩,
    StepKeeps.place s v, rfl, rfl⟩

/-- Where `DEC.STEP` may run it performs the arm of the mode. -/
theorem decStep_eq {s : State} (hp : s.dec.phase = .run) (hc : s.fb.constructed = true) (hf : s.fb.isFull = false) :
    decStep s = decArm s := by
  simp [decStep, requireRoom, requireFb, hp, hc, hf]

/-- Everything `DEC.STEP` can do from a state that meets the invariant: it keeps the invariant; a `ReadCount` step leaves
the Frame Buffer alone and leaves `ReadCount`, any other step writes one pixel; the only faults are those of R221 and R225. -/
theorem decStep_ensures {s : State} (h : DecodeRuns s) :
    (decStep s).Ensures
      (fun _ t => s.fb.isFull = false ∧ DecodeRuns t ∧ StepKeeps s t ∧
        (if s.dec.dmode = .readCount then t.fb = s.fb ∧ t.dec.dmode ≠ .readCount ∧
            (s.bsr.cur + 3 ≤ t.bsr.cur ∨ (s.bsr.cur + 2 ≤ t.bsr.cur ∧ t.dec.dmode = .literal))
         else t.fb.fcur = s.fb.fcur + 1 ∧ (s.dec.dmode = .literal → s.bsr.cur + 1 ≤ t.bsr.cur)))
      (fun f t => f.ofStep ∧ DecodeSound t ∧ StepKeeps s t) := by
  cases hf : s.fb.isFull
  · rw [decStep_eq h.phase h.built hf]
    unfold decArm
    cases hm : s.dec.dmode with
    | readCount =>
      refine (readCountArm_ensures s).mono ?_ ?_
      · rintro _ t ⟨n, hn, ⟨hl, -, rfl⟩ | ⟨hl, -, rfl⟩⟩
        · exact ⟨rfl, ⟨(h.toDecodeSound.setCur hl).setDec _, h.phase, h.fault, h.built, len_pos hn, len_le n⟩,
            ⟨(DecodeKeeps.setCur hl).trans (DecodeKeeps.setDec _ _), rfl, rfl, rfl, rfl⟩,
            by simp [beginLiteral]⟩
        · exact ⟨rfl, ⟨(h.toDecodeSound.setCur hl).setDec _, h.phase, h.fault, h.built, len_pos hn, len_le n⟩,
            ⟨(DecodeKeeps.setCur hl).trans (DecodeKeeps.setDec _ _), rfl, rfl, rfl, rfl⟩,
            by simp [beginRepeat]⟩
      · rintro f t (⟨-, rfl, rfl⟩ | ⟨hl, rfl, ⟨-, rfl⟩ | ⟨-, -, rfl⟩⟩)
        · exact ⟨trivial, h.toDecodeSound, StepKeeps.refl _⟩
        · exact ⟨trivial, h.toDecodeSound.setCur hl, StepKeeps.setCur hl⟩
        · exact ⟨trivial, h.toDecodeSound.setCur hl, StepKeeps.setCur hl⟩
    | literal =>
      dsimp only
      rw [literalStep, Res.ensures_bind]
      refine (bsrReadU8_ensures s).mono ?_ ?_
      · rintro v t ⟨hl, -, rfl⟩
        have h1 : DecodeRuns (s.setCur (s.bsr.cur + 1)) :=
          ⟨h.toDecodeSound.setCur hl, h.phase, h.fault, h.built, h.regs⟩
        obtain ⟨u, hu, hr, hk, -, hfc⟩ := placeSample_runs v h1 hf (by simp [hm])
        rw [hu]
        have hcur := hk.cur
        exact ⟨rfl, hr, (StepKeeps.setCur hl).trans hk, by simpa using ⟨hfc, hcur⟩⟩
      · rintro f t ⟨-, rfl, rfl⟩
        exact ⟨trivial, h.toDecodeSound, StepKeeps.refl _⟩
    | repeating =>
      obtain ⟨u, hu, hr, hk, -, hfc⟩ := placeSample_runs s.dec.pixel h hf (by simp [hm])
      dsimp only
      rw [repeatStep, hu]
      exact ⟨rfl, hr, hk, by simpa using hfc⟩
  · have : decStep s = .refused .fbFull := by simp [decStep, requireRoom, requireFb, h.phase, h.built, hf]
    rw [this]; trivial

/-! ## The frame loop -/

theorem StepKeeps.n {s t : State} (h : StepKeeps s t) (hc : s.fb.constructed = true) : t.fb.n = s.fb.n := by
  obtain ⟨-, h1, h2⟩ := h.dims hc
  simp [Fb.n, h1, h2]

/-- Filling a frame keeps the invariant and ends with a full buffer. -/
theorem fillFrame_ensures (k : Nat) {s : State} (h : DecodeRuns s) (hk : s.fb.n ≤ s.fb.fcur + k) :
    (fillFrame k s).Ensures
      (fun _ t => DecodeRuns t ∧ StepKeeps s t ∧ t.fb.isFull = true ∧
        (s.fb.isFull = false → s.dec.dmode = .readCount → s.bsr.cur + 3 ≤ t.bsr.cur))
      (fun f t => f.ofStep ∧ DecodeSound t ∧ StepKeeps s t) := by
  induction k generalizing s with
  | zero =>
    have hfull : s.fb.isFull = true := by
      have := h.fb.2.1
      simp [Fb.isFull]; omega
    exact ⟨h, StepKeeps.refl s, hfull, by simp [hfull]⟩
  | succ k ih =>
    unfold fillFrame
    split
    · next hfull => exact ⟨h, StepKeeps.refl s, hfull, by simp [hfull]⟩
    · next hfull =>
      have hfull : s.fb.isFull = false := by simpa using hfull
      -- the second step of the round
      have hround : ∀ s1, DecodeRuns s1 → StepKeeps s s1 → s1.fb = s.fb → s1.dec.dmode ≠ .readCount →
          ((decStep s1).bind fun _ s2 => fillFrame k s2).Ensures
            (fun _ t => DecodeRuns t ∧ StepKeeps s t ∧ t.fb.isFull = true ∧
              s1.bsr.cur + (if s1.dec.dmode = .literal then 1 else 0) ≤ t.bsr.cur)
            (fun f t => f.ofStep ∧ DecodeSound t ∧ StepKeeps s t) := by
        intro s1 h1 k1 hfb hm1
        rw [Res.ensures_bind]
        refine (decStep_ensures h1).mono ?_ (fun f t ⟨a, b, c⟩ => ⟨a, b, k1.trans c⟩)
        rintro _ s2 ⟨-, h2, k2, hc2⟩
        rw [if_neg hm1] at hc2
        have hn : s2.fb.n = s.fb.n := by rw [k2.n h1.built, hfb]
        refine (ih h2 (by rw [hn, hc2.1, hfb]; omega)).mono ?_ (fun f t ⟨a, b, c⟩ => ⟨a, b, (k1.trans k2).trans c⟩)
        rintro _ t ⟨h3, k3, hf3, -⟩
        refine ⟨h3, (k1.trans k2).trans k3, hf3, ?_⟩
        have := k2.cur
        have := k3.cur
        split
        · next hl => have := hc2.2 hl; omega
        · omega
      by_cases hm : s.dec.dmode = .readCount
      · rw [if_pos hm, Res.ensures_bind]
        refine (decStep_ensures h).mono ?_ (fun f t h => h)
        rintro _ s1 ⟨-, h1, k1, hc1⟩
        rw [if_pos hm] at hc1
        refine (hround s1 h1 k1 hc1.1 hc1.2.1).mono ?_ (fun f t h => h)
        rintro _ t ⟨h3, k3, hf3, hcur⟩
        refine ⟨h3, k3, hf3, fun _ _ => ?_⟩
        rcases hc1.2.2 with hc | ⟨hc, hl⟩
        · omega
        · rw [if_pos hl] at hcur; omega
      · rw [if_neg hm, Res.bind_ok]
        refine (hround s h (StepKeeps.refl s) rfl hm).mono ?_ (fun f t h => h)
        rintro _ t ⟨h3, k3, hf3, hcur⟩
        exact ⟨h3, k3, hf3, fun _ h => absurd h hm⟩

/-- `while not FB.IS_FULL(): call DEC.STEP()` (R195). -/
def fillLoop (s : State) : Res Unit := fillFrame (s.fb.n - s.fb.fcur) s

/-- `fillFrame` is the loop of R195: one test of `is_full`, one `DEC.STEP`, and again. -/
theorem fillLoop_eq {s : State} (h : DecodeRuns s) :
    fillLoop s = if s.fb.isFull then .ok () s else (decStep s).bind fun _ t => fillLoop t := by
  unfold fillLoop
  cases hf : s.fb.isFull
  · have hne : s.fb.fcur ≠ s.fb.n := by simpa [Fb.isFull] using hf
    have hle := h.fb.2.1
    obtain ⟨k, hk⟩ : ∃ k, s.fb.n - s.fb.fcur = k + 1 := ⟨s.fb.n - s.fb.fcur - 1, by omega⟩
    rw [hk]
    conv_lhs => unfold fillFrame
    simp only [hf, Bool.false_eq_true, if_false]
    have hs := decStep_ensures h
    by_cases hm : s.dec.dmode = .readCount
    · rw [if_pos hm]
      cases hd : decStep s with
      | ok _ s1 =>
        rw [hd] at hs
        simp only [Res.ensures_ok, if_pos hm] at hs
        obtain ⟨-, -, -, hfb, hm1, -⟩ := hs
        simp only [Res.bind_ok, hfb, hk]
        conv_rhs => unfold fillFrame
        simp [hfb, hf, hm1]
      | fault f s1 => rfl
      | refused r => rfl
    · rw [if_neg hm, Res.bind_ok]
      cases hd : decStep s with
      | ok _ s1 =>
        rw [hd] at hs
        simp only [Res.ensures_ok, if_neg hm] at hs
        obtain ⟨-, -, k1, hfc⟩ := hs
        simp only [Res.bind_ok, k1.n h.built, hfc.1, show s.fb.n - (s.fb.fcur + 1) = k by omega]
      | fault f s1 => rfl
      | refused r => rfl
  · have heq : s.fb.fcur = s.fb.n := by simpa [Fb.isFull] using hf
    simp [heq, fillFrame]

/-! ## One frame -/

theorem DecodeRuns.frameStart {s : State} (h : DecodeRuns s) :
    DecodeRuns (decFrameStart s.emptyFb) :=
  ⟨⟨h.bsr, h.fb.restart, h.frames⟩, h.phase, h.fault, h.built, rfl⟩

theorem DecodeKeeps.frameStart (s : State) :
    DecodeKeeps s (decFrameStart s.emptyFb) :=
  ⟨rfl, rfl, rfl, rfl, rfl, rfl, rfl, rfl, rfl, le_refl _, id, List.prefix_rfl, fun h => ⟨h, rfl, rfl⟩⟩

theorem Fb.Inv.n_pos {f : Fb} (h : f.Inv) (hc : f.constructed = true) : 0 < f.n := by
  obtain ⟨h1, h2⟩ := h.1 hc
  have p1 : f.height.toNat ≠ 0 := fun h0 => h1 (BitVec.eq_of_toNat_eq (by simpa using h0))
  have p2 : f.width.toNat ≠ 0 := fun h0 => h2 (BitVec.eq_of_toNat_eq (by simpa using h0))
  exact Nat.mul_pos (by omega) (by omega)

theorem atFrameBoundary_of_full {s : State} (h : s.fb.isFull = true) : s.atFrameBoundary = true := by
  simp [State.atFrameBoundary, h]

theorem atFrameBoundary_of_empty {s : State} (hc : s.fb.fcur = 0) (hm : s.dec.frameBegun = false) :
    s.atFrameBoundary = true := by
  simp [State.atFrameBoundary, hc, hm]

/-- After `FB.RESTART` nothing of a frame is in progress, whatever was left in `dmode` (R154, R262). -/
@[simp] theorem State.emptyFb_atFrameBoundary (s : State) : s.emptyFb.atFrameBoundary = true := atFrameBoundary_of_empty rfl rfl

theorem requireBoundary_eq {α : Type} {s : State} (hp : s.dec.phase = .run) (hb : s.atFrameBoundary = true) (r : Res α) :
    requireBoundary s r = r := by
  simp [requireBoundary, hp, hb]

theorem requireBoundary_ensures {α : Type} {s : State} {r : Res α} {P : α → State → Prop} {Q : FaultRecord → State → Prop}
    (h : s.dec.phase = .run → s.atFrameBoundary = true → r.Ensures P Q) : (requireBoundary s r).Ensures P Q := by
  unfold requireBoundary
  split_ifs with hp hb
  on_goal 2 => exact h (not_ne_iff.1 hp) hb
  all_goals trivial

/-- Everything `DEC.FRAME` can do from a state that meets the invariant (R195): at the end of the stream it ends the run;
otherwise it hands over one whole frame, having read at least three bytes, or it faults and hands over none. -/
theorem decFrame_ensures {s : State} (h : DecodeRuns s) :
    (decFrame s).Ensures
      (fun r t => DecodeKeeps s t ∧
        ((s.bsr.atEnd = true ∧ r = none ∧ t = s.setDec { s.dec with phase := .done }) ∨
          (s.bsr.atEnd = false ∧ DecodeRuns t ∧ s.bsr.cur + 3 ≤ t.bsr.cur ∧
            ∃ f, r = some f ∧ t.frames = s.frames ++ [f] ∧ f.Whole ∧ f.height = s.fb.height ∧ f.width = s.fb.width ∧
              t.atFrameBoundary = true)))
      (fun f t => f.ofStep ∧ s.bsr.atEnd = false ∧ DecodeSound t ∧ DecodeKeeps s t ∧ t.frames = s.frames ∧
        t.dec.fault = s.dec.fault) := by
  unfold decFrame
  refine requireBoundary_ensures fun _ _ => ?_
  split
  · next he => exact ⟨DecodeKeeps.setDec _ _, .inl ⟨he, rfl, rfl⟩⟩
  · next he =>
    have he : s.bsr.atEnd = false := by simpa using he
    have hr := h.frameStart
    have hk0 := DecodeKeeps.frameStart s
    have hnf : (decFrameStart s.emptyFb).fb.isFull = false := by
      have := h.fb.n_pos h.built
      simp [decFrameStart, Fb.isFull, Fb.n] at this ⊢
      omega
    rw [fbRestart_ok h.built, Res.bind_ok, Res.ensures_bind]
    refine (fillFrame_ensures _ hr (by simp [decFrameStart, Fb.n])).mono ?_ ?_
    · rintro _ s2 ⟨h2, k2, hf2, hc2⟩
      rw [fbEmit_ok h2.built hf2, Res.bind_ok]
      have hdims := k2.dims h.built
      have hw := h2.fb.frame_whole h2.built hf2
      refine ⟨(hk0.trans k2.toDecodeKeeps).trans ?_, .inr ⟨he, ?_, hc2 hnf rfl, s2.fb.frame, rfl, ?_, hw, hdims.2.1, hdims.2.2,
        atFrameBoundary_of_full hf2⟩⟩
      · exact ⟨rfl, rfl, rfl, rfl, rfl, rfl, rfl, rfl, rfl, le_refl _, id, List.prefix_append _ _, fun h => ⟨h, rfl, rfl⟩⟩
      · refine ⟨⟨h2.bsr, h2.fb, ?_⟩, h2.phase, h2.fault, h2.built, h2.regs⟩
        intro f hf
        rcases List.mem_append.1 hf with hf | hf
        · exact h2.frames f hf
        · rw [List.mem_singleton.1 hf]; exact hw
      · show s2.frames ++ _ = _
        rw [k2.sameFrames]; rfl
    · rintro f t ⟨hs, hsound, k2⟩
      exact ⟨hs, he, hsound, hk0.trans k2.toDecodeKeeps, k2.sameFrames, k2.fault⟩

/-! ## The whole stream -/

/-- `repeat: f <- call DEC.FRAME() until f == none` (R196). -/
def runLoop (s : State) : Res Unit := runFrames (s.bsr.len - s.bsr.cur) s

theorem decFrame_atEnd {s : State} (hp : s.dec.phase = .run) (hb : s.atFrameBoundary = true) (he : s.bsr.atEnd = true) :
    decFrame s = .ok none (s.setDec { s.dec with phase := .done }) := by
  simp [decFrame, requireBoundary_eq hp hb, he]

theorem runFrames_atEnd (k : Nat) {s : State} (hp : s.dec.phase = .run) (hb : s.atFrameBoundary = true)
    (he : s.bsr.atEnd = true) :
    runFrames k s = .ok () (s.setDec { s.dec with phase := .done }) := by
  cases k <;> simp [runFrames, decFrame_atEnd hp hb he]

/-- More rounds than there are bytes left change nothing. -/
theorem runFrames_fuel {k j : Nat} {s : State} (h : DecodeRuns s) (hb : s.atFrameBoundary = true) (hk : s.bsr.len - s.bsr.cur ≤ k)
    (hj : s.bsr.len - s.bsr.cur ≤ j) : runFrames k s = runFrames j s := by
  induction k generalizing s j with
  | zero =>
    have he : s.bsr.atEnd = true := by have := h.bsr.2.2.1; simp [Bsr.atEnd]; omega
    rw [runFrames_atEnd _ h.phase hb he, runFrames_atEnd _ h.phase hb he]
  | succ k ih =>
    cases he : s.bsr.atEnd
    · cases j with
      | zero => have := h.bsr.2.2.1; simp [Bsr.atEnd] at he; omega
      | succ j =>
        unfold runFrames
        have hs := decFrame_ensures h
        cases hd : decFrame s with
        | ok r t =>
          rw [hd] at hs
          obtain ⟨hkp, ⟨-, rfl, rfl⟩ | ⟨-, ht, hcur, f, rfl, -, -, -, -, htb⟩⟩ := hs
          · rfl
          · have hl := hkp.len
            exact ih ht htb (by omega) (by omega)
        | fault f t => rfl
        | refused r => rfl
    · rw [runFrames_atEnd _ h.phase hb he, runFrames_atEnd _ h.phase hb he]

/-- `runFrames` is the loop of R196: one `DEC.FRAME`, and again until it returns no frame. -/
theorem runLoop_eq {s : State} (h : DecodeRuns s) (hb : s.atFrameBoundary = true) :
    runLoop s = (decFrame s).bind fun r t => if r = none then .ok () t else runLoop t := by
  cases he : s.bsr.atEnd
  · obtain ⟨k, hk⟩ : ∃ k, s.bsr.len - s.bsr.cur = k + 1 := by
      have := h.bsr.2.2.1
      simp [Bsr.atEnd] at he
      exact ⟨s.bsr.len - s.bsr.cur - 1, by omega⟩
    rw [runLoop, hk, runFrames]
    have hs := decFrame_ensures h
    cases hd : decFrame s with
    | ok r t =>
      rw [hd] at hs
      obtain ⟨hkp, ⟨-, rfl, rfl⟩ | ⟨-, ht, hcur, f, rfl, -, -, -, -, htb⟩⟩ := hs
      · rfl
      · have hl := hkp.len
        simpa [runLoop] using runFrames_fuel ht htb (by omega) (le_refl _)
    | fault f t => rfl
    | refused r => rfl
  · rw [runLoop, runFrames_atEnd _ h.phase hb he, decFrame_atEnd h.phase hb he]; rfl

/-- Everything the frame loop of `DEC.RUN` can do: it ends in phase `Done` at the end of the buffer, or it faults. -/
theorem runFrames_ensures (k : Nat) {s : State} (h : DecodeRuns s) (hb : s.atFrameBoundary = true) (hk : s.bsr.len - s.bsr.cur ≤ k) :
    (runFrames k s).Ensures
      (fun _ t => DecodeSound t ∧ DecodeKeeps s t ∧ t.dec.phase = .done ∧ t.dec.fault = .noFault ∧
        t.bsr.atEnd = true ∧ 3 * t.frames.length ≤ 3 * s.frames.length + (s.bsr.len - s.bsr.cur))
      (fun f t => f.ofStep ∧ DecodeSound t ∧ DecodeKeeps s t ∧ t.dec.fault = .noFault) := by
  induction k generalizing s with
  | zero =>
    have he : s.bsr.atEnd = true := by have := h.bsr.2.2.1; simp [Bsr.atEnd]; omega
    rw [runFrames_atEnd _ h.phase hb he]
    exact ⟨h.toDecodeSound.setDec _, DecodeKeeps.setDec _ _, rfl, h.fault, he, by simp⟩
  | succ k ih =>
    unfold runFrames
    rw [Res.ensures_bind]
    refine (decFrame_ensures h).mono ?_ ?_
    · rintro r t ⟨hkp, ⟨he, rfl, rfl⟩ | ⟨-, ht, hcur, f, rfl, hf, -, -, -, htb⟩⟩
      · exact ⟨h.toDecodeSound.setDec _, DecodeKeeps.setDec _ _, rfl, h.fault, he, by simp⟩
      · have hl := hkp.len
        have hle := ht.bsr.2.2.1
        refine (ih ht htb (by omega)).mono ?_ ?_
        · rintro _ u ⟨a, b, c, d, e, g⟩
          refine ⟨a, hkp.trans b, c, d, e, ?_⟩
          rw [hf, List.length_append, List.length_singleton] at g
          omega
        · rintro f' u ⟨a, b, c, d⟩
          exact ⟨a, b, hkp.trans c, d⟩
    · rintro f t ⟨a, -, b, c, -, d⟩
      exact ⟨a, b, c, d.trans h.fault⟩

/-- Everything that follows a header whose two fields have been read (R190). -/
theorem decHeader_ensures (h w : Half) {s : State} (hs : DecodeSound s)
    (hf : s.dec.fault = .noFault) :
    (decHeader h w s).Ensures
      (fun _ t => h ≠ 0 ∧ w ≠ 0 ∧ s.fb.constructed = false ∧ DecodeRuns t ∧ DecodeKeeps s t ∧
        t = (s.setFb ⟨true, h, w, 0, []⟩).setDec { s.dec with dmode := .readCount, remaining := 0, phase := .run, frameBegun := false })
      (fun f t => (h = 0 ∨ w = 0) ∧ f = .invalidHeader h w ∧ t = s) := by
  unfold decHeader
  split
  · next hz => exact ⟨hz, rfl, rfl⟩
  · next hz =>
    obtain ⟨hh, hw⟩ := not_or.1 hz
    cases hc : s.fb.constructed
    · rw [fbConstruct_ok hc hh hw]
      refine ⟨hh, hw, rfl, ⟨⟨hs.bsr, Fb.Inv.construct hh hw, hs.frames⟩, rfl, hf, rfl, rfl⟩, ?_, rfl⟩
      exact ⟨rfl, rfl, rfl, rfl, rfl, rfl, rfl, rfl, rfl, le_refl _, id, List.prefix_rfl, fun h => by simp [hc] at h⟩
    · simp [fbConstruct, hc]

theorem requireStart_eq {α : Type} {s : State} (hp : s.dec.phase = .idle) (ha : s.bsr.attached = true)
    (h0 : s.bsr.cur = 0) (r : Res α) : requireStart s r = r := by
  simp [requireStart, hp, ha, h0]

theorem requireStart_ensures {α : Type} {s : State} {r : Res α} {P : α → State → Prop} {Q : FaultRecord → State → Prop}
    (h : s.dec.phase = .idle → s.bsr.attached = true → s.bsr.cur = 0 → r.Ensures P Q) :
    (requireStart s r).Ensures P Q := by
  unfold requireStart
  split_ifs with h1 h2 h3
  on_goal 3 => exact h (not_ne_iff.1 h1) h2 (not_ne_iff.1 h3)
  all_goals trivial

/-- Everything `DEC.START` can do (R190). -/
theorem decStart_ensures {s : State} (hs : DecodeSound s) (hf : s.dec.fault = .noFault) :
    (decStart s).Ensures
      (fun _ t => s.dec.phase = .idle ∧ DecodeRuns t ∧ DecodeKeeps s t ∧ t.frames = s.frames ∧
        t.bsr.cur = s.bsr.cur + 4 ∧ t.atFrameBoundary = true)
      (fun f t => s.dec.phase = .idle ∧ DecodeSound t ∧ DecodeKeeps s t ∧ t.frames = s.frames ∧
        t.dec.fault = .noFault ∧
        match f with
        | .truncatedStream _ => True
        | .invalidHeader _ _ => True
        | _ => False) := by
  refine requireStart_ensures fun hp _ _ => ?_
  rw [Res.ensures_bind]
  refine (bsrReadU16_ensures s).mono ?_ ?_
  · rintro h t ⟨hl, -, rfl⟩
    rw [Res.ensures_bind]
    refine (bsrReadU16_ensures _).mono ?_ ?_
    · rintro w t ⟨hl2, -, rfl⟩
      have hl4 : s.bsr.cur + 4 ≤ s.bsr.len := hl2
      have e : (s.setCur (s.bsr.cur + 2)).setCur ((s.setCur (s.bsr.cur + 2)).bsr.cur + 2) = s.setCur (s.bsr.cur + 4) := rfl
      rw [e]
      refine (decHeader_ensures h w (hs.setCur hl4) hf).mono ?_ ?_
      · rintro _ t ⟨-, -, -, hr, hk, rfl⟩
        exact ⟨hp, hr, (DecodeKeeps.setCur hl4).trans hk, rfl, rfl, atFrameBoundary_of_empty rfl rfl⟩
      · rintro f t ⟨-, rfl, rfl⟩
        exact ⟨hp, hs.setCur hl4, DecodeKeeps.setCur hl4, rfl, hf, trivial⟩
    · rintro f t ⟨-, rfl, rfl⟩
      exact ⟨hp, hs.setCur hl, DecodeKeeps.setCur hl, rfl, hf, trivial⟩
  · rintro f t ⟨-, rfl, rfl⟩
    exact ⟨hp, hs, DecodeKeeps.refl _, rfl, hf, trivial⟩

end Sys2Proof.Machine
end

