-- ==== Sys2Proof/Laws/Completes.lean ====
section
/-! SUPPORT. Where the operations of the decoder complete: from a state that meets the invariant none is refused, and a
`TruncatedStream` records the cursor at which it leaves the reader. -/

namespace Sys2Proof.Machine

theorem noFault_of_idle {s : State} (hi : s.dec.FaultInv) (hp : s.dec.phase = .idle) : s.dec.fault = .noFault := by
  unfold Dec.FaultInv at hi
  rw [hp] at hi
  cases h : s.dec.fault <;> simp [h] at hi ⊢

theorem State.Inv.decodeRuns {s : State} (hi : s.Inv) (hp : s.dec.phase = .run) : DecodeRuns s := by
  have hff : s.dec.fault = .noFault := by
    have := hi.dec.1
    unfold Dec.FaultInv at this
    rw [hp] at this
    cases h : s.dec.fault <;> simp [h] at this ⊢
  exact ⟨⟨hi.bsr, hi.fb, hi.frames⟩, hp, hff, hi.running hp, hi.dec.2 hp⟩

/-- Not refused, and a `TruncatedStream` records the cursor where it stands. -/
def Res.Completes {α} : Res α → Prop
  | .ok _ _ => True
  | .fault f t => ∀ c, f = .truncatedStream c → c = t.bsr.cur
  | .refused _ => False

theorem Res.Completes.bind {α β} {r : Res α} {k : α → State → Res β} (h : Res.Completes r)
    (hk : ∀ a t, r = .ok a t → Res.Completes (k a t)) : Res.Completes (r.bind k) := by
  cases r with
  | ok a t => exact hk a t rfl
  | fault f t => exact h
  | refused r => exact h

theorem bsrReadU8_completes (s) : Res.Completes (bsrReadU8 s) := by
  unfold bsrReadU8; split <;> simp [Res.Completes]

theorem bsrReadU16_completes (s) : Res.Completes (bsrReadU16 s) := by
  unfold bsrReadU16; split <;> simp [Res.Completes]

theorem placeSample_completes {v s} (hc : s.fb.constructed = true) (hf : s.fb.isFull = false) : Res.Completes
    (placeSample v s) := by
  rw [placeSample_ok hc hf]; trivial

theorem decStep_completes {s : State} (h : DecodeRuns s) (hf : s.fb.isFull = false) : Res.Completes (decStep s) := by
  rw [decStep_eq h.phase h.built hf]
  unfold decArm
  split
  · unfold readCountArm
    refine (bsrReadU16_completes s).bind fun a t _ => ?_
    split
    · simp [Res.Completes]
    · split
      · trivial
      · exact (bsrReadU8_completes _).bind fun _ _ _ => trivial
  · unfold literalStep
    refine (bsrReadU8_completes s).bind fun a t e => placeSample_completes ?_ ?_
    · unfold bsrReadU8 at e; split at e <;> simp at e; rw [← e.2]; exact h.built
    · unfold bsrReadU8 at e; split at e <;> simp at e; rw [← e.2]; exact hf
  · exact placeSample_completes h.built hf

theorem fillFrame_completes (k : Nat) {s : State} (h : DecodeRuns s) : Res.Completes (fillFrame k s) := by
  induction k generalizing s with
  | zero => trivial
  | succ k ih =>
    unfold fillFrame
    split
    · trivial
    · next hf =>
      simp at hf
      have hstep : Res.Completes (if s.dec.dmode = .readCount then decStep s else .ok () s) := by
        split
        · exact decStep_completes h hf
        · trivial
      refine hstep.bind fun a t e => ?_
      have ht : DecodeRuns t ∧ t.fb.isFull = false := by
        split at e
        · next hm =>
          have := decStep_ensures h
          rw [e] at this
          obtain ⟨-, h1, h2, h3⟩ := this
          rw [if_pos hm] at h3
          exact ⟨h1, by rw [h3.1]; exact hf⟩
        · simp at e; rw [← e]; exact ⟨h, hf⟩
      refine (decStep_completes ht.1 ht.2).bind fun b u e2 => ?_
      have := decStep_ensures ht.1
      rw [e2] at this
      exact ih this.2.1

theorem decFrame_completes {s : State} (h : DecodeRuns s) (hb : s.atFrameBoundary = true) : Res.Completes (decFrame s) := by
  rw [decFrame, requireBoundary_eq h.phase hb]
  split
  · trivial
  · rw [fbRestart_ok h.built, Res.bind_ok]
    refine (fillFrame_completes _ h.frameStart).bind fun a t e => ?_
    have := fillFrame_ensures s.emptyFb.fb.n h.frameStart
        (by simp [decFrameStart, Fb.n])
    rw [e] at this
    rw [fbEmit_ok this.1.built this.2.2.1, Res.bind_ok]
    trivial

theorem runFrames_completes (k : Nat) {s : State} (h : DecodeRuns s) (hb : s.atFrameBoundary = true) : Res.Completes (runFrames k s) := by
  induction k generalizing s with
  | zero => exact (decFrame_completes h hb).bind fun _ _ _ => trivial
  | succ k ih =>
    unfold runFrames
    refine (decFrame_completes h hb).bind fun r t e => ?_
    have := decFrame_ensures h
    rw [e] at this
    obtain ⟨hk, ⟨h1, rfl, -⟩ | ⟨h1, hrt, hc, f, rfl, hf, hw, -, -, hbt⟩⟩ := this
    · trivial
    · exact ih hrt hbt

theorem decStart_completes {s : State} (hp : s.dec.phase = .idle) (ha : s.bsr.attached = true) (h0 : s.bsr.cur = 0) (hc : s.fb.constructed = false) : Res.Completes
    (decStart s) := by
  rw [decStart, requireStart_eq hp ha h0]
  refine (bsrReadU16_completes s).bind fun a t e => ?_
  refine (bsrReadU16_completes t).bind fun b u e2 => ?_
  have : u.fb.constructed = false := by
    unfold bsrReadU16 at e e2; split at e <;> simp at e; split at e2 <;> simp at e2
    rw [← e2.2, ← e.2]; exact hc
  unfold decHeader
  split
  · simp [Res.Completes]
  · next hz => rw [not_or] at hz; rw [fbConstruct_ok this hz.1 hz.2]; trivial

theorem decRun_completes {s : State} (hi : s.Inv) (hp : s.dec.phase = .idle) (ha : s.bsr.attached = true)
    (h0 : s.bsr.cur = 0)
    (hc : s.fb.constructed = false) : Res.Completes (decRun s) := by
  unfold decRun
  refine (decStart_completes hp ha h0 hc).bind fun _ t e => ?_
  have := decStart_ensures ⟨hi.bsr, hi.fb, hi.frames⟩ (noFault_of_idle hi.dec.1 hp)
  rw [e] at this
  exact runFrames_completes _ this.2.1 this.2.2.2.2.2

end Sys2Proof.Machine
end

