-- ==== Sys2Proof/Laws/Writer.lean ====
section
/-! SUPPORT. The laws of the Bitstream Writer: every emission is a `writeBytes`, which either appends all its bytes or
stops at the first byte that the sink refuses. -/

namespace Sys2Proof.Machine

/-- The state after the sink has taken all of `bs`. -/
def State.written (s : State) (bs : List Byte) : State :=
  (s.setSinkAnswers (s.sinkAnswers.drop bs.length)).setOut (s.bsw.out ++ bs)

@[simp] theorem State.written_fields (s : State) (bs : List Byte) :
    (s.written bs).bsr = s.bsr ∧ (s.written bs).bsw = ⟨s.bsw.out ++ bs⟩ ∧ (s.written bs).fb = s.fb ∧
    (s.written bs).enc = s.enc ∧ (s.written bs).dec = s.dec ∧ (s.written bs).frames = s.frames ∧
    (s.written bs).sinkAnswers = s.sinkAnswers.drop bs.length ∧ (s.written bs).requests = s.requests ∧
    (s.written bs).result = s.result ∧ (s.written bs).encFree = s.encFree ∧ (s.written bs).decFree = s.decFree :=
  ⟨rfl, rfl, rfl, rfl, rfl, rfl, rfl, rfl, rfl, rfl, rfl⟩

theorem State.written_nil (s : State) : s.written [] = s := by
  cases s; simp [State.written, State.setSinkAnswers, State.setOut]

theorem State.written_append (s : State) (as bs : List Byte) : (s.written as).written bs = s.written (as ++ bs) := by
  cases s; simp [State.written, State.setSinkAnswers, State.setOut]

theorem State.written_setEnc (s : State) (bs : List Byte) (e : Enc) :
    (s.setEnc e).written bs = (s.written bs).setEnc e := rfl

theorem sinkWrite_ok {s : State} {b : Byte} (h : s.sinkAccepts = true) : sinkWrite b s = .ok () (s.written [b]) := by
  simp [sinkWrite, h, State.written, State.drawSink]

theorem sinkWrite_refused {s : State} {b : Byte} (h : s.sinkAccepts = false) :
    sinkWrite b s = .fault (.sinkFailure s.bsw.out.length) s.drawSink := by
  simp [sinkWrite, h]

/-- The next byte is taken if the environment's next answers are. -/
theorem State.sinkTakes.accepts {s : State} {n : Nat} (h : s.sinkTakes (n + 1)) : s.sinkAccepts = true := by
  unfold State.sinkTakes State.sinkAccepts at *
  cases ha : s.sinkAnswers with
  | nil => rfl
  | cons a as => simp [ha] at h; simpa using h.1

theorem State.sinkTakes.after {s : State} {n : Nat} {bs : List Byte} (h : s.sinkTakes (bs.length + n)) :
    (s.written bs).sinkTakes n := by
  intro a ha
  refine h a ?_
  rw [State.written_fields s bs |>.2.2.2.2.2.2.1] at ha
  rw [List.take_add]
  exact List.mem_append_right _ ha

theorem State.sinkTakesAll.takes {s : State} (h : s.sinkTakesAll) (n : Nat) : s.sinkTakes n :=
  fun a ha => h a (List.mem_of_mem_take ha)

theorem State.sinkTakesAll.written {s : State} (h : s.sinkTakesAll) (bs : List Byte) : (s.written bs).sinkTakesAll :=
  fun a ha => h a (List.mem_of_mem_drop ha)

theorem writeBytes_append (as bs : List Byte) (s : State) :
    writeBytes (as ++ bs) s = (writeBytes as s).bind fun _ s1 => writeBytes bs s1 := by
  induction as generalizing s with
  | nil => rfl
  | cons a as ih => simp [writeBytes, Res.bind_assoc, ih]

theorem bswWriteU8_eq (v : Byte) (s : State) : bswWriteU8 v s = writeBytes [v] s := by
  unfold writeBytes
  cases bswWriteU8 v s <;> rfl

theorem bswWriteU16_eq (v : Half) (s : State) : bswWriteU16 v s = writeBytes (halfBytes v) s := by
  simp only [bswWriteU16, bswWriteU8_eq, halfBytes]
  rw [← writeBytes_append]; rfl

/-- Emitting a token writes its bytes (R167, R168). -/
theorem emitToken_eq (t : Token) (s : State) : emitToken t s = writeBytes t.bytes s := by
  cases t with
  | lit n b => simp only [emitToken, Token.bytes, bswWriteU16_eq, writeBytes_append]
  | rpt n v => simp only [emitToken, Token.bytes, bswWriteU16_eq, bswWriteU8_eq, writeBytes_append]

theorem emitTokens_eq (ts : List Token) (s : State) : emitTokens ts s = writeBytes (tokensBytes ts) s := by
  induction ts generalizing s with
  | nil => rfl
  | cons t ts ih => simp only [emitTokens, emitToken_eq, ih, tokensBytes, List.flatMap_cons, writeBytes_append]

/-- All the bytes are appended when the sink takes them. -/
theorem writeBytes_ok {bs : List Byte} {s : State} (h : s.sinkTakes bs.length) :
    writeBytes bs s = .ok () (s.written bs) := by
  induction bs generalizing s with
  | nil => simp [writeBytes, State.written_nil]
  | cons b bs ih =>
    have h1 : (s.written [b]).sinkTakes bs.length :=
      State.sinkTakes.after (bs := [b]) (by simpa [Nat.add_comm] using h)
    simp [writeBytes, bswWriteU8, sinkWrite_ok h.accepts, ih h1, State.written_append]

/-- Everything an emission can do: it appends all its bytes, or the sink refuses one of them and exactly the bytes before
that one have been appended. -/
theorem writeBytes_ensures (bs : List Byte) (s : State) :
    (writeBytes bs s).Ensures (fun _ t => s.sinkTakes bs.length ∧ t = s.written bs)
      (fun f t => ∃ pre b post, bs = pre ++ b :: post ∧ s.sinkTakes pre.length ∧ t = (s.written pre).drawSink ∧
        f = .sinkFailure (s.bsw.out ++ pre).length) := by
  induction bs generalizing s with
  | nil => exact ⟨by simp [State.sinkTakes], (State.written_nil s).symm⟩
  | cons b bs ih =>
    cases ha : s.sinkAccepts
    · simp only [writeBytes, bswWriteU8, sinkWrite_refused ha, Res.bind_fault, Res.ensures_fault]
      exact ⟨[], b, bs, rfl, by simp [State.sinkTakes], by rw [State.written_nil], by simp⟩
    · have hone : ∀ n, (s.written [b]).sinkTakes n → s.sinkTakes (n + 1) := by
        intro n hn a hmem
        cases hs : s.sinkAnswers with
        | nil => simp [hs] at hmem
        | cons x xs =>
          rw [hs, List.take_succ_cons, List.mem_cons] at hmem
          rcases hmem with rfl | hm
          · simpa [State.sinkAccepts, hs] using ha
          · exact hn a (by simpa [hs] using hm)
      simp only [writeBytes, bswWriteU8, sinkWrite_ok ha, Res.bind_ok]
      refine (ih (s.written [b])).mono ?_ ?_
      · rintro _ t ⟨hk, rfl⟩
        exact ⟨hone _ hk, by rw [State.written_append]; rfl⟩
      · rintro f t ⟨pre, c, post, rfl, hk, rfl, rfl⟩
        exact ⟨b :: pre, c, post, rfl, hone _ hk, by rw [State.written_append]; rfl, by simp⟩

end Sys2Proof.Machine
end

