-- ==== Sys2Proof/Laws/Encoder.lean ====
section
/-! SUPPORT. The laws of the Token Encoder. `encArm_spec` says once what one sample does to the pending samples (R39 (e),
R166, R170, R174); `encSample_ok` and `encSample_ensures` say what the operation does to the state. -/

namespace Sys2Proof.Machine

/-- Registers that no arm of the state machine writes (R161). -/
@[simp] theorem encArm_frame (e : Enc) (v : Byte) :
    (encArm e v).2.height = e.height ∧ (encArm e v).2.width = e.width ∧ (encArm e v).2.pos = e.pos ∧
    (encArm e v).2.phase = e.phase ∧ (encArm e v).2.fault = e.fault := by
  unfold encArm repeatArm literalArm
  dsimp only
  split_ifs <;> exact ⟨rfl, rfl, rfl, rfl, rfl⟩

/-- The shape of the tokens that one sample closes (R174): every token is legal, a repeat token has at least 2 samples,
and so has a literal token, but for the one-sample token at the end of a frame. -/
def TokensShaped (final : Bool) (v : Byte) (ts : List Token) : Prop :=
  ∀ t ∈ ts, t.Legal ∧
    match t with
    | .rpt n _ => 2 ≤ n
    | .lit n _ => 2 ≤ n ∨ (final = true ∧ t = .lit 1 [v] ∧ ts.getLast? = some t)

theorem countFull_iff (c : Int) : countFull c = true ↔ c = 0x7FFF := by
  simp [countFull, Config.maxRun]

/-- What an arm does to pending samples `P` when sample `v` arrives: the tokens it closes and the registers it leaves. -/
def ArmSpec (P : List Byte) (final : Bool) (v : Byte) (r : List Token × Enc) : Prop :=
  TokensShaped final v r.1 ∧
  (final = false → tokensSamples r.1 ++ r.2.pending = P ++ [v] ∧ r.2.lastValid = true ∧ r.2.ModeInv) ∧
  (final = true → tokensSamples r.1 = P ++ [v])

theorem repeatArm_spec {e : Enc} {c : Int} {final : Bool} {v : Byte} (hl : e.lastValid = true) (hb : e.buf = [])
    (h1 : 1 ≤ c) (h2 : c ≤ 0x7FFF) (hc : c = 1 → v = e.last) :
    ArmSpec (List.replicate c.toNat e.last) final v (repeatArm e c final v) := by
  unfold repeatArm
  have hfull := countFull_iff c
  have hnat : (c.toNat : Int) = c := Int.toNat_of_nonneg (by omega)
  split_ifs with hclose hfinal
  · have h2c : 2 ≤ c.toNat := by
      rcases hclose with hne | hf
      · have : c ≠ 1 := fun h => hne (hc h)
        omega
      · have := hfull.1 hf; omega
    refine ⟨?_, ?_, ?_⟩
    · cases final <;> simp [TokensShaped, loneToken, Token.Legal, Config.maxRun] <;> omega
    · rintro rfl
      simp [loneToken, tokensSamples, Token.samples, Enc.pending, hl, hb, Enc.ModeInv]
    · rintro rfl
      simp [loneToken, tokensSamples, Token.samples]
  · simp only [not_or, not_not] at hclose
    obtain ⟨rfl, hnf⟩ := hclose
    have hlt : c ≠ 0x7FFF := fun h => hnf (hfull.2 h)
    subst hfinal
    refine ⟨?_, by simp, fun _ => ?_⟩
    · simp [TokensShaped, Token.Legal, Config.maxRun]; omega
    · simp [tokensSamples, Token.samples, show (c + 1).toNat = c.toNat + 1 by omega, List.replicate_succ']
  · simp only [not_or, not_not] at hclose
    obtain ⟨rfl, hnf⟩ := hclose
    have hlt : c ≠ 0x7FFF := fun h => hnf (hfull.2 h)
    refine ⟨by simp [TokensShaped], fun _ => ⟨?_, hl, ?_⟩, fun h => absurd h hfinal⟩
    · simp [tokensSamples, Enc.pending, hl, show (c + 1).toNat = c.toNat + 1 by omega, List.replicate_succ']
    · simp [Enc.ModeInv, hb, Config.maxRun]; omega

theorem literalArm_spec {e : Enc} {c : Int} {final : Bool} {v : Byte} (hl : e.lastValid = true)
    (hb : (e.buf.length : Int) + 1 = c) (h2 : c ≤ 0x7FFF) (hc : c = 1 → v ≠ e.last) :
    ArmSpec (e.buf ++ [e.last]) final v (literalArm e c final v) := by
  unfold literalArm
  have hfull := countFull_iff c
  split_ifs with hfinal hclose
  · obtain ⟨rfl, hnf⟩ := hfinal
    have hlt : c ≠ 0x7FFF := fun h => hnf (hfull.2 h)
    refine ⟨?_, by simp, fun _ => by simp [tokensSamples, Token.samples]⟩
    simp [TokensShaped, Token.Legal, Config.maxRun]; omega
  · have h2c : 2 ≤ c.toNat := by
      rcases hclose with heq | hf
      · have : c ≠ 1 := fun h => hc h heq
        omega
      · have := hfull.1 hf; omega
    refine ⟨?_, ?_, ?_⟩
    · cases final <;> simp [TokensShaped, loneToken, Token.Legal, Config.maxRun] <;> omega
    · rintro rfl
      simp [loneToken, tokensSamples, Token.samples, Enc.pending, hl, Enc.ModeInv]
    · rintro rfl
      simp [loneToken, tokensSamples, Token.samples]
  · rw [not_or] at hclose
    have hlt : c ≠ 0x7FFF := fun h => hclose.2 (hfull.2 h)
    refine ⟨by simp [TokensShaped], fun _ => ⟨?_, hl, ?_⟩, fun h => ?_⟩
    · simp [tokensSamples, Enc.pending, hl]
    · simp [Enc.ModeInv, Config.maxRun]
      exact ⟨by omega, by omega, by omega, fun h => hclose.1 h.symm⟩
    · exact absurd ⟨h, hclose.2⟩ hfinal

theorem firstSample_spec {e : Enc} {final : Bool} {v : Byte} (hc : e.count = Config.initialCount)
    (hm : e.mode = .chooseMode) (hb : e.buf = []) :
    ArmSpec [] final v (loneToken final v, { e with count := e.count + 1, last := v, lastValid := true }) := by
  refine ⟨?_, ?_, ?_⟩
  · cases final <;> simp [TokensShaped, loneToken, Token.Legal, Config.maxRun]
  · rintro rfl
    simp [loneToken, tokensSamples, Enc.pending, hm, hb, hc, Enc.ModeInv, Config.initialCount]
  · rintro rfl
    simp [loneToken, tokensSamples, Token.samples]

/-- One sample through the encoder's state machine from a state that meets its invariant: if the sample is not final, the
tokens and the samples still pending are the samples that were pending and the new one; if it is final, the tokens are
all of them. -/
theorem encArm_spec {e : Enc} (h : e.RunInv) (v : Byte) : ArmSpec e.pending e.isFinal v (encArm e v) := by
  obtain ⟨-, -, -, -, hfirst, hmode⟩ := h
  unfold encArm
  dsimp only
  cases hlv : e.lastValid
  · obtain ⟨hc, hm, hb⟩ := hfirst hlv
    simpa [hlv, Enc.pending] using firstSample_spec (final := e.isFinal) (v := v) hc hm hb
  · replace hmode := hmode hlv
    unfold Enc.ModeInv at hmode
    simp only [not_true_eq_false, if_false]
    cases hm : e.mode with
    | chooseMode =>
      simp only [hm] at hmode
      obtain ⟨hc, hb⟩ := hmode
      have hp : e.pending = [e.last] := by simp [Enc.pending, hlv, hm]
      rw [hp, hc]
      by_cases hv : v = e.last
      · simpa [takenByRepeat, hv] using
          repeatArm_spec (c := 1) (final := e.isFinal) (v := v) hlv hb (by omega) (by omega) (fun _ => hv)
      · simpa [takenByRepeat, hv, hb] using
          literalArm_spec (c := 1) (final := e.isFinal) (v := v) hlv (by simp [hb]) (by omega) (fun _ => hv)
    | repeatMode =>
      simp only [hm, Config.maxRun] at hmode
      obtain ⟨h1, h2, hb⟩ := hmode
      have hp : e.pending = List.replicate (e.count + 1).toNat e.last := by simp [Enc.pending, hlv, hm]
      rw [hp]
      exact repeatArm_spec hlv hb (by omega) (by omega) (by omega)
    | literalMode =>
      simp only [hm, Config.maxRun] at hmode
      obtain ⟨h1, h2, hb, -⟩ := hmode
      have hp : e.pending = e.buf ++ [e.last] := by simp [Enc.pending, hlv, hm]
      rw [hp]
      exact literalArm_spec hlv (by omega) (by omega) (by omega)

/-- The invariant after a sample that is not final. -/
theorem Enc.RunInv.arm {e : Enc} (h : e.RunInv) (v : Byte) (hf : e.isFinal = false) :
    Enc.RunInv { (encArm e v).2 with pos := e.pos + 1 } := by
  have hs := encArm_spec h v
  obtain ⟨fh, fw, -, -, -⟩ := encArm_frame e v
  obtain ⟨hh, hw, hpos, -, -, -⟩ := h
  obtain ⟨-, hv, hm⟩ := hs.2.1 hf
  have hne : e.pos + 1 ≠ e.n := by simpa [Enc.isFinal] using hf
  refine ⟨by simpa [fh] using hh, by simpa [fw] using hw, ?_, by simp [hv], by simp [hv], fun _ => hm⟩
  simp only [Enc.n, fh, fw] at hpos hne ⊢; omega

/-- Everything `ENC.SAMPLE` can do in phase `Run`. -/
def State.afterSample (s : State) (v : Byte) : State :=
  let t := (s.written (tokensBytes (encArm s.enc v).1)).setEnc (encArm s.enc v).2
  if s.enc.isFinal then encFrameStart t else t.setEnc { t.enc with pos := t.enc.pos + 1 }

theorem encSample_ok {s : State} {v : Byte} (hr : s.enc.phase = .run)
    (hs : s.sinkTakes (tokensBytes (encArm s.enc v).1).length) : encSample v s = .ok () (s.afterSample v) := by
  simp only [encSample, hr, ne_eq, not_true_eq_false, if_false, emitTokens_eq, writeBytes_ok hs, Res.bind_ok,
    State.afterSample]
  split <;> rfl

/-- Everything `ENC.SAMPLE` can do: all its tokens are written and the registers move on, or the sink refuses a byte. -/
theorem encSample_ensures (v : Byte) (s : State) :
    (encSample v s).Ensures (fun _ t => s.enc.phase = .run ∧ t = s.afterSample v)
      (fun f t => s.enc.phase = .run ∧ ∃ pre b post, tokensBytes (encArm s.enc v).1 = pre ++ b :: post ∧
        t = (s.written pre).drawSink ∧ f = .sinkFailure (s.bsw.out ++ pre).length) := by
  unfold encSample
  split
  · trivial
  · next hr =>
    have hr : s.enc.phase = .run := by simpa using hr
    rw [emitTokens_eq, Res.ensures_bind]
    refine (writeBytes_ensures _ s).mono ?_ ?_
    · rintro _ t ⟨-, rfl⟩
      simp only [State.afterSample]
      split <;> exact ⟨hr, rfl⟩
    · rintro f t ⟨pre, b, post, h, -, ht, hf⟩
      exact ⟨hr, pre, b, post, h, ht, hf⟩

/-- The state after `ENC.START` with legal dimensions and a sink that takes the header. -/
def State.afterStart (s : State) (h w : Half) : State :=
  let t := encFrameStart ((s.written (headerBytes h w)).setEnc { s.enc with height := h, width := w })
  t.setEnc { t.enc with phase := .run }

theorem encStart_ok {s : State} {h w : Half} (hi : s.enc.phase = .idle) (hh : h ≠ 0) (hw : w ≠ 0)
    (hs : s.sinkTakes 4) : encStart h w s = .ok () (s.afterStart h w) := by
  have h1 : (s.setEnc { s.enc with height := h, width := w }).sinkTakes (halfBytes h).length :=
    fun a ha => hs a (List.take_subset_take_left _ (by simp) ha)
  have h2 : ((s.setEnc { s.enc with height := h, width := w }).written (halfBytes h)).sinkTakes (halfBytes w).length :=
    State.sinkTakes.after (fun a ha => hs a (by simpa using ha))
  rw [encStart, if_neg (by simp [hi]), if_neg (not_or.2 ⟨hh, hw⟩), bswWriteU16_eq, writeBytes_ok h1, Res.bind_ok,
    bswWriteU16_eq, writeBytes_ok h2, Res.bind_ok, State.written_append]
  rfl

/-- Everything `ENC.START` can do. -/
theorem encStart_ensures (h w : Half) (s : State) :
    (encStart h w s).Ensures (fun _ t => s.enc.phase = .idle ∧ h ≠ 0 ∧ w ≠ 0 ∧ t = s.afterStart h w)
      (fun f t => s.enc.phase = .idle ∧
        (((h = 0 ∨ w = 0) ∧ f = .invalidHeader h w ∧ t = s) ∨
          (h ≠ 0 ∧ w ≠ 0 ∧ ∃ pre b post, headerBytes h w = pre ++ b :: post ∧
            t = ((s.setEnc { s.enc with height := h, width := w }).written pre).drawSink ∧
            f = .sinkFailure (s.bsw.out ++ pre).length))) := by
  unfold encStart
  split
  · trivial
  · next hi =>
    have hi : s.enc.phase = .idle := by simpa using hi
    split
    · next hz => exact ⟨hi, .inl ⟨hz, rfl, rfl⟩⟩
    · next hz =>
      rw [not_or] at hz
      have hw2 : ∀ t : State, (bswWriteU16 h t).bind (fun _ s1 => bswWriteU16 w s1) = writeBytes (headerBytes h w) t := by
        intro t; simp only [bswWriteU16_eq, headerBytes, writeBytes_append]
      rw [← Res.bind_assoc, hw2, Res.ensures_bind]
      refine (writeBytes_ensures _ _).mono ?_ ?_
      · rintro _ t ⟨-, rfl⟩
        exact ⟨hi, hz.1, hz.2, rfl⟩
      · rintro f t ⟨pre, b, post, he, -, ht, hf⟩
        exact ⟨hi, .inr ⟨hz.1, hz.2, pre, b, post, he, ht, hf⟩⟩

end Sys2Proof.Machine
end

