-- ==== Sys2Proof/Laws/Stream.lean ====
section
/-! SUPPORT. The laws of the stream elements: placing a list of samples, the whole effect of `LIT` and `RPT` (R198, R199),
and the same effect as the frame loop of `DEC.FRAME` performs it on the bytes of a sequence of tokens. -/

namespace Sys2Proof.Machine

/-- The state after the samples of a token in progress have been placed one by one. -/
def State.placed (s : State) (samples : List Byte) : State :=
  (s.setFb
    { s.fb with pix := s.fb.pix ++ samples.map greyPixel, fcur := s.fb.fcur + samples.length }).setDec
    { s.dec with
      remaining := s.dec.remaining - samples.length
      dmode := if s.dec.remaining ≤ samples.length then .readCount else s.dec.dmode }

@[simp] theorem State.placed_fields (s : State) (samples : List Byte) :
    (s.placed samples).bsr = s.bsr ∧ (s.placed samples).bsw = s.bsw ∧ (s.placed samples).enc = s.enc ∧
    (s.placed samples).frames = s.frames ∧ (s.placed samples).sinkAnswers = s.sinkAnswers ∧
    (s.placed samples).requests = s.requests ∧ (s.placed samples).result = s.result ∧
    (s.placed samples).encFree = s.encFree ∧ (s.placed samples).decFree = s.decFree ∧
    (s.placed samples).fb.constructed = s.fb.constructed ∧ (s.placed samples).fb.height = s.fb.height ∧
    (s.placed samples).fb.width = s.fb.width ∧ (s.placed samples).fb.n = s.fb.n ∧
    (s.placed samples).fb.fcur = s.fb.fcur + samples.length ∧
    (s.placed samples).fb.pix = s.fb.pix ++ samples.map greyPixel ∧
    (s.placed samples).dec.phase = s.dec.phase ∧ (s.placed samples).dec.fault = s.dec.fault ∧
    (s.placed samples).dec.pixel = s.dec.pixel ∧
    (s.placed samples).dec.remaining = s.dec.remaining - samples.length :=
  ⟨rfl, rfl, rfl, rfl, rfl, rfl, rfl, rfl, rfl, rfl, rfl, rfl, rfl, rfl, rfl, rfl, rfl, rfl, rfl⟩

theorem State.placed_append (s : State) (as bs : List Byte) : (s.placed as).placed bs = s.placed (as ++ bs) := by
  simp [State.placed, State.setFb, State.setDec, Nat.add_assoc, Nat.sub_sub]
  split_ifs <;> first | rfl | omega

theorem State.placed_nil {s : State} (h : s.dec.remaining ≠ 0 ∨ s.dec.dmode = .readCount) : s.placed [] = s := by
  cases s with
  | mk bsr bsw fb enc dec =>
    cases dec with
    | mk dmode remaining =>
      simp only [State.placed, State.setFb, State.setDec, List.map_nil, List.append_nil, List.length_nil, Nat.add_zero,
        Nat.sub_zero]
      rcases h with h | h
      · simp only at h
        rw [if_neg (by omega)]
      · simp only at h
        subst h
        simp

/-- Placing one sample where the frame has room. -/
theorem placeSample_eq {s : State} {v : Byte} (hc : s.fb.constructed = true) (hr : s.fb.fcur < s.fb.n)
    (hl : s.fb.pix.length = s.fb.fcur) : placeSample v s = .ok () (s.placed [v]) := by
  rw [placeSample_ok hc (by simp [Fb.isFull]; omega), pixWrite_next hl]
  have : (s.dec.remaining - 1 = 0) = (s.dec.remaining ≤ 1) := by
    apply propext; omega
  simp [State.placed, countDown, State.setFb, State.setDec, this]

/-- `m` `Repeat` steps (R199). -/
theorem repeatSamples_eq {m : Nat} {s : State} (hc : s.fb.constructed = true) (hr : s.fb.fcur + m ≤ s.fb.n)
    (hl : s.fb.pix.length = s.fb.fcur) (h0 : s.dec.remaining ≠ 0 ∨ s.dec.dmode = .readCount) :
    repeatSamples m s = .ok () (s.placed (List.replicate m s.dec.pixel)) := by
  induction m generalizing s with
  | zero => simp [repeatSamples, State.placed_nil h0]
  | succ m ih =>
    have h1 : (s.placed [s.dec.pixel]).dec.remaining ≠ 0 ∨ (s.placed [s.dec.pixel]).dec.dmode = .readCount := by
      rw [or_iff_not_imp_left]
      intro h
      simp [State.placed] at h ⊢
      intro h2; omega
    rw [repeatSamples, repeatStep, placeSample_eq hc (by omega) hl, Res.bind_ok,
      ih (by simpa using hc) (by simp; omega) (by simp [hl]) h1, State.placed_append]
    simp [List.replicate_succ]

theorem State.pass_pass (s : State) (j k : Nat) : (s.pass j).pass k = s.pass (j + k) := by
  simp [State.pass, State.setCur, State.setBsr, Nat.add_assoc]

theorem State.pass_placed (s : State) (k : Nat) (samples : List Byte) :
    (s.placed samples).pass k = (s.pass k).placed samples := rfl

@[simp] theorem State.pass_fields (s : State) (k : Nat) :
    (s.pass k).bsr = ⟨s.bsr.buf, s.bsr.len, s.bsr.cur + k, s.bsr.attached⟩ ∧ (s.pass k).bsw = s.bsw ∧ (s.pass k).fb = s.fb ∧
    (s.pass k).enc = s.enc ∧ (s.pass k).dec = s.dec ∧ (s.pass k).frames = s.frames ∧
    (s.pass k).sinkAnswers = s.sinkAnswers ∧ (s.pass k).requests = s.requests ∧ (s.pass k).result = s.result ∧
    (s.pass k).encFree = s.encFree ∧ (s.pass k).decFree = s.decFree :=
  ⟨rfl, rfl, rfl, rfl, rfl, rfl, rfl, rfl, rfl, rfl, rfl⟩

theorem State.pass_zero (s : State) : s.pass 0 = s := rfl

/-- `m` `Literal` steps on payload bytes `bs` (R198): with enough bytes all `m` samples are placed, else the bytes there are. -/
theorem literalSamples_eq {m : Nat} {bs : List Byte} {s : State} (hc : s.fb.constructed = true)
    (hr : s.fb.fcur + m ≤ s.fb.n) (hl : s.fb.pix.length = s.fb.fcur)
    (h0 : s.dec.remaining ≠ 0 ∨ s.dec.dmode = .readCount) :
    literalSamples m bs s =
      if m ≤ bs.length then .ok () ((s.pass m).placed (bs.take m))
      else .fault (.truncatedStream (s.bsr.cur + bs.length)) ((s.pass bs.length).placed bs) := by
  induction m generalizing s bs with
  | zero => simp [literalSamples, State.pass_zero, State.placed_nil h0]
  | succ m ih =>
    cases bs with
    | nil => simp [literalSamples, State.pass_zero, State.placed_nil h0]
    | cons b bs =>
      have h1 : ((s.pass 1).placed [b]).dec.remaining ≠ 0 ∨ ((s.pass 1).placed [b]).dec.dmode = .readCount := by
        rw [or_iff_not_imp_left]
        intro h
        simp [State.placed] at h ⊢
        intro h2; omega
      rw [literalSamples, placeSample_eq (by simpa using hc) (by simp; omega) (by simpa using hl), Res.bind_ok,
        ih (by simpa using hc) (by simp; omega) (by simp [hl]) h1]
      simp only [State.pass_placed, State.pass_pass, State.placed_append]
      simp [Nat.add_comm 1, Nat.add_assoc]

/-- Ready to meet a token (R198, R199): phase `Run`, room in the frame, at the start of a token. -/
structure MeetsToken (s : State) : Prop where
  phase : s.dec.phase = .run
  built : s.fb.constructed = true
  room : s.fb.fcur < s.fb.n
  mode : s.dec.dmode = .readCount
  pixels : s.fb.pix.length = s.fb.fcur

theorem MeetsToken.require {α : Type} {s : State} (h : MeetsToken s) (r : Res α) : requireToken s r = r := by
  have hf : s.fb.isFull = false := by have := h.room; simp [Fb.isFull]; omega
  simp [requireToken, requireRoom, requireFb, h.phase, h.built, hf, h.mode]

theorem MeetsToken.step {s : State} (h : MeetsToken s) : decStep s = readCountArm s := by
  have hf : s.fb.isFull = false := by have := h.room; simp [Fb.isFull]; omega
  rw [decStep_eq h.phase h.built hf, decArm, h.mode]

/-- The whole effect of `RPT n v` (R199). -/
theorem rpt_eq {s : State} (h : MeetsToken s) {n : Len} (hn : n ≠ 0) (v : Byte) :
    rpt n v s =
      .ok () ((beginRepeat n.toNat v (s.pass 3)).placed (List.replicate (s.fb.room n.toNat) v)) := by
  have := h.room
  have hp := len_pos hn
  have hm : s.fb.fcur + s.fb.room n.toNat ≤ s.fb.n := by unfold Fb.room; omega
  rw [rpt, if_neg hn, h.require]
  refine (repeatSamples_eq (m := s.fb.room n.toNat) (s := beginRepeat n.toNat v (s.pass 3)) ?_ ?_ ?_ ?_).trans ?_
  · exact h.built
  · exact hm
  · exact h.pixels
  · left; simp [beginRepeat]; omega
  · simp [beginRepeat]

/-- The whole effect of `LIT n [b0, ...]` (R198), on a payload that may be cut short. -/
theorem lit_eq {s : State} (h : MeetsToken s) {n : Len} (hn : n ≠ 0) (p : List Byte) :
    lit n p s =
      if s.fb.room n.toNat ≤ p.length then
        .ok () ((beginLiteral n.toNat (s.pass (2 + s.fb.room n.toNat))).placed (p.take (s.fb.room n.toNat)))
      else
        .fault (.truncatedStream (s.bsr.cur + 2 + p.length)) ((beginLiteral n.toNat (s.pass (2 + p.length))).placed p) := by
  have := h.room
  have hp := len_pos hn
  have hm : s.fb.fcur + s.fb.room n.toNat ≤ s.fb.n := by unfold Fb.room; omega
  rw [lit, if_neg hn, h.require]
  refine (literalSamples_eq (m := s.fb.room n.toNat) (bs := p) (s := beginLiteral n.toNat (s.pass 2)) ?_ ?_ ?_ ?_).trans ?_
  · exact h.built
  · exact hm
  · exact h.pixels
  · left; simp [beginLiteral]; omega
  · have e : ∀ k, (beginLiteral n.toNat (s.pass 2)).pass k = beginLiteral n.toNat (s.pass (2 + k)) := by
      intro k; rw [← State.pass_pass]; rfl
    simp only [e]
    rfl

/-! ## The frame loop on the bytes of tokens -/

/-- The frame loop, started inside a token with its samples at hand, places them: `Repeat` steps. -/
theorem fillLoop_repeat {m : Nat} {s : State} (h : DecodeRuns s) (hm : s.dec.dmode = .repeating)
    (hr : s.dec.remaining = m) (hroom : s.fb.fcur + m ≤ s.fb.n) :
    fillLoop s = fillLoop (s.placed (List.replicate m s.dec.pixel)) := by
  induction m generalizing s with
  | zero =>
    have := h.regs
    simp [Dec.RunInv, hm] at this; omega
  | succ m ih =>
    have hf : s.fb.isFull = false := by simp [Fb.isFull]; omega
    have hs := decStep_ensures h
    have hd : decStep s = .ok () (s.placed [s.dec.pixel]) := by
      rw [decStep_eq h.phase h.built hf, decArm, hm]
      exact placeSample_eq h.built (by omega) h.fb.2.2.1
    rw [hd] at hs
    obtain ⟨-, h1, -, -⟩ := hs
    rw [fillLoop_eq h, hf, hd]
    simp only [Bool.false_eq_true, if_false, Res.bind_ok]
    cases m with
    | zero => simp
    | succ m =>
      rw [ih h1 (by simp [State.placed, hr, hm]) (by simp [hr]) (by simp; omega), State.placed_append]
      simp [List.replicate_succ]

/-- The same with `Literal` steps: the samples are the next bytes of the buffer. -/
theorem fillLoop_literal {p rest : List Byte} {s : State} (h : DecodeRuns s) (hm : s.dec.dmode = .literal)
    (hr : s.dec.remaining = p.length) (hroom : s.fb.fcur + p.length ≤ s.fb.n) (hb : s.bytesAtCursor = p ++ rest) :
    fillLoop s = fillLoop ((s.pass p.length).placed p) := by
  induction p generalizing s with
  | nil =>
    have := h.regs
    simp [Dec.RunInv, hm, hr] at this
  | cons b p ih =>
    simp only [List.length_cons] at hr hroom
    have hf : s.fb.isFull = false := by simp [Fb.isFull]; omega
    have hs := decStep_ensures h
    obtain ⟨hread, hnext⟩ := bsrReadU8_cons (by simpa using hb)
    have hd : decStep s = .ok () ((s.pass 1).placed [b]) := by
      rw [decStep_eq h.phase h.built hf, decArm, hm]
      dsimp only
      rw [literalStep, hread, Res.bind_ok]
      exact placeSample_eq (by simpa using h.built) (by simp; omega) (by simpa using h.fb.2.2.1)
    rw [hd] at hs
    obtain ⟨-, h1, -, -⟩ := hs
    have hb1 : ((s.pass 1).placed [b]).bytesAtCursor = p ++ rest := by
      rw [← hnext]; exact bytesAtCursor_congr (by simp [State.pass])
    rw [fillLoop_eq h, hf, hd]
    simp only [Bool.false_eq_true, if_false, Res.bind_ok]
    cases p with
    | nil => simp
    | cons c p =>
      rw [ih h1 (by simp [State.placed, hr, hm]) (by simp [hr]) (by simp at hroom ⊢; omega) hb1]
      simp only [State.pass_placed, State.pass_pass, State.placed_append]
      simp [Nat.add_comm 1]

theorem Token.Legal.samples_length {t : Token} (h : t.Legal) :
    1 ≤ t.samples.length ∧ t.samples.length ≤ Config.maxRun := by
  cases t with
  | lit n b => obtain ⟨h1, h2, h3⟩ := h; simp [Token.samples, h3]; exact ⟨h1, h2⟩
  | rpt n v => simpa [Token.samples, Token.Legal] using h

/-- The count field of a legal token (R102, R106). -/
theorem Token.Legal.bytes_eq {t : Token} (h : t.Legal) :
    ∃ n : Len, n ≠ 0 ∧ n.toNat = t.samples.length ∧
      match t with
      | .lit _ b => t.bytes = hiByte (countField false n) :: loByte (countField false n) :: b
      | .rpt _ v => t.bytes = [hiByte (countField true n), loByte (countField true n), v] := by
  have key : ∀ n : Nat, 1 ≤ n → n ≤ Config.maxRun →
      BitVec.ofNat 15 n ≠ 0 ∧ (BitVec.ofNat 15 n).toNat = n ∧
      BitVec.ofNat 16 n = countField false (BitVec.ofNat 15 n) ∧
      BitVec.ofNat 16 (Config.kindBit.toNat + n) = countField true (BitVec.ofNat 15 n) := by
    intro n h1 h2
    simp only [Config.maxRun] at h2
    have hv : (BitVec.ofNat 15 n).toNat = n := by simp; omega
    refine ⟨fun h0 => ?_, hv, ?_, ?_⟩
    · rw [h0] at hv; simp at hv; omega
    · apply BitVec.eq_of_toNat_eq; rw [countField_toNat, hv]; simp; omega
    · apply BitVec.eq_of_toNat_eq; rw [countField_toNat, hv]; simp [Config.kindBit]; omega
  cases t with
  | lit n b =>
    obtain ⟨h1, h2, h3⟩ := h
    obtain ⟨k1, k2, k3, -⟩ := key n h1 h2
    exact ⟨_, k1, by rw [k2]; exact h3.symm, by simp [Token.bytes, halfBytes, k3]⟩
  | rpt n v =>
    obtain ⟨h1, h2⟩ := h
    obtain ⟨k1, k2, -, k4⟩ := key n h1 h2
    exact ⟨_, k1, by rw [k2]; simp [Token.samples], by simp [Token.bytes, halfBytes, k4]⟩

/-- `ReadCount` on a literal count field. -/
theorem readCountArm_lit {s : State} {n : Len} {rest : List Byte} (hn : n ≠ 0)
    (hb : s.bytesAtCursor = hiByte (countField false n) :: loByte (countField false n) :: rest) :
    readCountArm s = .ok () (beginLiteral n.toNat (s.pass 2)) ∧ (s.pass 2).bytesAtCursor = rest := by
  obtain ⟨hread, hnext⟩ := bsrReadU16_cons hb
  rw [bigEndian_hi_lo] at hread
  have hres : reservedCount (countField false n) = false := by
    rw [← Bool.not_eq_true, reservedCount_iff, countLen_countField]; exact hn
  have hlt : countField false n < Config.kindBit := (raw_lt_kindBit_iff _).2 (countKind_countField _ _)
  refine ⟨?_, hnext⟩
  rw [readCountArm, hread, Res.bind_ok, hres, if_neg (by simp), if_pos hlt, countField_toNat]
  simp [State.pass]

/-- `ReadCount` on a repeat count field and its value. -/
theorem readCountArm_rpt {s : State} {n : Len} {v : Byte} {rest : List Byte} (hn : n ≠ 0)
    (hb : s.bytesAtCursor = hiByte (countField true n) :: loByte (countField true n) :: v :: rest) :
    readCountArm s = .ok () (beginRepeat n.toNat v (s.pass 3)) ∧ (s.pass 3).bytesAtCursor = rest := by
  obtain ⟨hread, hnext⟩ := bsrReadU16_cons hb
  obtain ⟨hread2, hnext2⟩ := bsrReadU8_cons hnext
  rw [bigEndian_hi_lo] at hread
  have hres : reservedCount (countField true n) = false := by
    rw [← Bool.not_eq_true, reservedCount_iff, countLen_countField]; exact hn
  have hlt : ¬ countField true n < Config.kindBit := by rw [raw_lt_kindBit_iff, countKind_countField]; simp
  refine ⟨?_, hnext2⟩
  rw [readCountArm, hread, Res.bind_ok, hres, if_neg (by simp), if_neg hlt, hread2, Res.bind_ok,
    raw_sub_toNat_of_rpt (countKind_countField _ _), countLen_countField]
  rfl

/-- What the frame loop leaves of a state once it has consumed tokens with the given samples. -/
structure Consumed (s u : State) (samples rest : List Byte) : Prop where
  runs : DecodeRuns u
  keeps : StepKeeps s u
  mode : u.dec.dmode = .readCount
  bytes : u.bytesAtCursor = rest
  fcur : u.fb.fcur = s.fb.fcur + samples.length
  pix : u.fb.pix = s.fb.pix ++ samples.map greyPixel

theorem StepKeeps.placed (s : State) (samples : List Byte) : StepKeeps s (s.placed samples) :=
  ⟨⟨rfl, rfl, rfl, rfl, rfl, rfl, rfl, rfl, rfl, le_refl _, id, List.prefix_rfl, fun h => ⟨h, rfl, rfl⟩⟩, rfl, rfl, rfl, rfl⟩

theorem DecodeRuns.placed {s : State} (h : DecodeRuns s) {samples : List Byte} (hlen : s.dec.remaining = samples.length)
    (hroom : s.fb.fcur + samples.length ≤ s.fb.n) : DecodeRuns (s.placed samples) where
  bsr := h.bsr
  fb := by
    obtain ⟨h1, -, h3, h4⟩ := h.fb
    refine ⟨h1, hroom, by simp [h3], ?_⟩
    simp only [State.placed_fields, List.mem_append, List.mem_map]
    rintro p (hp | ⟨v, -, rfl⟩)
    · exact h4 p hp
    · exact greyPixel_grey v
  frames := h.frames
  phase := h.phase
  fault := h.fault
  built := h.built
  regs := by simp [State.placed, Dec.RunInv, hlen]

/-- The frame loop consumes one whole token. -/
theorem fillLoop_token {t : Token} {rest : List Byte} {s : State} (h : DecodeRuns s) (hm : s.dec.dmode = .readCount)
    (ht : t.Legal) (hroom : s.fb.fcur + t.samples.length ≤ s.fb.n) (hb : s.bytesAtCursor = t.bytes ++ rest) :
    ∃ u, fillLoop s = fillLoop u ∧ Consumed s u t.samples rest := by
  obtain ⟨hpos, hmax⟩ := ht.samples_length
  obtain ⟨n, hn, hlen, hbytes⟩ := ht.bytes_eq
  have hf : s.fb.isFull = false := by simp [Fb.isFull]; omega
  have hs := decStep_ensures h
  rw [fillLoop_eq h, hf]
  simp only [Bool.false_eq_true, if_false]
  cases t with
  | lit k p =>
    simp only at hbytes
    rw [hbytes] at hb
    obtain ⟨hd, hrest⟩ := readCountArm_lit hn hb
    rw [decStep_eq h.phase h.built hf, decArm, hm] at hs ⊢
    simp only [Token.samples] at *
    rw [hd] at hs ⊢
    obtain ⟨-, h1, k1, -⟩ := hs
    have hrem : (beginLiteral n.toNat (s.pass 2)).dec.remaining = p.length := hlen
    refine ⟨_, fillLoop_literal h1 rfl hrem hroom hrest, ?_⟩
    have hcur := hrest
    have hbound : (beginLiteral n.toNat (s.pass 2)).bsr.cur + p.length ≤ (beginLiteral n.toNat (s.pass 2)).bsr.len := by
      have e := bytesAtCursor_length (s.pass 2)
      have := h1.bsr.2.2.1
      rw [hrest] at e
      simp [beginLiteral] at e this ⊢
      omega
    have h2 : DecodeRuns ((beginLiteral n.toNat (s.pass 2)).pass p.length) :=
      ⟨h1.toDecodeSound.setCur hbound, h1.phase, h1.fault, h1.built, h1.regs⟩
    refine ⟨h2.placed hrem hroom, (k1.trans (StepKeeps.setCur hbound)).trans (StepKeeps.placed _ _), ?_, ?_, rfl, rfl⟩
    · simp only [State.placed, State.setDec_fields, State.pass_fields]
      rw [if_pos (le_of_eq hrem)]
    · have : ((s.pass 2).pass p.length).bytesAtCursor = rest := by
        refine (bytesAtCursor_setCur (s.pass 2) p.length).trans ?_
        rw [hrest]; simp
      rw [← this]; exact bytesAtCursor_congr rfl
  | rpt k v =>
    simp only at hbytes
    rw [hbytes] at hb
    obtain ⟨hd, hrest⟩ := readCountArm_rpt (rest := rest) hn hb
    rw [decStep_eq h.phase h.built hf, decArm, hm] at hs ⊢
    simp only [Token.samples, List.length_replicate] at *
    rw [hd] at hs ⊢
    obtain ⟨-, h1, k1, -⟩ := hs
    have hrem : (beginRepeat n.toNat v (s.pass 3)).dec.remaining = k := hlen
    refine ⟨_, fillLoop_repeat h1 rfl hrem hroom, ?_⟩
    refine ⟨h1.placed (by simpa using hrem) (by rw [List.length_replicate]; exact hroom), k1.trans (StepKeeps.placed _ _), ?_, ?_, by simp [beginRepeat], rfl⟩
    · simp [State.placed, hrem]
    · rw [← hrest]; exact bytesAtCursor_congr rfl

theorem Consumed.refl {s : State} (h : DecodeRuns s) (hm : s.dec.dmode = .readCount) :
    Consumed s s [] s.bytesAtCursor := ⟨h, StepKeeps.refl s, hm, rfl, by simp, by simp⟩

theorem Consumed.trans {s t u : State} {as bs rest rest' : List Byte} (h : Consumed s t as rest)
    (k : Consumed t u bs rest') : Consumed s u (as ++ bs) rest' :=
  ⟨k.runs, h.keeps.trans k.keeps, k.mode, k.bytes, by simp [k.fcur, h.fcur]; omega, by simp [k.pix, h.pix]⟩

/-- The frame loop consumes a sequence of whole tokens. -/
theorem fillLoop_tokens {ts : List Token} {rest : List Byte} {s : State} (h : DecodeRuns s)
    (hm : s.dec.dmode = .readCount) (ht : ∀ t ∈ ts, t.Legal)
    (hroom : s.fb.fcur + (tokensSamples ts).length ≤ s.fb.n) (hb : s.bytesAtCursor = tokensBytes ts ++ rest) :
    ∃ u, fillLoop s = fillLoop u ∧ Consumed s u (tokensSamples ts) rest := by
  induction ts generalizing s with
  | nil =>
    refine ⟨s, rfl, ?_⟩
    have := Consumed.refl h hm
    rwa [hb] at this
  | cons t ts ih =>
    simp only [tokensSamples, tokensBytes, List.flatMap_cons, List.length_append, List.append_assoc] at hroom hb ⊢
    obtain ⟨u, hu, hcu⟩ := fillLoop_token h hm (ht t (by simp)) (by omega) hb
    have hn := hcu.keeps.n h.built
    obtain ⟨w, hw, hcw⟩ := ih hcu.runs hcu.mode (fun x hx => ht x (by simp [hx]))
      (by rw [hn, hcu.fcur]; simp only [tokensSamples]; omega) hcu.bytes
    exact ⟨w, hu.trans hw, hcu.trans hcw⟩

/-- One `DEC.FRAME` on the bytes of tokens that fill a frame exactly (R205): the frame of their samples is handed over and
the cursor stands after them. -/
theorem decFrame_tokens {ts : List Token} {rest : List Byte} {s : State} (h : DecodeRuns s)
    (hbd : s.atFrameBoundary = true) (ht : ∀ t ∈ ts, t.Legal)
    (hn : (tokensSamples ts).length = s.fb.n) (hb : s.bytesAtCursor = tokensBytes ts ++ rest) :
    ∃ u, decFrame s = .ok (some (greyFrame s.fb.height s.fb.width (tokensSamples ts))) u ∧ DecodeRuns u ∧
      DecodeKeeps s u ∧ u.frames = s.frames ++ [greyFrame s.fb.height s.fb.width (tokensSamples ts)] ∧
      u.bytesAtCursor = rest ∧ u.dec.dmode = .readCount ∧ u.atFrameBoundary = true := by
  have hpos := h.fb.n_pos h.built
  have he : s.bsr.atEnd = false := by
    rw [← Bool.not_eq_true, atEnd_iff h.bsr.2.2.1, hb]
    cases ts with
    | nil => simp [tokensSamples] at hn; omega
    | cons t ts => cases t <;> simp [tokensBytes, Token.bytes, halfBytes]
  have hr := h.frameStart
  have hk0 := DecodeKeeps.frameStart s
  obtain ⟨u, hu, hc⟩ := fillLoop_tokens hr rfl ht (by rw [hn]; simp [decFrameStart, Fb.n])
    (rest := rest) (by rw [← hb]; exact bytesAtCursor_congr rfl)
  have hun : u.fb.n = s.fb.n := (hc.keeps.n h.built).trans rfl
  have hfull : u.fb.isFull = true := by
    have := hc.fcur
    simp [decFrameStart] at this
    simp [Fb.isFull, this, hun, hn]
  have hloop : fillFrame s.emptyFb.fb.n
      (decFrameStart s.emptyFb) = .ok () u := by
    have : fillLoop u = .ok () u := by rw [fillLoop_eq hc.runs, hfull]; rfl
    rw [← this, ← hu]; rfl
  have hdims := hc.keeps.dims h.built
  have hframe : u.fb.frame = greyFrame s.fb.height s.fb.width (tokensSamples ts) := by
    have hp := hc.pix
    simp [decFrameStart] at hp
    simp [Fb.frame, greyFrame, hdims.2.1, hdims.2.2, hp, hun, decFrameStart, ← List.map_take]
    rw [List.take_of_length_le (by omega)]
  refine ⟨u.setFrames (u.frames ++ [u.fb.frame]), ?_, ?_, ?_, ?_, ?_, hc.mode, atFrameBoundary_of_full hfull⟩
  · rw [decFrame, requireBoundary_eq h.phase hbd, he]
    simp only [Bool.false_eq_true, if_false]
    rw [fbRestart_ok h.built, Res.bind_ok, hloop, Res.bind_ok, fbEmit_ok hc.runs.built hfull, Res.bind_ok, hframe]
  · refine ⟨⟨hc.runs.bsr, hc.runs.fb, ?_⟩, hc.runs.phase, hc.runs.fault, hc.runs.built, hc.runs.regs⟩
    intro f hf
    rcases List.mem_append.1 hf with hf | hf
    · exact hc.runs.frames f hf
    · rw [List.mem_singleton.1 hf]; exact hc.runs.fb.frame_whole hc.runs.built hfull
  · refine (hk0.trans hc.keeps.toDecodeKeeps).trans ?_
    exact ⟨rfl, rfl, rfl, rfl, rfl, rfl, rfl, rfl, rfl, le_refl _, id, List.prefix_append _ _, fun h => ⟨h, rfl, rfl⟩⟩
  · have := hc.keeps.sameFrames
    simp [hframe, this, decFrameStart]
  · rw [← hc.bytes]; exact bytesAtCursor_congr rfl

end Sys2Proof.Machine
end

