-- ==== Sys2Proof/Laws/Paths.lean ====
section
/-! SUPPORT. The paths share nothing (R3, R86): an operation of the decode path reads and writes the decode side of the state
alone, an operation of the encode path the encode side. `exec_decodeLocal` and `exec_encodeLocal` say so of every
operation: on a state put together from two sides it does what it does on its own side and leaves the other. -/

namespace Sys2Proof.Machine

/-- `e` with the decode side of `s`. -/
def overDecode (s e : State) : State :=
  { e with bsr := s.bsr, fb := s.fb, dec := s.dec, frames := s.frames, decFree := s.decFree }

/-- `e` with the encode side of `s`. -/
def overEncode (s e : State) : State :=
  { e with enc := s.enc, bsw := s.bsw, sinkAnswers := s.sinkAnswers, encFree := s.encFree }

def Res.mapState {α} (g : State → State) : Res α → Res α
  | .ok a t => .ok a (g t)
  | .fault f t => .fault f (g t)
  | .refused r => .refused r

/-- An operation that depends on the decode side alone and leaves the rest. -/
def DecodeLocal {α} (f : State → Res α) : Prop := ∀ s e, f (overDecode s e) = Res.mapState (overDecode · e) (f s)

/-- An operation that depends on the encode side alone and leaves the rest. -/
def EncodeLocal {α} (f : State → Res α) : Prop := ∀ s e, f (overEncode s e) = Res.mapState (overEncode · e) (f s)

theorem DecodeLocal.bind {α β} {f : State → Res α} {k : α → State → Res β} (h : DecodeLocal f)
    (hk : ∀ a, DecodeLocal (k a)) : DecodeLocal (fun s => (f s).bind (k)) := by
  intro s e
  simp only [h s e]
  cases f s with
  | ok a t => simp [Res.mapState, hk a t e]
  | fault _ _ => rfl
  | refused _ => rfl

theorem EncodeLocal.bind {α β} {f : State → Res α} {k : α → State → Res β} (h : EncodeLocal f)
    (hk : ∀ a, EncodeLocal (k a)) : EncodeLocal (fun s => (f s).bind (k)) := by
  intro s e
  simp only [h s e]
  cases f s with
  | ok a t => simp [Res.mapState, hk a t e]
  | fault _ _ => rfl
  | refused _ => rfl

theorem DecodeLocal.ite {α} {c : State → Prop} [∀ s, Decidable (c s)] {f g : State → Res α} (hc : ∀ s e, c
    (overDecode s e) = c s) (hf : DecodeLocal f) (hg : DecodeLocal g) :
   DecodeLocal (fun s => if c s then f s else g s) := by
  intro s e
  simp only [hc]
  split
  · exact hf s e
  · exact hg s e

theorem EncodeLocal.ite {α} {c : State → Prop} [∀ s, Decidable (c s)] {f g : State → Res α} (hc : ∀ s e, c
    (overEncode s e) = c s) (hf : EncodeLocal f) (hg : EncodeLocal g) :
   EncodeLocal (fun s => if c s then f s else g s) := by
  intro s e
  simp only [hc]
  split
  · exact hf s e
  · exact hg s e

theorem DecodeLocal.ok {α} {a : State → α} {g : State → State} (ha : ∀ s e, a (overDecode s e) = a s)
    (hg : ∀ s e, g (overDecode s e) = overDecode (g s) e) : DecodeLocal (fun s => .ok (a s) (g s)) := by
  intro s e; simp [Res.mapState, ha, hg]

theorem DecodeLocal.fault {α} {a : State → FaultRecord} {g : State → State} (ha : ∀ s e, a (overDecode s e) = a s)
    (hg : ∀ s e, g (overDecode s e) = overDecode (g s) e) : DecodeLocal (α := α) (fun s => .fault (a s) (g s)) := by
  intro s e; simp [Res.mapState, ha, hg]

theorem DecodeLocal.ref {α} {a : State → Refusal} (ha : ∀ s e, a (overDecode s e) = a s) : DecodeLocal (α := α)
    (fun s => .refused (a s)) := by
  intro s e; simp [Res.mapState, ha]

theorem EncodeLocal.ok {α} {a : State → α} {g : State → State} (ha : ∀ s e, a (overEncode s e) = a s)
    (hg : ∀ s e, g (overEncode s e) = overEncode (g s) e) : EncodeLocal (fun s => .ok (a s) (g s)) := by
  intro s e; simp [Res.mapState, ha, hg]

theorem EncodeLocal.fault {α} {a : State → FaultRecord} {g : State → State} (ha : ∀ s e, a (overEncode s e) = a s)
    (hg : ∀ s e, g (overEncode s e) = overEncode (g s) e) : EncodeLocal (α := α) (fun s => .fault (a s) (g s)) := by
  intro s e; simp [Res.mapState, ha, hg]

theorem EncodeLocal.ref {α} {a : State → Refusal} (ha : ∀ s e, a (overEncode s e) = a s) : EncodeLocal (α := α)
    (fun s => .refused (a s)) := by
  intro s e; simp [Res.mapState, ha]

theorem bsrReadU8_local : DecodeLocal bsrReadU8 := DecodeLocal.ite (fun _ _ => rfl) (DecodeLocal.fault
    (fun _ _ => rfl) (fun _ _ => rfl)) (DecodeLocal.ok (fun _ _ => rfl) (fun _ _ => rfl))

theorem bsrReadU16_local : DecodeLocal bsrReadU16 := DecodeLocal.ite (fun _ _ => rfl) (DecodeLocal.fault
    (fun _ _ => rfl) (fun _ _ => rfl)) (DecodeLocal.ok (fun _ _ => rfl) (fun _ _ => rfl))

theorem bsrLoad_local (b) : DecodeLocal (bsrLoad b) := DecodeLocal.ok (fun _ _ => rfl) (fun _ _ => rfl)

theorem bsrAtEnd_local : DecodeLocal bsrAtEnd := DecodeLocal.ok (fun _ _ => rfl) (fun _ _ => rfl)

theorem fbConstruct_local (h w) : DecodeLocal (fbConstruct h w) := DecodeLocal.ite (fun _ _ => rfl)
    (DecodeLocal.ref (fun _ _ => rfl)) (DecodeLocal.ite (fun _ _ => rfl) (DecodeLocal.ref (fun _ _ => rfl))
        (DecodeLocal.ok (fun _ _ => rfl) (fun _ _ => rfl)))

theorem requireFb_local {α} {f : State → Res α} (h : DecodeLocal f) : DecodeLocal (fun s => requireFb s (f s)) :=
    DecodeLocal.ite (fun _ _ => rfl) h (DecodeLocal.ref (fun _ _ => rfl))

theorem fbInsertPixel_local (v) : DecodeLocal (fbInsertPixel v) := requireFb_local (DecodeLocal.ite
    (fun _ _ => rfl) (DecodeLocal.fault (fun _ _ => rfl) (fun _ _ => rfl)) (DecodeLocal.ok (fun _ _ => rfl)
        (fun _ _ => rfl)))

theorem fbIsFull_local : DecodeLocal fbIsFull := requireFb_local (DecodeLocal.ok (fun _ _ => rfl) (fun _ _ => rfl))

theorem fbEmit_local : DecodeLocal fbEmit := requireFb_local (DecodeLocal.ite (fun _ _ => rfl) (DecodeLocal.ok
    (fun _ _ => rfl) (fun _ _ => rfl)) (DecodeLocal.ref (fun _ _ => rfl)))

theorem fbRestart_local : DecodeLocal fbRestart := requireFb_local (DecodeLocal.ok (fun _ _ => rfl) (fun _ _ => rfl))

theorem decHeader_local (h w) : DecodeLocal (decHeader h w) := DecodeLocal.ite (fun _ _ => rfl) (DecodeLocal.fault
    (fun _ _ => rfl) (fun _ _ => rfl)) ((fbConstruct_local h w).bind fun _ => DecodeLocal.ok (fun _ _ => rfl)
        (fun _ _ => rfl))

theorem requireStart_local {α} {f : State → Res α} (h : DecodeLocal f) : DecodeLocal (fun s => requireStart s (f s)) :=
  DecodeLocal.ite (fun _ _ => rfl) (DecodeLocal.ref (fun _ _ => rfl)) (DecodeLocal.ite (fun _ _ => rfl)
      (DecodeLocal.ref (fun _ _ => rfl)) (DecodeLocal.ite (fun _ _ => rfl) (DecodeLocal.ref (fun _ _ => rfl)) h))

theorem requireBoundary_local {α} {f : State → Res α} (h : DecodeLocal f) :
    DecodeLocal (fun s => requireBoundary s (f s)) :=
  DecodeLocal.ite (fun _ _ => rfl) (DecodeLocal.ref (fun _ _ => rfl)) (DecodeLocal.ite (fun _ _ => rfl) h
      (DecodeLocal.ref (fun _ _ => rfl)))

theorem decStart_local : DecodeLocal decStart := requireStart_local (bsrReadU16_local.bind fun h => bsrReadU16_local.bind fun w => decHeader_local h w)

theorem readCountArm_local : DecodeLocal readCountArm := bsrReadU16_local.bind fun _ => DecodeLocal.ite
    (fun _ _ => rfl) (DecodeLocal.fault (fun _ _ => rfl) (fun _ _ => rfl)) (DecodeLocal.ite (fun _ _ => rfl)
        (DecodeLocal.ok (fun _ _ => rfl) (fun _ _ => rfl)) (bsrReadU8_local.bind fun _ => DecodeLocal.ok
            (fun _ _ => rfl) (fun _ _ => rfl)))

theorem placeSample_local (v) : DecodeLocal (placeSample v) :=
    (fbInsertPixel_local v).bind fun _ => DecodeLocal.ok (fun _ _ => rfl) (fun _ _ => rfl)

theorem literalStep_local : DecodeLocal literalStep := bsrReadU8_local.bind fun v => placeSample_local v

theorem repeatStep_local : DecodeLocal repeatStep := fun s e => placeSample_local s.dec.pixel s e

theorem decArm_local : DecodeLocal decArm := by
  intro s e
  unfold decArm
  have : (overDecode s e).dec.dmode = s.dec.dmode := rfl
  rw [this]
  cases s.dec.dmode
  · exact readCountArm_local s e
  · exact literalStep_local s e
  · exact repeatStep_local s e

theorem requireRoom_local {α} {f : State → Res α} (h : DecodeLocal f) : DecodeLocal (fun s => requireRoom s (f s)) :=
  DecodeLocal.ite (fun _ _ => rfl) (DecodeLocal.ref (fun _ _ => rfl)) (requireFb_local (DecodeLocal.ite
      (fun _ _ => rfl) (DecodeLocal.ref (fun _ _ => rfl)) h))

theorem decStep_local : DecodeLocal decStep := requireRoom_local decArm_local

theorem fillFrame_local (k) : DecodeLocal (fillFrame k) := by
  induction k with
  | zero => exact DecodeLocal.ok (fun _ _ => rfl) (fun _ _ => rfl)
  | succ k ih => 
    exact DecodeLocal.ite (fun _ _ => rfl) (DecodeLocal.ok (fun _ _ => rfl) (fun _ _ => rfl)) ((DecodeLocal.ite
        (fun _ _ => rfl) decStep_local (DecodeLocal.ok (fun _ _ => rfl)
            (fun _ _ => rfl))).bind fun _ => decStep_local.bind fun _ => ih)

theorem decFrame_local : DecodeLocal decFrame := by
  refine requireBoundary_local (DecodeLocal.ite (fun _ _ => rfl)
      (DecodeLocal.ok (fun _ _ => rfl) (fun _ _ => rfl)) (fbRestart_local.bind fun _ => ?_))
  refine DecodeLocal.bind (f := fun s1 => fillFrame s1.fb.n (decFrameStart s1)) ?_ fun _ => ?_
  · intro s e; exact fillFrame_local s.fb.n (decFrameStart s) e
  · intro s e
    simp only [fbEmit_local s e]
    cases fbEmit s <;> rfl

theorem runFrames_local (k) : DecodeLocal (runFrames k) := by
  induction k with
  | zero => exact decFrame_local.bind fun _ => DecodeLocal.ok (fun _ _ => rfl) (fun _ _ => rfl)
  | succ k ih => 
    refine decFrame_local.bind fun f => ?_
    cases f
    · exact DecodeLocal.ok (fun _ _ => rfl) (fun _ _ => rfl)
    · exact ih

theorem decRun_local : DecodeLocal decRun := decStart_local.bind fun _ => fun s e => runFrames_local
    (s.bsr.len - s.bsr.cur) s e

theorem literalSamples_local (m) (bs) : DecodeLocal (literalSamples m bs) := by
  induction m generalizing bs with
  | zero => exact DecodeLocal.ok (fun _ _ => rfl) (fun _ _ => rfl)
  | succ m ih =>
    cases bs with
    | nil => exact DecodeLocal.fault (fun _ _ => rfl) (fun _ _ => rfl)
    | cons b bs => 
      refine DecodeLocal.bind (f := fun s => placeSample b (s.pass 1)) ?_ fun _ => ih bs
      intro s e; exact placeSample_local b (s.pass 1) e

theorem repeatSamples_local (m) : DecodeLocal (repeatSamples m) := by
  induction m with
  | zero => exact DecodeLocal.ok (fun _ _ => rfl) (fun _ _ => rfl)
  | succ m ih => exact repeatStep_local.bind fun _ => ih

theorem requireToken_local {α} {f : State → Res α} (h : DecodeLocal f) : DecodeLocal (fun s => requireToken s
    (f s)) :=
  requireRoom_local (DecodeLocal.ite (fun _ _ => rfl) h (DecodeLocal.ref (fun _ _ => rfl)))

theorem hdr_local (h w) : DecodeLocal (hdr h w) := requireStart_local (fun s e => decHeader_local h w (s.pass 4) e)

theorem rsv_local (k) : DecodeLocal (rsv k) := requireToken_local (DecodeLocal.fault (fun _ _ => rfl)
    (fun _ _ => rfl))

theorem lit_local (n p) : DecodeLocal (lit n p) := by
  unfold lit
  refine DecodeLocal.ite (c := fun _ => n = 0) (fun _ _ => rfl) (rsv_local false) (requireToken_local ?_)
  intro s e; exact literalSamples_local (s.fb.room n.toNat) p (beginLiteral n.toNat (s.pass 2)) e

theorem rpt_local (n v) : DecodeLocal (rpt n v) := by
  unfold rpt
  refine DecodeLocal.ite (c := fun _ => n = 0) (fun _ _ => rfl) (rsv_local true) (requireToken_local ?_)
  intro s e; exact repeatSamples_local (s.fb.room n.toNat) (beginRepeat n.toNat v (s.pass 3)) e

def overDecodeOutcome (e : State) : Host.Outcome State Fault Refusal → Host.Outcome State Fault Refusal
  | .next t => .next ((overDecode t e).setResult t.result)
  | .fault r => .fault r
  | .refused r => .refused r

def overEncodeOutcome (e : State) : Host.Outcome State Fault Refusal → Host.Outcome State Fault Refusal
  | .next t => .next ((overEncode t e).setResult t.result)
  | .fault r => .fault r
  | .refused r => .refused r

theorem decodeLocal_primitive {α} {g : α → OpResult} {f : State → Res α} (h : DecodeLocal f) (s e) :
   finishPrimitive .decode g (guardPath .decode (overDecode s e) (f (overDecode s e))) = overDecodeOutcome e
       (finishPrimitive .decode g (guardPath .decode s (f s))) := by
  rw [h s e]; unfold guardPath
  have : (overDecode s e).faulted .decode = s.faulted .decode := rfl
  rw [this]
  split
  · rfl
  · cases f s <;> rfl

theorem decodeLocal_composite {α} {g : α → OpResult} {f : State → Res α} (h : DecodeLocal f) (s e) :
   finishComposite .decode g (guardPath .decode (overDecode s e) (f (overDecode s e))) = overDecodeOutcome e
       (finishComposite .decode g (guardPath .decode s (f s))) := by
  rw [h s e]; unfold guardPath
  have : (overDecode s e).faulted .decode = s.faulted .decode := rfl
  rw [this]
  split
  · rfl
  · cases f s <;> rfl

theorem encodeLocal_primitive {α} {g : α → OpResult} {f : State → Res α} (h : EncodeLocal f) (s e) :
   finishPrimitive .encode g (guardPath .encode (overEncode s e) (f (overEncode s e))) = overEncodeOutcome e
       (finishPrimitive .encode g (guardPath .encode s (f s))) := by
  rw [h s e]; unfold guardPath
  have : (overEncode s e).faulted .encode = s.faulted .encode := rfl
  rw [this]
  split
  · rfl
  · cases f s <;> rfl

theorem encodeLocal_composite {α} {g : α → OpResult} {f : State → Res α} (h : EncodeLocal f) (s e) :
   finishComposite .encode g (guardPath .encode (overEncode s e) (f (overEncode s e))) = overEncodeOutcome e
       (finishComposite .encode g (guardPath .encode s (f s))) := by
  rw [h s e]; unfold guardPath
  have : (overEncode s e).faulted .encode = s.faulted .encode := rfl
  rw [this]
  split
  · rfl
  · cases f s <;> rfl

theorem bswWriteU8_local (v) : EncodeLocal (bswWriteU8 v) := EncodeLocal.ite (fun _ _ => rfl) (EncodeLocal.ok
    (fun _ _ => rfl) (fun _ _ => rfl)) (EncodeLocal.fault (fun _ _ => rfl) (fun _ _ => rfl))

theorem bswWriteU16_local (v) : EncodeLocal (bswWriteU16 v) := (bswWriteU8_local _).bind fun _ => bswWriteU8_local _

theorem writeBytes_local (bs) : EncodeLocal (writeBytes bs) := by
  induction bs with
  | nil => exact EncodeLocal.ok (fun _ _ => rfl) (fun _ _ => rfl)
  | cons b bs ih => exact (bswWriteU8_local b).bind fun _ => ih

theorem encStart_local (h w) : EncodeLocal (encStart h w) := by
  refine EncodeLocal.ite (fun _ _ => rfl) (EncodeLocal.ref (fun _ _ => rfl)) (EncodeLocal.ite (fun _ _ => rfl)
      (EncodeLocal.fault (fun _ _ => rfl) (fun _ _ => rfl)) ?_)
  refine EncodeLocal.bind (f := fun s => bswWriteU16 h (s.setEnc { s.enc with height := h, width :=
      w })) ?_ fun _ => (bswWriteU16_local w).bind fun _ => EncodeLocal.ok (fun _ _ => rfl) (fun _ _ => rfl)
  intro s e; exact bswWriteU16_local h (s.setEnc { s.enc with height := h, width := w }) e

theorem encSample_local (v) : EncodeLocal (encSample v) := by
  intro s e
  unfold encSample
  have h1 : (overEncode s e).enc = s.enc := rfl
  rw [h1]
  split
  · rfl
  · rw [emitTokens_eq, emitTokens_eq, writeBytes_local _ s e]
    cases writeBytes (tokensBytes (encArm s.enc v).1) s with
    | ok a t =>
      simp only [Res.mapState, Res.bind_ok]
      split <;> rfl
    | fault _ _ => rfl
    | refused _ => rfl

/-- Every operation of the decode path. -/
theorem exec_decodeLocal (j : Instr) (hj : j.path = .decode) (s e : State) : exec j
    (overDecode s e) = overDecodeOutcome e (exec j s) := by
  cases j <;> simp [Instr.path] at hj
  · exact decodeLocal_composite (hdr_local _ _) s e
  · exact decodeLocal_composite (lit_local _ _) s e
  · exact decodeLocal_composite (rpt_local _ _) s e
  · exact decodeLocal_composite (rsv_local _) s e
  · exact decodeLocal_primitive (bsrLoad_local _) s e
  · exact decodeLocal_primitive bsrReadU8_local s e
  · exact decodeLocal_primitive bsrReadU16_local s e
  · exact decodeLocal_primitive bsrAtEnd_local s e
  · exact decodeLocal_primitive (fbConstruct_local _ _) s e
  · exact decodeLocal_primitive (fbInsertPixel_local _) s e
  · exact decodeLocal_primitive fbIsFull_local s e
  · exact decodeLocal_primitive fbEmit_local s e
  · exact decodeLocal_primitive fbRestart_local s e
  · exact decodeLocal_composite decStart_local s e
  · exact decodeLocal_composite decStep_local s e
  · exact decodeLocal_composite decFrame_local s e
  · exact decodeLocal_composite decRun_local s e

/-- Every operation of the encode path. -/
theorem exec_encodeLocal (j : Instr) (hj : j.path = .encode) (s e : State) : exec j
    (overEncode s e) = overEncodeOutcome e (exec j s) := by
  cases j <;> simp [Instr.path] at hj
  · exact encodeLocal_primitive (bswWriteU8_local _) s e
  · exact encodeLocal_composite (bswWriteU16_local _) s e
  · exact encodeLocal_composite (encStart_local _ _) s e
  · exact encodeLocal_composite (encSample_local _) s e

end Sys2Proof.Machine
end

