-- ==== Sys2Proof/Laws/PerInstr.lean ====
section
/-! SUPPORT. Families of statements about every instruction as syntax. `EncodedLength` (30_encoding.md R109, R107): how many
bytes the encoding of a well-formed element has; a port operation has no encoding (R114). -/

namespace Sys2Proof.Laws

/-- `HDR` 4 bytes, `LIT` `2 + len`, `RPT` 3, `RSV` 2 (R109, R107); no encoding for a port operation (R114). -/
def EncodedLength.expected : Instr → Option Nat
  | .hdr _ _ => some 4
  | .lit n _ => some (2 + n.toNat)
  | .rpt _ _ => some 3
  | .rsv _ => some 2
  | _ => none

def EncodedLength.Statement (i : Instr) : Prop :=
  i.wellFormed = true → (encode i).map List.length = EncodedLength.expected i

theorem EncodedLength.hdr (h w : Half) : EncodedLength.Statement (.hdr h w) := fun _ => rfl

theorem EncodedLength.lit (n : Len) (p : List Byte) : EncodedLength.Statement (.lit n p) := by
  intro hw
  simp [Instr.wellFormed] at hw
  simp [encode, EncodedLength.expected, hw.2]

theorem EncodedLength.rpt (n : Len) (v : Byte) : EncodedLength.Statement (.rpt n v) := fun _ => rfl

theorem EncodedLength.rsv (k : Bool) : EncodedLength.Statement (.rsv k) := fun _ => rfl

theorem EncodedLength.bsrLoad (bytes : List Byte) : EncodedLength.Statement (.bsrLoad bytes) := fun _ => rfl

theorem EncodedLength.bsrReadU8 : EncodedLength.Statement .bsrReadU8 := fun _ => rfl

theorem EncodedLength.bsrReadU16 : EncodedLength.Statement .bsrReadU16 := fun _ => rfl

theorem EncodedLength.bsrAtEnd : EncodedLength.Statement .bsrAtEnd := fun _ => rfl

theorem EncodedLength.bswWriteU8 (v : Byte) : EncodedLength.Statement (.bswWriteU8 v) := fun _ => rfl

theorem EncodedLength.bswWriteU16 (v : Half) : EncodedLength.Statement (.bswWriteU16 v) := fun _ => rfl

theorem EncodedLength.fbConstruct (h w : Half) : EncodedLength.Statement (.fbConstruct h w) := fun _ => rfl

theorem EncodedLength.fbInsertPixel (v : Byte) : EncodedLength.Statement (.fbInsertPixel v) := fun _ => rfl

theorem EncodedLength.fbIsFull : EncodedLength.Statement .fbIsFull := fun _ => rfl

theorem EncodedLength.fbEmit : EncodedLength.Statement .fbEmit := fun _ => rfl

theorem EncodedLength.fbRestart : EncodedLength.Statement .fbRestart := fun _ => rfl

theorem EncodedLength.encStart (h w : Half) : EncodedLength.Statement (.encStart h w) := fun _ => rfl

theorem EncodedLength.encSample (v : Byte) : EncodedLength.Statement (.encSample v) := fun _ => rfl

theorem EncodedLength.decStart : EncodedLength.Statement .decStart := fun _ => rfl

theorem EncodedLength.decStep : EncodedLength.Statement .decStep := fun _ => rfl

theorem EncodedLength.decFrame : EncodedLength.Statement .decFrame := fun _ => rfl

theorem EncodedLength.decRun : EncodedLength.Statement .decRun := fun _ => rfl

end Sys2Proof.Laws
end

