-- ==== Sys2Proof/Tests/Slice0.lean ====
section
/-! SUPPORT. Small tests, with expected values from 95_test_vectors.md and the rules' own examples, and for every obligation
with hypotheses a witness: a concrete state and operands that meet all of them, clause by clause. -/

namespace Sys2Proof.Machine.Tests

/-! ## Helpers -/

/-- The state after an operation that completes. -/
def after : Host.Outcome State Fault Refusal → Option State
  | .next t => some t
  | .fault _ => none
  | .refused _ => none

/-- Why an operation is refused. -/
def refusal : Host.Outcome State Fault Refusal → Option Refusal
  | .next _ => none
  | .fault _ => none
  | .refused r => some r

/-- Power-on with a buffer attached. -/
def loaded (bytes : List Byte) : State := State.reset.setBsr ⟨Memory.ofBytes bytes, bytes.length, 0, true⟩

/-- The same with the cursor moved. -/
def loadedAt (bytes : List Byte) (cur : Nat) : State := (loaded bytes).setCur cur

/-- A decoder in phase `Run` at the given place of a frame; where a token is open, it is one of this frame. -/
def decoding (h w : Half) (bytes : List Byte) (samples : List Byte) (mode : DecMode) (owed : Nat) (pixel : Byte) : State :=
  ((loaded bytes).setFb ⟨true, h, w, samples.length, samples.map greyPixel⟩).setDec
    ⟨mode, owed, pixel, .run, .noFault, mode != .readCount⟩

/-- A decoder in phase `Run` at a frame start. -/
def atFrame (h w : Half) (bytes : List Byte) : State := decoding h w bytes [] .readCount 0 0

/-- An encoder in phase `Run`. -/
def encoding (h w : Half) (pos : Nat) (mode : EncMode) (count : Int) (lastValid : Bool) (last : Byte) (buf : List Byte) :
    State :=
  State.reset.setEnc ⟨h, w, pos, mode, count, lastValid, last, buf, .run, .noFault⟩

/-- A Frame Buffer that the host constructed and filled. -/
def filled (h w : Half) (samples : List Byte) : State :=
  State.reset.setFb ⟨true, h, w, samples.length, samples.map greyPixel⟩

/-- A path that has faulted. -/
def decodeFaulted : State := takeFault .decode (.truncatedStream 0) State.reset

def encodeFaulted : State := takeFault .encode (.invalidHeader 0 4) State.reset

theorem loaded_bsr (bytes : List Byte) : (loaded bytes).bsr.Inv := by
  refine ⟨Memory.ofBytes_wf bytes, ?_, Nat.zero_le _, nofun⟩
  have := Memory.ofBytesFrom_lt 0 bytes
  simpa [loaded, Memory.ofBytes, State.setBsr] using this

theorem fb_inv {h w : Half} {samples : List Byte} (hh : h ≠ 0) (hw : w ≠ 0)
    (hn : samples.length ≤ h.toNat * w.toNat) : Fb.Inv ⟨true, h, w, samples.length, samples.map greyPixel⟩ := by
  refine ⟨fun _ => ⟨hh, hw⟩, hn, by simp, ?_⟩
  simp only [List.mem_map]
  rintro p ⟨v, -, rfl⟩
  exact ⟨rfl, rfl⟩

theorem decoding_inv {h w : Half} {bytes samples : List Byte} {mode : DecMode} {owed : Nat} {pixel : Byte} (hh : h ≠ 0)
    (hw : w ≠ 0) (hn : samples.length ≤ h.toNat * w.toNat) (hd : Dec.RunInv ⟨mode, owed, pixel, .run, .noFault, mode != .readCount⟩) :
    (decoding h w bytes samples mode owed pixel).Inv where
  bsr := loaded_bsr bytes
  fb := fb_inv hh hw hn
  enc := ⟨by simp [Enc.FaultInv, decoding, loaded, State.setBsr, State.setFb, State.setDec, State.reset, Enc.reset],
    by simp [decoding, loaded, State.setBsr, State.setFb, State.setDec, State.reset, Enc.reset]⟩
  dec := ⟨by simp [Dec.FaultInv, decoding, State.setDec], fun _ => hd⟩
  running := fun _ => rfl
  frames := by simp [decoding, loaded, State.setBsr, State.setFb, State.setDec, State.reset]

theorem loaded_inv (bytes : List Byte) : (loaded bytes).Inv where
  bsr := loaded_bsr bytes
  fb := ⟨by simp [loaded, State.setBsr, State.reset, Fb.reset], by simp [loaded, State.setBsr, State.reset, Fb.reset],
    rfl, by simp [loaded, State.setBsr, State.reset, Fb.reset]⟩
  enc := ⟨by simp [Enc.FaultInv, loaded, State.setBsr, State.reset, Enc.reset],
    by simp [loaded, State.setBsr, State.reset, Enc.reset]⟩
  dec := ⟨by simp [Dec.FaultInv, loaded, State.setBsr, State.reset, Dec.reset],
    by simp [loaded, State.setBsr, State.reset, Dec.reset]⟩
  running := by simp [loaded, State.setBsr, State.reset, Dec.reset]
  frames := by simp [loaded, State.setBsr, State.reset]

/-! ## Well-formedness: one ill-formed term for each check, refused -/

theorem test_wf_hdr_height : (Instr.hdr 0 4).wellFormed = false := by decide

theorem test_wf_hdr_width : (Instr.hdr 4 0).wellFormed = false := by decide

theorem test_wf_lit_len : (Instr.lit 0 []).wellFormed = false := by decide

theorem test_wf_lit_payload : (Instr.lit 2 [1]).wellFormed = false := by decide

theorem test_wf_rpt_len : (Instr.rpt 0 5).wellFormed = false := by decide

theorem test_wf_construct : (Instr.fbConstruct 0 1).wellFormed = false ∧ (Instr.fbConstruct 1 0).wellFormed = false := by
  decide

theorem test_wf_encStart : (Instr.encStart 0 1).wellFormed = false ∧ (Instr.encStart 1 0).wellFormed = false := by decide

theorem test_wf_accepts : (Instr.lit 2 [1, 2]).wellFormed = true ∧ (Instr.hdr 65535 1).wellFormed = true ∧
    (Instr.rpt 0x7FFF 0).wellFormed = true ∧ (Instr.rsv true).wellFormed = true := by decide

/-! ## Decoding: the words of the spec's own encodings (R101 to R113, D-X1 to D-X9) -/

/-- R112: `HDR 1 4` = `00 01 00 04`. -/
theorem test_decode_hdr : decode .header [0x00, 0x01, 0x00, 0x04] = .element (.hdr 1 4) [] := by decide

/-- R112: `LIT 2 [1, 2]` = `00 02 01 02`. -/
theorem test_decode_lit : decode .token [0x00, 0x02, 0x01, 0x02, 0x99] = .element (.lit 2 [1, 2]) [0x99] := by decide

/-- R112: `RPT 4 5` = `80 04 05`. -/
theorem test_decode_rpt : decode .token [0x80, 0x04, 0x05] = .element (.rpt 4 5) [] := by decide

/-- D-X5, D-X6. -/
theorem test_decode_rsv : decode .token [0x00, 0x00] = .element (.rsv false) [] ∧
    decode .token [0x80, 0x00] = .element (.rsv true) [] := by decide

/-- R103 bit by bit: kind 0, len `000_0000_0000_1001` = 9; and every other len bit, on a payload that is cut (log 19). -/
theorem test_decode_lit_bits : decode .token (halfBytes 0b0000000000001001#16 ++ List.replicate 9 7) =
      .element (.lit 9 (List.replicate 9 7)) [] ∧
    decode .token (halfBytes 0b0101010101010101#16 ++ [7]) = .element (.lit 0x5555 [7]) [] := by decide

/-- R104 bit by bit: kind 1, len `100_0000_0000_0010` = 16386, value `1111_1110`. -/
theorem test_decode_rpt_bits :
    decode .token (halfBytes 0b1100000000000010#16 ++ [0b11111110#8]) = .element (.rpt 16386 254) [] := by decide

/-- D-D3, D-D7: cut fields. -/
theorem test_decode_cut : decode .header [0x00, 0x01, 0x00] = .rejected .truncatedWidth ∧
    decode .header [0x00] = .rejected .truncatedHeight ∧ decode .token [0x80] = .rejected .truncatedCount ∧
    decode .token [0x80, 0x04] = .rejected .truncatedValue := by decide

/-- R112: the encoder writes the examples. -/
theorem test_encode : encode (.hdr 1 4) = some [0, 1, 0, 4] ∧ encode (.lit 2 [1, 2]) = some [0, 2, 1, 2] ∧
    encode (.rpt 4 5) = some [0x80, 4, 5] ∧ encode (.rsv true) = some [0x80, 0] := by decide

/-- The table's words (log 17): header {height, width}; a token's count field in bits 15:0, the byte after it in 23:16. -/
theorem test_table_words : decodeTableWord 32 0x00010004 = some (.hdr 1 4) ∧
    decodeTableWord 16 0x0002 = some (.lit 2 [0, 0]) ∧ decodeTableWord 24 0x058004 = some (.rpt 4 5) ∧
    decodeTableWord 16 0x8000 = some (.rsv true) := by decide

/-- The next step runs the element that is placed at the cursor. -/
theorem test_withFetchWord : (after (step (State.reset.withFetchWord 24 0x058001))).map (fun t => t.fb.pix) =
    some [⟨5, 5, 5⟩] ∧
    (after (step (State.reset.withFetchWord 32 0x00020003))).map (fun t => (t.fb.height, t.fb.width, t.dec.phase)) =
      some (2, 3, .run) ∧
    (after (step ((loadedAt [7, 8, 9, 9, 9] 3).withFetchWord 32 0x00020003))).map (fun t => (t.fb.width, t.bsr.cur)) =
      some (3, 4) ∧
    (after (step (State.reset.withFetchWord 16 0x0000))).map (fun t => t.dec.fault) = some (.reservedCount 0) := by decide

/-! ## Bitstream Reader -/

/-- D-B2, D-B4. -/
theorem test_read_u8 : (after (exec .bsrReadU8 (loadedAt [0x12, 0x34, 0x56] 2))).map
    (fun t => (t.result, t.bsr.cur, t.bsr.atEnd)) = some (.u8 0x56, 3, true) ∧
    (after (exec .bsrReadU8 (loadedAt [0x12, 0x34, 0x56] 3))).map (fun t => (t.dec.phase, t.dec.fault, t.bsr.cur)) =
      some (.fault, .truncatedStream 3, 3) := by decide

/-- D-B5, D-B3. -/
theorem test_read_u16 : (after (exec .bsrReadU16 (loadedAt [0x12, 0x34, 0x56] 1))).map (fun t => (t.result, t.bsr.cur)) =
      some (.u16 0x3456, 3) ∧
    (after (exec .bsrReadU16 (loadedAt [0x12, 0x34, 0x56] 2))).map (fun t => (t.dec.fault, t.bsr.cur)) =
      some (.truncatedStream 2, 2) := by decide

/-- D-B7, D-B1. -/
theorem test_at_end : (after (exec .bsrAtEnd (loaded []))).map (fun t => t.result) = some (.bit true) ∧
    (after (exec .bsrAtEnd (loadedAt [0x12, 0x34, 0x56] 2))).map (fun t => t.result) = some (.bit false) := by decide

/-- D-B9. -/
theorem test_load : (after (exec (.bsrLoad [0x00, 0x01]) (loadedAt [1, 2, 3] 3))).map
    (fun t => (t.bsr.buf, t.bsr.len, t.bsr.cur, t.bsr.atEnd)) = some ([(1, 1)], 2, 0, false) := by decide

/-! ## Bitstream Writer -/

/-- D-B11, D-B13. -/
theorem test_write_u8 : (after (exec (.bswWriteU8 0xFF) (State.reset.setOut [1, 2]))).map (fun t => t.bsw.out) =
      some [1, 2, 0xFF] ∧
    (after (exec (.bswWriteU8 1) ((State.reset.setOut [0xAA]).setSinkAnswers [false]))).map
      (fun t => (t.bsw.out, t.enc.phase, t.enc.fault)) = some ([0xAA], .fault, .sinkFailure 1) := by decide

/-- D-B10, D-B14. -/
theorem test_write_u16 : (after (exec (.bswWriteU16 0x0102) State.reset)).map (fun t => t.bsw.out) = some [1, 2] ∧
    (after (exec (.bswWriteU16 0x8004) (State.reset.setSinkAnswers [true, false]))).map
      (fun t => (t.bsw.out, t.enc.fault)) = some ([0x80], .sinkFailure 1) := by decide

/-! ## Frame Buffer -/

/-- D-F1. -/
theorem test_construct : (after (exec (.fbConstruct 2 3) State.reset)).map
    (fun t => (t.fb.height, t.fb.width, t.fb.n, t.fb.fcur, t.fb.isFull)) = some (2, 3, 6, 0, false) := by decide

/-- D-F3, D-F4. -/
theorem test_insert : (after (exec (.fbInsertPixel 0) (filled 2 3 [1, 2, 3, 4, 5]))).map
    (fun t => (t.fb.pix[5]?, t.fb.fcur, t.fb.isFull)) = some (some ⟨0, 0, 0⟩, 6, true) ∧
    (after (exec (.fbInsertPixel 1) (filled 2 3 [1, 2, 3, 4, 5, 6]))).map (fun t => (t.dec.fault, t.fb.fcur)) =
      some (.bufferOverflow 6, 6) := by decide

/-- R152: `N = 4`, `fcur = 4`: true. -/
theorem test_is_full : (after (exec .fbIsFull (filled 1 4 [5, 5, 5, 5]))).map (fun t => t.result) = some (.bit true) := by
  decide

/-- D-F5, D-F6. -/
theorem test_emit : (after (exec .fbEmit (filled 2 3 [1, 2, 3, 4, 5, 6]))).map (fun t => t.frames) =
      some [greyFrame 2 3 [1, 2, 3, 4, 5, 6]] ∧
    refusal (exec .fbEmit (filled 2 3 [1, 2, 3])) = some .fbNotFull := by decide

/-- D-F7. -/
theorem test_restart : (after (exec .fbRestart (filled 2 3 [1, 2, 3, 4, 5, 6]))).map
    (fun t => (t.fb.fcur, t.fb.isFull, t.fb.pix, t.fb.height)) = some (0, false, [], 2) := by decide

/-! ## Token Encoder -/

/-- P2 line 1, D-E27. -/
theorem test_enc_start : (after (exec (.encStart 1 4) State.reset)).map
    (fun t => (t.bsw.out, t.enc.phase, t.enc.count)) = some ([0, 1, 0, 4], .run, -1) ∧
    (after (exec (.encStart 0 4) State.reset)).map (fun t => (t.bsw.out, t.enc.fault)) =
      some ([], .invalidHeader 0 4) := by decide

/-- D-E28, and D-E3's last sample (F2): pending 5, 5, then the final 7. -/
theorem test_enc_sample : refusal (exec (.encSample 1) State.reset) = some .wrongPhase ∧
    (after (exec (.encSample 7) (encoding 1 3 2 .repeatMode 1 true 5 []))).map
      (fun t => (t.bsw.out, t.enc.pos, t.enc.count)) = some ([0x80, 2, 5, 0, 1, 7], 0, -1) := by decide

/-- D-E26: the sink accepts one more byte and refuses the next. -/
theorem test_enc_sink_failure :
    (after (exec (.encSample 5)
      (((encoding 1 4 3 .repeatMode 2 true 5 []).setOut [0, 1, 0, 4]).setSinkAnswers [true, false]))).map
      (fun t => (t.bsw.out, t.enc.phase, t.enc.fault)) = some ([0, 1, 0, 4, 0x80], .fault, .sinkFailure 5) := by decide

/-! ## Token Decoder -/

/-- D-D6, and R190's example. -/
theorem test_dec_start : (after (exec .decStart (loaded [0, 0, 0]))).map (fun t => t.dec.fault) =
      some (.truncatedStream 2) ∧
    (after (exec .decStart (loaded [0, 1, 0, 4]))).map (fun t => (t.fb.height, t.fb.width, t.bsr.cur, t.dec.phase)) =
      some (1, 4, 4, .run) := by decide

/-- R190's `require`: no buffer, and a cursor that a host's read has moved. -/
theorem test_dec_start_refused : refusal (exec .decStart State.reset) = some .noBuffer ∧
    refusal (exec .decStart (loadedAt [9, 0, 1, 0, 4] 1)) = some .cursorNotAtStart := by decide

/-- R195's `require`: inside a token and inside a frame, at the end of the stream or not. On a full buffer with a token left open
(R201) the next frame starts, and so it does once the host has emptied that buffer (R262). -/
theorem test_dec_frame_boundary : refusal (exec .decFrame (decoding 1 4 [] [] .literal 2 0)) = some .insideFrame ∧
    refusal (exec .decFrame (decoding 1 4 [0x80, 4, 5] [1] .readCount 0 0)) = some .insideFrame ∧
    (after (exec .decFrame (decoding 1 2 [0x80, 2, 7] [1, 2] .literal 1 0))).map (fun t => t.frames) =
      some [greyFrame 1 2 [7, 7]] ∧
    ((after (exec .fbRestart (decoding 1 2 [0x80, 2, 7] [1, 2] .literal 1 0))).bind fun t =>
      (after (exec .decFrame t)).map (fun u => u.frames)) = some [greyFrame 1 2 [7, 7]] := by decide

/-- R191's and R193's examples. -/
theorem test_dec_step : (after (exec .decStep (atFrame 1 4 [0x80, 4, 5]))).map
    (fun t => (t.dec.remaining, t.dec.pixel, t.dec.dmode, t.bsr.cur)) = some (4, 5, .repeating, 3) ∧
    (after (exec .decStep (decoding 1 4 [1] [] .literal 2 0))).map (fun t => (t.fb.pix, t.dec.remaining, t.dec.dmode)) =
      some ([⟨1, 1, 1⟩], 1, .literal) := by decide

/-- P4: the first frame, and the second, which faults. -/
theorem test_dec_frame : (after (exec .decFrame (atFrame 1 2 [0x80, 2, 7, 0, 2, 9]))).map
    (fun t => (t.result, t.bsr.cur)) = some (.frame (some (greyFrame 1 2 [7, 7])), 3) ∧
    (after (exec .decFrame (atFrame 1 2 [0, 2, 9]))).map (fun t => (t.frames, t.fb.fcur, t.dec.fault)) =
      some ([], 1, .truncatedStream 3) := by decide

/-- D-D16: a literal token that crosses the frame boundary; D-D15. -/
theorem test_dec_run : (after (exec .decRun (loaded [0, 1, 0, 2, 0, 3, 1, 2, 3, 0x80, 1, 9]))).map
    (fun t => (t.frames, t.bsr.cur, t.dec.phase)) = some ([greyFrame 1 2 [1, 2], greyFrame 1 2 [1, 9]], 12, .done) ∧
    (after (exec .decRun (loaded [0, 2, 0, 2, 0x80, 6, 7, 0, 2, 1, 2]))).map (fun t => (t.frames, t.dec.fault)) =
      some ([greyFrame 2 2 [7, 7, 7, 7]], .truncatedStream 11) := by decide

/-! ## Stream elements -/

/-- R197's example, D-D5. -/
theorem test_hdr : (after (exec (.hdr 2 3) (loaded [0, 2, 0, 3]))).map (fun t => (t.fb.n, t.bsr.cur, t.dec.phase)) =
      some (6, 4, .run) ∧
    (after (exec (.hdr 0 4) (loaded [0, 0, 0, 4]))).map (fun t => (t.dec.fault, t.bsr.cur)) =
      some (.invalidHeader 0 4, 4) := by decide

/-- R198's example; D-D16, frame 1. -/
theorem test_lit : (after (exec (.lit 2 [1, 2]) (atFrame 1 4 [0, 2, 1, 2]))).map (fun t => (t.fb.pix, t.bsr.cur)) =
      some ([⟨1, 1, 1⟩, ⟨2, 2, 2⟩], 4) ∧
    (after (exec (.lit 3 [1, 2, 3]) (atFrame 1 2 [0, 3, 1, 2, 3]))).map
      (fun t => (t.fb.pix, t.bsr.cur, t.dec.remaining, t.dec.dmode)) =
      some ([⟨1, 1, 1⟩, ⟨2, 2, 2⟩], 4, 1, .literal) := by decide

/-- R199's example; D-D15, frame 1. -/
theorem test_rpt : (after (exec (.rpt 4 5) (atFrame 1 4 [0x80, 4, 5]))).map
    (fun t => (t.fb.pix, t.bsr.cur, t.fb.isFull)) = some (List.replicate 4 ⟨5, 5, 5⟩, 3, true) ∧
    (after (exec (.rpt 6 7) (atFrame 2 2 [0x80, 6, 7]))).map (fun t => (t.fb.fcur, t.bsr.cur, t.dec.remaining)) =
      some (4, 3, 2) := by decide

/-- D-D12: the byte after the count field is not read. -/
theorem test_rsv : (after (exec (.rsv true) (atFrame 1 1 [0x80, 0, 5]))).map
    (fun t => (t.dec.fault, t.bsr.cur, t.fb.fcur)) = some (.reservedCount 0x8000, 2, 0) := by decide

/-! ## Memory and reset -/

theorem test_memory_reset_wf : Memory.wf State.reset.bsr.buf = true := by decide

theorem test_reset : (after (step (decodeFaulted.setRequests [.reset (.path .decode)]))).map
    (fun t => (t.dec.phase, t.dec.fault)) = some (.idle, .noFault) := by decide

/-! ## Witnesses of the hypotheses -/

theorem witness_DecodeEncodeElement : (Instr.rpt 0x7FFF 0).wellFormed = true ∧
    encode (.rpt 0x7FFF 0) = some [0xFF, 0xFF, 0] := by decide

theorem witness_EncodeDecodedElement : decode .token [0x80, 0x01, 0x2A] = .element (.rpt 1 0x2A) [] := by decide

theorem witness_CountFieldPartition : (0x0001 ≤ (0x0001#16).toNat ∧ (0x0001#16).toNat ≤ 0x7FFF) ∧
    (0x0001 ≤ (0x7FFF#16).toNat ∧ (0x7FFF#16).toNat ≤ 0x7FFF) ∧ 0x8001 ≤ (0x8001#16).toNat ∧
    0x8001 ≤ (0xFFFF#16).toNat := by decide

theorem witness_ReadU8Result : (loaded [7]).dec.phase ≠ .fault ∧ (loaded [7]).bsr.cur + 1 ≤ (loaded [7]).bsr.len ∧
    (loaded []).dec.phase ≠ .fault ∧ (loaded []).bsr.len < (loaded []).bsr.cur + 1 := by decide

theorem witness_ReadU16Result : (loaded [7, 8]).dec.phase ≠ .fault ∧
    (loaded [7, 8]).bsr.cur + 2 ≤ (loaded [7, 8]).bsr.len ∧
    (loaded [7]).dec.phase ≠ .fault ∧ (loaded [7]).bsr.len < (loaded [7]).bsr.cur + 2 := by decide

theorem witness_LoadAttachesBuffer : State.reset.dec.phase ≠ .fault := by decide

theorem witness_AtEndResult : State.reset.dec.phase ≠ .fault := by decide

theorem witness_WriteU8Result : State.reset.enc.phase ≠ .fault ∧ State.reset.sinkAnswers.headD true = true ∧
    (State.reset.setSinkAnswers [false]).enc.phase ≠ .fault ∧
    (State.reset.setSinkAnswers [false]).sinkAnswers.headD true = false := by decide

theorem witness_WriteU16Result : State.reset.enc.phase ≠ .fault ∧ State.reset.sinkTakes 2 ∧
    (State.reset.setSinkAnswers [false]).sinkAnswers = false :: [] ∧
    (State.reset.setSinkAnswers [true, false]).sinkAnswers = true :: false :: [] := by
  unfold State.sinkTakes; decide

theorem witness_WrittenFieldReadsBack : State.reset.enc.phase ≠ .fault ∧ State.reset.dec.phase ≠ .fault ∧
    State.reset.sinkTakes 2 ∧ State.reset.bsw.out = [] := by
  unfold State.sinkTakes; decide

theorem witness_ConstructResult : State.reset.dec.phase ≠ .fault ∧ State.reset.fb.constructed = false ∧
    (65535 : Half) ≠ 0 ∧ (1 : Half) ≠ 0 ∧ (filled 1 1 []).dec.phase ≠ .fault ∧ (filled 1 1 []).fb.constructed = true := by
  decide

theorem witness_InsertPixelResult : ((filled 1 2 [3]).dec.phase ≠ .fault ∧ (filled 1 2 [3]).fb.constructed = true ∧
      (filled 1 2 [3]).fb.fcur < (filled 1 2 [3]).fb.height.toNat * (filled 1 2 [3]).fb.width.toNat) ∧
    (filled 1 2 [3]).fb.Inv ∧
    ((filled 1 2 [3, 4]).dec.phase ≠ .fault ∧ (filled 1 2 [3, 4]).fb.constructed = true ∧
      (filled 1 2 [3, 4]).fb.fcur = (filled 1 2 [3, 4]).fb.height.toNat * (filled 1 2 [3, 4]).fb.width.toNat) ∧
    (filled 1 2 [3, 4]).fb.Inv :=
  ⟨by decide, fb_inv (by decide) (by decide) (by decide), by decide, fb_inv (by decide) (by decide) (by decide)⟩

theorem witness_IsFullResult : (filled 1 2 [3]).dec.phase ≠ .fault ∧ (filled 1 2 [3]).fb.constructed = true ∧
    (after (exec (.fbConstruct 1 1) State.reset)).isSome = true ∧
    (after (exec .fbRestart (filled 1 1 [3]))).isSome = true ∧ (filled 1 1 [3]).fb.Inv :=
  ⟨by decide, by decide, by decide, by decide, fb_inv (by decide) (by decide) (by decide)⟩

theorem witness_EmitResult : (filled 1 1 [3]).dec.phase ≠ .fault ∧ (filled 1 1 [3]).fb.constructed = true ∧
    (filled 1 1 [3]).fb.Inv ∧
    (filled 1 1 [3]).fb.fcur = (filled 1 1 [3]).fb.height.toNat * (filled 1 1 [3]).fb.width.toNat ∧
    (filled 1 1 []).fb.Inv ∧
    (filled 1 1 []).fb.fcur ≠ (filled 1 1 []).fb.height.toNat * (filled 1 1 []).fb.width.toNat :=
  ⟨by decide, by decide, fb_inv (by decide) (by decide) (by decide), by decide,
    fb_inv (by decide) (by decide) (by decide), by decide⟩

theorem witness_RestartResult : (filled 1 1 [3]).dec.phase ≠ .fault ∧ (filled 1 1 [3]).fb.constructed = true := by decide

theorem witness_FrameBufferNeedsConstruction : State.reset.dec.phase ≠ .fault ∧ State.reset.fb.constructed = false := by
  decide

theorem witness_EncStartResult : State.reset.enc.phase = .idle ∧ (1 : Half) ≠ 0 ∧ (65535 : Half) ≠ 0 ∧
    State.reset.sinkTakes 4 ∧ (encoding 1 1 0 .chooseMode (-1) false 0 []).enc.phase = .run ∧
    (State.reset.setSinkAnswers [false]).sinkAnswers = List.replicate 0 true ++ false :: [] ∧
    (State.reset.setSinkAnswers [true, true, true, false]).sinkAnswers = List.replicate 3 true ++ false :: [] := by
  unfold State.sinkTakes; decide

/-- The rows of R170 in their order, the rows with a limit on `c` at the limit: `count` before is 0x7FFD or 0x7FFE. -/
theorem witness_EncSampleTransitionTable_first :
    Enc.RunInv (encoding 1 2 0 .chooseMode (-1) false 0 []).enc ∧ State.sinkTakesAll (encoding 1 2 0 .chooseMode (-1) false 0 []) := by
  refine ⟨⟨by decide, by decide, by decide, by decide, fun _ => ⟨rfl, rfl, rfl⟩, by simp [encoding, State.setEnc]⟩, ?_⟩
  simp [State.sinkTakesAll, encoding, State.setEnc, State.reset]

theorem witness_EncSampleTransitionTable_choose : Enc.RunInv (encoding 1 3 1 .chooseMode 0 true 5 []).enc ∧
    (encoding 1 3 1 .chooseMode 0 true 5 []).enc.pos + 1 < (1 : Half).toNat * (3 : Half).toNat :=
  ⟨⟨by decide, by decide, by decide, by decide, by simp [encoding, State.setEnc], fun _ => ⟨rfl, rfl⟩⟩, by decide⟩

theorem witness_EncSampleTransitionTable_repeat :
    Enc.RunInv (encoding 0x7FFF 3 0x7FFE .repeatMode 0x7FFD true 9 []).enc ∧
    Enc.RunInv (encoding 0x7FFF 3 0x7FFF .repeatMode 0x7FFE true 9 []).enc :=
  ⟨⟨by decide, by decide, by decide, by decide, by simp [encoding, State.setEnc], fun _ => ⟨by decide, by decide, rfl⟩⟩,
    ⟨by decide, by decide, by decide, by decide, by simp [encoding, State.setEnc], fun _ => ⟨by decide, by decide, rfl⟩⟩⟩

theorem literal_run_inv {h w : Half} {k : Nat} (h1 : 1 ≤ k) (h2 : k < 0x7FFF) (hh : h ≠ 0) (hw : w ≠ 0)
    (hn : k + 1 < h.toNat * w.toNat) :
    Enc.RunInv (encoding h w (k + 1) .literalMode k true 9 (List.replicate k 8)).enc := by
  refine ⟨hh, hw, hn, ?_, ?_, fun _ => ⟨?_, ?_, ?_, ?_⟩⟩
  · simp [encoding, State.setEnc]
  · simp [encoding, State.setEnc]
  · simp [encoding, State.setEnc]; omega
  · simp [encoding, State.setEnc, Config.maxRun]; omega
  · simp [encoding, State.setEnc]
  · simp [encoding, State.setEnc, List.getLast?_replicate]

theorem witness_EncSampleTransitionTable_literal :
    Enc.RunInv (encoding 0x7FFF 3 (0x7FFD + 1) .literalMode (0x7FFD : Nat) true 9 (List.replicate 0x7FFD 8)).enc ∧
    Enc.RunInv (encoding 0x7FFF 3 (0x7FFE + 1) .literalMode (0x7FFE : Nat) true 9 (List.replicate 0x7FFE 8)).enc :=
  ⟨literal_run_inv (by omega) (by omega) (by decide) (by decide) (by decide),
    literal_run_inv (by omega) (by omega) (by decide) (by decide) (by decide)⟩

/-- F0, F1 with F2, F3 at the limit, F4 and F5 at the limit: the same states, in frames that end with the sample. -/
theorem witness_EncSampleFinalCases_first : Enc.RunInv (encoding 1 1 0 .chooseMode (-1) false 0 []).enc ∧
    (encoding 1 1 0 .chooseMode (-1) false 0 []).enc.pos + 1 = (1 : Half).toNat * (1 : Half).toNat :=
  ⟨⟨by decide, by decide, by decide, by decide, fun _ => ⟨rfl, rfl, rfl⟩, by simp [encoding, State.setEnc]⟩, by decide⟩

theorem witness_EncSampleFinalCases_choose : Enc.RunInv (encoding 1 2 1 .chooseMode 0 true 5 []).enc ∧
    (encoding 1 2 1 .chooseMode 0 true 5 []).enc.pos + 1 = (1 : Half).toNat * (2 : Half).toNat :=
  ⟨⟨by decide, by decide, by decide, by decide, by simp [encoding, State.setEnc], fun _ => ⟨rfl, rfl⟩⟩, by decide⟩

theorem witness_EncSampleFinalCases_repeat :
    Enc.RunInv (encoding 1 0x7FFF 0x7FFE .repeatMode 0x7FFD true 9 []).enc ∧
    Enc.RunInv (encoding 1 0x8000 0x7FFF .repeatMode 0x7FFE true 9 []).enc ∧
    (0x7FFE : Nat) + 1 = (1 : Half).toNat * (0x7FFF : Half).toNat ∧
    (0x7FFF : Nat) + 1 = (1 : Half).toNat * (0x8000 : Half).toNat :=
  ⟨⟨by decide, by decide, by decide, by decide, by simp [encoding, State.setEnc], fun _ => ⟨by decide, by decide, rfl⟩⟩,
    ⟨by decide, by decide, by decide, by decide, by simp [encoding, State.setEnc], fun _ => ⟨by decide, by decide, rfl⟩⟩,
    by decide, by decide⟩

theorem witness_EncSampleFinalCases_literal :
    Enc.RunInv (encoding 1 0x7FFF (0x7FFD + 1) .literalMode (0x7FFD : Nat) true 9 (List.replicate 0x7FFD 8)).enc ∧
    Enc.RunInv (encoding 1 0x8000 (0x7FFE + 1) .literalMode (0x7FFE : Nat) true 9 (List.replicate 0x7FFE 8)).enc :=
  ⟨literal_run_inv (by omega) (by omega) (by decide) (by decide) (by decide),
    literal_run_inv (by omega) (by omega) (by decide) (by decide) (by decide)⟩

theorem witness_EncSampleAccountsForEverySample : (encoding 1 2 1 .chooseMode 0 true 5 []).enc.phase = .run ∧
    Enc.RunInv (encoding 1 2 1 .chooseMode 0 true 5 []).enc ∧
    State.sinkTakesAll (encoding 1 2 1 .chooseMode 0 true 5 []) :=
  ⟨by decide, witness_EncSampleFinalCases_choose.1, by simp [State.sinkTakesAll, encoding, State.setEnc, State.reset]⟩

/-- D-E26's state; the first and the last byte of `RPT 4 5` refused. -/
theorem witness_SinkFailureEndsEncoding : (encoding 1 4 3 .repeatMode 2 true 5 []).enc.phase = .run ∧
    (after (exec (.encSample 5) (encoding 1 4 3 .repeatMode 2 true 5 []))).map (fun t => t.bsw.out.length) = some 3 ∧
    (encoding 1 4 3 .repeatMode 2 true 5 []).bsw.out.length + 2 < 3 ∧
    [false] = List.replicate 0 true ++ false :: [] ∧ [true, true, false] = List.replicate 2 true ++ false :: [] := by
  decide

theorem witness_EncodedFramesFormAStream : (1 : Half) ≠ 0 ∧ (4 : Half) ≠ 0 ∧
    (∀ f ∈ [[5, 5, 5, 5], [5, 5, 1, (1 : Byte)]], f.length = (1 : Half).toNat * (4 : Half).toNat) ∧
    State.reset.enc.phase = .idle ∧ State.sinkTakesAll State.reset := by
  unfold State.sinkTakesAll; decide

theorem witness_RoundTrip : (1 : Half) ≠ 0 ∧ (4 : Half) ≠ 0 ∧
    (∀ f ∈ [[5, 5, 5, 5], [5, 5, 1, (1 : Byte)]], f.length = (1 : Half).toNat * (4 : Half).toNat) ∧
    (loaded []).Inv ∧ (loaded []).enc.phase = .idle ∧ (loaded []).bsw.out = [] ∧ State.sinkTakesAll (loaded []) ∧
    (loaded []).dec.phase = .idle ∧ (loaded []).fb.constructed = false :=
  ⟨by decide, by decide, by decide, loaded_inv [], by decide, by decide,
    by simp [State.sinkTakesAll, loaded, State.setBsr, State.reset], by decide, by decide⟩

theorem witness_DecStartResult : (loaded [0, 1, 0, 4]).dec.phase = .idle ∧ (loaded [0, 1, 0, 4]).bsr.attached = true ∧
    (loaded [0, 1, 0, 4]).bsr.cur = 0 ∧ (loaded [0, 1, 0, 4]).bytesAtCursor = [0, 1, 0, 4] ∧
    (loaded [0, 1, 0, 4]).fb.constructed = false ∧ ((loaded [0, 1, 0, 4]).setFb ⟨true, 1, 1, 0, []⟩).fb.constructed = true ∧
    bigEndian 0 1 ≠ 0 ∧ bigEndian 0 4 ≠ 0 ∧ (loaded [0, 0, 0, 4]).bytesAtCursor = [0, 0, 0, 4] ∧ bigEndian 0 0 = 0 ∧
    (loaded [0]).bytesAtCursor.length < 2 ∧ 2 ≤ (loaded [0, 1]).bytesAtCursor.length ∧
    (loaded [0, 1, 0]).bytesAtCursor.length < 4 ∧ State.reset.dec.phase = .idle ∧ State.reset.bsr.attached = false ∧
    (loadedAt [9] 1).dec.phase = .idle ∧ (loadedAt [9] 1).bsr.attached = true ∧ (loadedAt [9] 1).bsr.cur ≠ 0 ∧
    (atFrame 1 1 []).dec.phase = .run := by decide

theorem witness_DecStepReadCount : ((atFrame 1 1 [0, 1]).dec.phase = .run ∧ (atFrame 1 1 [0, 1]).fb.constructed = true ∧
      (atFrame 1 1 [0, 1]).fb.fcur ≠ (atFrame 1 1 [0, 1]).fb.height.toNat * (atFrame 1 1 [0, 1]).fb.width.toNat ∧
      (atFrame 1 1 [0, 1]).dec.dmode = .readCount) ∧
    (atFrame 1 1 [0, 1]).bytesAtCursor = [0, 1] ∧ 1 ≤ (bigEndian 0 1).toNat ∧ (bigEndian 0x7F 0xFF).toNat < 0x8000 ∧
    (atFrame 1 1 [0x80, 1, 5]).bytesAtCursor = [0x80, 1, 5] ∧ 0x8001 ≤ (bigEndian 0x80 1).toNat ∧
    (atFrame 1 1 [0xFF, 0xFF]).bytesAtCursor = [0xFF, 0xFF] ∧ 0x8001 ≤ (bigEndian 0xFF 0xFF).toNat ∧
    bigEndian 0 0 = 0x0000#16 ∧ bigEndian 0x80 0 = 0x8000#16 ∧ (atFrame 1 1 [9]).bytesAtCursor.length < 2 := by decide

theorem witness_DecStepLiteral : (decoding 1 1 [9] [] .literal 1 0).dec.phase = .run ∧
    (decoding 1 1 [9] [] .literal 1 0).fb.constructed = true ∧ (decoding 1 1 [9] [] .literal 1 0).fb.Inv ∧
    ((decoding 1 1 [9] [] .literal 1 0).fb.fcur ≠ (1 : Half).toNat * (1 : Half).toNat ∧
      (decoding 1 1 [9] [] .literal 1 0).dec.dmode = .literal ∧ 1 ≤ (decoding 1 1 [9] [] .literal 1 0).dec.remaining ∧
      (decoding 1 1 [9] [] .literal 1 0).bytesAtCursor = [9] ∧ (decoding 1 1 [] [] .literal 1 0).bytesAtCursor = []) :=
  ⟨by decide, by decide, fb_inv (by decide) (by decide) (by decide), by decide⟩

theorem witness_DecStepRepeat : (decoding 1 1 [] [] .repeating 1 5).dec.phase = .run ∧
    (decoding 1 1 [] [] .repeating 1 5).fb.constructed = true ∧ (decoding 1 1 [] [] .repeating 1 5).fb.Inv ∧
    ((decoding 1 1 [] [] .repeating 1 5).fb.fcur ≠ (1 : Half).toNat * (1 : Half).toNat ∧
      (decoding 1 1 [] [] .repeating 1 5).dec.dmode = .repeating ∧
      1 ≤ (decoding 1 1 [] [] .repeating 1 5).dec.remaining) :=
  ⟨by decide, by decide, fb_inv (by decide) (by decide) (by decide), by decide⟩

/-- Empty and full at the end of the stream; one pixel short of full, and empty inside a token. -/
theorem witness_DecFrameAtEnd : (atFrame 1 1 []).dec.phase = .run ∧ (atFrame 1 1 []).bsr.cur = (atFrame 1 1 []).bsr.len ∧
    (atFrame 1 1 []).fb.fcur = 0 ∧ (atFrame 1 1 []).dec.frameBegun = false ∧
    (decoding 1 2 [] [1, 2] .literal 1 0).fb.fcur = (1 : Half).toNat * (2 : Half).toNat ∧
    (decoding 1 2 [] [1, 2] .literal 1 0).bsr.cur = (decoding 1 2 [] [1, 2] .literal 1 0).bsr.len ∧
    (decoding 1 2 [] [1] .readCount 0 0).fb.fcur ≠ (1 : Half).toNat * (2 : Half).toNat ∧
    (decoding 1 2 [] [1] .readCount 0 0).fb.fcur ≠ 0 ∧
    (decoding 1 2 [] [] .literal 1 0).fb.fcur ≠ (1 : Half).toNat * (2 : Half).toNat ∧
    (decoding 1 2 [] [] .literal 1 0).dec.frameBegun = true := by decide

theorem witness_DecFrameDecodesTokens : (atFrame 1 4 [0x80, 4, 5, 1]).Inv ∧ (atFrame 1 4 [0x80, 4, 5, 1]).dec.phase = .run ∧
    (atFrame 1 4 [0x80, 4, 5, 1]).atFrameBoundary = true ∧
    Token.Legal (.rpt 4 5) ∧ (tokensSamples [.rpt 4 5]).length = (1 : Half).toNat * (4 : Half).toNat ∧
    (atFrame 1 4 [0x80, 4, 5, 1]).bytesAtCursor = tokensBytes [.rpt 4 5] ++ [1] :=
  ⟨decoding_inv (by decide) (by decide) (by decide) rfl, by decide, by decide, by simp [Token.Legal, Config.maxRun],
    by decide, by decide⟩

theorem witness_DecFrameOutcome : (atFrame 1 4 [0x80, 4]).Inv ∧ (atFrame 1 4 [0x80, 4]).dec.phase = .run ∧
    (atFrame 1 4 [0x80, 4]).atFrameBoundary = true ∧
    (atFrame 1 4 [0x80, 4]).bsr.cur ≠ (atFrame 1 4 [0x80, 4]).bsr.len :=
  ⟨decoding_inv (by decide) (by decide) (by decide) rfl, by decide, by decide, by decide⟩

theorem witness_FramesAreIndependent : (atFrame 1 4 [0x80, 4, 5]).dec.phase = .run ∧
    (atFrame 1 4 [0x80, 4, 5]).fb.constructed = true ∧
    (atFrame 1 4 [0x80, 4, 5]).bsr.cur ≠ (atFrame 1 4 [0x80, 4, 5]).bsr.len ∧
    (atFrame 1 4 [0x80, 4, 5]).atFrameBoundary = true ∧
    (4 = (1 : Half).toNat * (4 : Half).toNat ∨ 4 = 0 ∧ true = false) ∧
    (0 = (1 : Half).toNat * (4 : Half).toNat ∨ 0 = 0 ∧ false = false) := by decide

/-- D-D17. -/
theorem witness_DecRunOnWellFormedStream :
    (∀ g ∈ [[Token.rpt 4 5], [.rpt 2 5, .rpt 2 1]], ∀ k ∈ g, k.Legal) ∧
    (∀ g ∈ [[Token.rpt 4 5], [.rpt 2 5, .rpt 2 1]], (tokensSamples g).length = (1 : Half).toNat * (4 : Half).toNat) ∧
    (loaded [0, 1, 0, 4, 0x80, 4, 5, 0x80, 2, 5, 0x80, 2, 1]).Inv ∧
    ((loaded [0, 1, 0, 4, 0x80, 4, 5, 0x80, 2, 5, 0x80, 2, 1]).dec.phase = .idle ∧
      (loaded [0, 1, 0, 4, 0x80, 4, 5, 0x80, 2, 5, 0x80, 2, 1]).fb.constructed = false ∧
      (loaded [0, 1, 0, 4, 0x80, 4, 5, 0x80, 2, 5, 0x80, 2, 1]).bsr.attached = true ∧
      (loaded [0, 1, 0, 4, 0x80, 4, 5, 0x80, 2, 5, 0x80, 2, 1]).bsr.cur = 0 ∧
      (loaded [0, 1, 0, 4, 0x80, 4, 5, 0x80, 2, 5, 0x80, 2, 1]).bytesAtCursor =
        headerBytes 1 4 ++ [[Token.rpt 4 5], [.rpt 2 5, .rpt 2 1]].flatMap tokensBytes) :=
  ⟨by simp [Token.Legal, Config.maxRun], by decide, loaded_inv _, by decide⟩

theorem witness_DecRunAlwaysEnds : (loaded [1, 2, 3]).Inv ∧ (loaded [1, 2, 3]).dec.phase = .idle ∧
    (loaded [1, 2, 3]).fb.constructed = false ∧ (loaded [1, 2, 3]).bsr.attached = true ∧ (loaded [1, 2, 3]).bsr.cur = 0 :=
  ⟨loaded_inv _, by decide⟩

theorem witness_CountWithoutPayloadTruncates : (1 : Half) ≠ 0 ∧ (4 : Half) ≠ 0 ∧ (4 : Len) ≠ 0 ∧
    (loaded [0, 1, 0, 4, 0x80, 4]).Inv ∧ (loaded [0, 1, 0, 4, 0x80, 4]).dec.phase = .idle ∧
    (loaded [0, 1, 0, 4, 0x80, 4]).fb.constructed = false ∧ (loaded [0, 1, 0, 4, 0x80, 4]).bsr.attached = true ∧
    (loaded [0, 1, 0, 4, 0x80, 4]).bsr.cur = 0 ∧ (loaded [0, 1, 0, 4, 0x80, 4]).bytesAtCursor = headerBytes 1 4 ++ halfBytes (countField true 4) :=
  ⟨by decide, by decide, by decide, loaded_inv _, by decide⟩

theorem witness_HeaderElementResult : (loaded [0, 1, 0, 4]).dec.phase = .idle ∧ (loaded [0, 1, 0, 4]).bsr.attached = true ∧
    (loaded [0, 1, 0, 4]).bsr.cur = 0 ∧ (loaded [0, 1, 0, 4]).fb.constructed = false ∧
    ((loaded [0, 1, 0, 4]).setFb ⟨true, 1, 1, 0, []⟩).fb.constructed = true ∧ (1 : Half) ≠ 0 ∧ (4 : Half) ≠ 0 ∧
    State.reset.dec.phase = .idle ∧ State.reset.bsr.attached = false ∧ (loadedAt [9] 1).dec.phase = .idle ∧
    (loadedAt [9] 1).bsr.attached = true ∧ (loadedAt [9] 1).bsr.cur ≠ 0 := by decide

/-- `m = N - f` at the end of a frame; the payload as long as `m`, and one byte shorter. -/
theorem witness_LiteralElementResult : (decoding 1 3 [0, 2, 1, 2] [7] .readCount 0 0).dec.phase = .run ∧
    (decoding 1 3 [0, 2, 1, 2] [7] .readCount 0 0).fb.constructed = true ∧
    (decoding 1 3 [0, 2, 1, 2] [7] .readCount 0 0).fb.Inv ∧
    ((decoding 1 3 [0, 2, 1, 2] [7] .readCount 0 0).fb.fcur ≠ (1 : Half).toNat * (3 : Half).toNat ∧
      (decoding 1 3 [0, 2, 1, 2] [7] .readCount 0 0).dec.dmode = .readCount ∧ (2 : Len) ≠ 0 ∧
      2 = min (2 : Len).toNat (3 - 1) ∧ 2 ≤ [(1 : Byte), 2].length ∧ [(1 : Byte)].length < 2) :=
  ⟨by decide, by decide, fb_inv (by decide) (by decide) (by decide), by decide⟩

theorem witness_RepeatElementResult : (decoding 1 3 [0x80, 9, 1] [7] .readCount 0 0).dec.phase = .run ∧
    (decoding 1 3 [0x80, 9, 1] [7] .readCount 0 0).fb.constructed = true ∧
    (decoding 1 3 [0x80, 9, 1] [7] .readCount 0 0).fb.Inv ∧
    ((decoding 1 3 [0x80, 9, 1] [7] .readCount 0 0).fb.fcur ≠ (1 : Half).toNat * (3 : Half).toNat ∧
      (decoding 1 3 [0x80, 9, 1] [7] .readCount 0 0).dec.dmode = .readCount ∧ (9 : Len) ≠ 0 ∧
      2 = min (9 : Len).toNat (3 - 1)) :=
  ⟨by decide, by decide, fb_inv (by decide) (by decide) (by decide), by decide⟩

theorem witness_ReservedElementResult : (atFrame 1 1 [0x80, 0]).dec.phase = .run ∧
    (atFrame 1 1 [0x80, 0]).fb.constructed = true ∧
    (atFrame 1 1 [0x80, 0]).fb.fcur ≠
      (atFrame 1 1 [0x80, 0]).fb.height.toNat * (atFrame 1 1 [0x80, 0]).fb.width.toNat ∧
    (atFrame 1 1 [0x80, 0]).dec.dmode = .readCount := by decide

theorem witness_ElementIsItsSteps : (atFrame 1 4 [0, 2, 1, 2]).Inv ∧ ((atFrame 1 4 [0, 2, 1, 2]).dec.phase = .run ∧
    (atFrame 1 4 [0, 2, 1, 2]).fb.fcur ≠ (1 : Half).toNat * (4 : Half).toNat ∧
    (atFrame 1 4 [0, 2, 1, 2]).dec.dmode = .readCount ∧
    decode .token (atFrame 1 4 [0, 2, 1, 2]).bytesAtCursor = .element (.lit 2 [1, 2]) [] ∧
    2 = min (2 : Len).toNat (4 - 0) ∧ 2 ≤ [(1 : Byte), 2].length) :=
  ⟨decoding_inv (by decide) (by decide) (by decide) rfl, by decide⟩

theorem witness_HeaderElementIsDecStart : (loaded [0, 1, 0]).dec.phase = .idle := by decide

theorem witness_StepRunsFetchedElement :
    ((loaded [0, 1, 0, 4]).setRequests [.element]).requests = .element :: [] ∧
    ((loaded [0, 1, 0, 4]).setRequests [.element]).dec.phase = .idle ∧
    decode .header ((loaded [0, 1, 0, 4]).setRequests [.element]).bytesAtCursor = .element (.hdr 1 4) [] ∧
    ((atFrame 1 4 [0x80, 4, 5]).setRequests [.element]).dec.phase = .run ∧
    ((atFrame 1 4 [0x80, 4, 5]).setRequests [.element]).fb.constructed = true ∧
    ((atFrame 1 4 [0x80, 4, 5]).setRequests [.element]).fb.fcur ≠ (1 : Half).toNat * (4 : Half).toNat ∧
    ((atFrame 1 4 [0x80, 4, 5]).setRequests [.element]).dec.dmode = .readCount ∧
    decode .token ((atFrame 1 4 [0x80, 4, 5]).setRequests [.element]).bytesAtCursor = .element (.rpt 4 5) [] := by decide

theorem witness_StepOnCutToken : ((atFrame 1 4 [0x80]).setRequests [.element]).requests = .element :: [] ∧
    (atFrame 1 4 [0x80]).dec.phase = .run ∧ (atFrame 1 4 [0x80]).fb.constructed = true ∧
    (atFrame 1 4 [0x80]).fb.fcur ≠ (1 : Half).toNat * (4 : Half).toNat ∧ (atFrame 1 4 [0x80]).dec.dmode = .readCount ∧
    decode .token (atFrame 1 4 [0x80]).bytesAtCursor = .rejected .truncatedCount ∧
    decode .token (atFrame 1 4 [0x80, 4]).bytesAtCursor = .rejected .truncatedValue := by decide

theorem witness_StepPerformsOldestRequest : State.reset.requests = [] ∧
    (State.reset.setRequests [.op .bsrAtEnd]).requests = .op .bsrAtEnd :: [] ∧ Instr.bsrAtEnd.isElement = false ∧
    (State.reset.setRequests [.op (.rsv true)]).requests = .op (.rsv true) :: [] ∧ (Instr.rsv true).isElement = true ∧
    (State.reset.setRequests [.reset .core]).requests = .reset .core :: [] := by decide

theorem witness_StepKeepsInvariant : (atFrame 1 4 [0x80, 4, 5]).Inv ∧
    step (atFrame 1 4 [0x80, 4, 5]) = .next (atFrame 1 4 [0x80, 4, 5]) :=
  ⟨decoding_inv (by decide) (by decide) (by decide) rfl, rfl⟩

theorem witness_PathsShareNothing : (after (exec (.bswWriteU8 1) State.reset)).isSome = true ∧
    (Instr.bswWriteU8 1).path = .encode ∧ (after (exec .bsrAtEnd State.reset)).isSome = true ∧
    Instr.bsrAtEnd.path = .decode := by decide

theorem witness_PathsCommute : (Instr.bswWriteU8 1).path = .encode ∧ Instr.bsrAtEnd.path = .decode ∧
    ((after (exec (.bswWriteU8 1) State.reset)).bind fun t => after (exec .bsrAtEnd t)).isSome = true := by decide

theorem witness_FaultedPathRefuses : (Instr.encSample 1).path = .encode ∧ encodeFaulted.enc.phase = .fault ∧
    Instr.fbIsFull.path = .decode ∧ decodeFaulted.dec.phase = .fault := by decide

theorem witness_OnlyResetLeavesFault :
    (after (step (decodeFaulted.setRequests [.reset (.path .encode)]))).isSome = true ∧
    (decodeFaulted.setRequests [.reset (.path .encode)]).dec.phase = .fault ∧
    (after (step (encodeFaulted.setRequests [.op .bsrAtEnd]))).isSome = true ∧
    (encodeFaulted.setRequests [.op .bsrAtEnd]).enc.phase = .fault := by decide

theorem witness_BufferImmutableCursorAdvances : (after (exec .bsrReadU8 (loaded [7]))).isSome = true ∧
    Instr.bsrReadU8.isElement = false ∧ (loaded [7]).bsr.cur ≤ (loaded [7]).bsr.len := by decide

theorem witness_OutputIsAppendOnly : (after (exec (.bswWriteU8 1) State.reset)).isSome = true ∧
    (after (exec .bsrAtEnd State.reset)).isSome = true ∧ Instr.bsrAtEnd.path = .decode := by decide

theorem witness_FramesAreAppendOnly : (after (exec .fbEmit (filled 1 1 [3]))).isSome = true ∧
    (after (exec .fbRestart (filled 1 1 [3]))).isSome = true := by decide

theorem witness_DimensionsAreImmutable : (after (exec .fbRestart (filled 1 1 [3]))).isSome = true ∧
    (filled 1 1 [3]).fb.constructed = true ∧
    (after (exec (.encSample 7) (encoding 1 1 0 .chooseMode (-1) false 0 []))).isSome = true ∧
    (encoding 1 1 0 .chooseMode (-1) false 0 []).enc.phase ≠ .idle := by decide

theorem witness_WrongPhaseRefused : State.reset.enc.phase = .idle ∧
    (encoding 1 1 0 .chooseMode (-1) false 0 []).enc.phase = .run ∧ (atFrame 1 1 []).dec.phase = .run ∧
    State.reset.dec.phase = .idle ∧ (decoding 1 1 [] [3] .readCount 0 0).fb.constructed = true ∧
    (decoding 1 1 [] [3] .readCount 0 0).fb.fcur = (1 : Half).toNat * (1 : Half).toNat ∧
    (decoding 1 2 [] [3] .literal 1 0).fb.constructed = true ∧ (decoding 1 2 [] [3] .literal 1 0).dec.phase = .run ∧
    (decoding 1 2 [] [3] .literal 1 0).fb.fcur ≠ (1 : Half).toNat * (2 : Half).toNat ∧
    (decoding 1 2 [] [3] .literal 1 0).dec.dmode ≠ .readCount := by decide

end Sys2Proof.Machine.Tests
end

/-! PROOFS. The statements of 00_scope.md: the two paths share nothing (R3), and an operation whose `require` does not hold
is refused (R12). -/

namespace Sys2Proof.Machine

/-! ## The two paths (R3, R86) -/

/-- A state is put together from its own decode side and its own rest, so locality speaks of every state. -/
theorem overDecode_self (s : State) : overDecode s s = s := rfl

theorem overEncode_self (s : State) : overEncode s s = s := rfl

theorem overDecodeOutcome_next {e t : State} {o : Host.Outcome State Fault Refusal} (h : overDecodeOutcome e o = .next t) :
    t.encodeSide = e.encodeSide ∧ t.requests = e.requests := by
  cases o with
  | next u => cases h; exact ⟨rfl, rfl⟩
  | fault _ => cases h
  | refused _ => cases h

theorem overEncodeOutcome_next {e t : State} {o : Host.Outcome State Fault Refusal} (h : overEncodeOutcome e o = .next t) :
    t.decodeSide = e.decodeSide ∧ t.requests = e.requests := by
  cases o with
  | next u => cases h; exact ⟨rfl, rfl⟩
  | fault _ => cases h
  | refused _ => cases h

theorem exec_decode_frame {i : Instr} {s t : State} (hi : i.path = .decode) (h : exec i s = .next t) :
    t.encodeSide = s.encodeSide ∧ t.requests = s.requests := by
  have local_eq := exec_decodeLocal i hi s s
  rw [overDecode_self] at local_eq
  exact overDecodeOutcome_next (local_eq.symm.trans h)

theorem exec_encode_frame {i : Instr} {s t : State} (hi : i.path = .encode) (h : exec i s = .next t) :
    t.decodeSide = s.decodeSide ∧ t.requests = s.requests := by
  have local_eq := exec_encodeLocal i hi s s
  rw [overEncode_self] at local_eq
  exact overEncodeOutcome_next (local_eq.symm.trans h)

/-- Settles O49: each operation is local to its own path (`exec_encodeLocal`, `exec_decodeLocal`). -/
theorem pathsShareNothing : Obligations.PathsShareNothing := by
  intro i s t h
  cases hi : i.path with
  | encode =>
    obtain ⟨side, requests⟩ := exec_encode_frame hi h
    exact ⟨fun _ => side, nofun, requests⟩
  | decode =>
    obtain ⟨side, requests⟩ := exec_decode_frame hi h
    exact ⟨nofun, fun _ => side, requests⟩

/-! ## The `require` of each operation (R12) -/

theorem Fb.isFull_iff (f : Fb) : f.isFull = true ↔ f.fcur = f.height.toNat * f.width.toNat := by
  simp [Fb.isFull, Fb.n]

section Require
variable {α : Type} {s : State}

theorem requireStart_wrongPhase (hp : s.dec.phase ≠ .idle) (r : Res α) : requireStart s r = .refused .wrongPhase :=
  if_pos hp

theorem requireBoundary_wrongPhase (hp : s.dec.phase ≠ .run) (r : Res α) : requireBoundary s r = .refused .wrongPhase :=
  if_pos hp

theorem requireRoom_wrongPhase (hp : s.dec.phase ≠ .run) (r : Res α) : requireRoom s r = .refused .wrongPhase :=
  if_pos hp

theorem requireRoom_full (hp : s.dec.phase = .run) (hc : s.fb.constructed = true) (hf : s.fb.isFull = true) (r : Res α) :
    requireRoom s r = .refused .fbFull := by
  simp [requireRoom, requireFb, hp, hc, hf]

theorem requireToken_insideToken (hp : s.dec.phase = .run) (hc : s.fb.constructed = true) (hf : s.fb.isFull = false)
    (hm : s.dec.dmode ≠ .readCount) (r : Res α) : requireToken s r = .refused .insideToken := by
  simp [requireToken, requireRoom, requireFb, hp, hc, hf, hm]

end Require

/-! ## Refused operations -/

theorem exec_encSample_wrongPhase {s : State} (hp : s.enc.phase = .idle) (v : Byte) :
    exec (.encSample v) s = .refused .wrongPhase :=
  finishComposite_of_refused (encode_not_faulted (by simp [hp])) (if_pos (by simp [hp]) : encSample v s = _)

theorem exec_encStart_wrongPhase {s : State} (hp : s.enc.phase = .run) (h w : Half) :
    exec (.encStart h w) s = .refused .wrongPhase :=
  finishComposite_of_refused (encode_not_faulted (by simp [hp])) (if_pos (by simp [hp]) : encStart h w s = _)

/-- The three operations that start a decoding (R190, R196, R197). -/
theorem exec_start_wrongPhase {s : State} (hf : s.dec.phase ≠ .fault) (hp : s.dec.phase ≠ .idle) (h w : Half) :
    exec .decStart s = .refused .wrongPhase ∧ exec .decRun s = .refused .wrongPhase ∧
    exec (.hdr h w) s = .refused .wrongPhase := by
  have not_faulted : s.faulted .decode = false := decode_not_faulted hf
  have start : decStart s = .refused .wrongPhase := requireStart_wrongPhase hp _
  have run : decRun s = .refused .wrongPhase := by rw [decRun, start, Res.bind_refused]
  exact ⟨finishComposite_of_refused not_faulted start, finishComposite_of_refused not_faulted run,
    finishComposite_of_refused not_faulted (requireStart_wrongPhase hp _)⟩

/-- Every token element asks the same `require` first (R198, R199, R200), whatever its operands. -/
theorem exec_token_refused {s : State} {why : Refusal} (hp : s.dec.phase ≠ .fault)
    (h : ∀ r : Res Unit, requireToken s r = .refused why) (n : Len) (p : List Byte) (v : Byte) (k : Bool) :
    exec (.lit n p) s = .refused why ∧ exec (.rpt n v) s = .refused why ∧ exec (.rsv k) s = .refused why := by
  have not_faulted : s.faulted .decode = false := decode_not_faulted hp
  have rsv_refused (k : Bool) : rsv k s = .refused why := h _
  have lit_refused : lit n p s = .refused why := by
    unfold lit
    split
    · exact rsv_refused false
    · exact h _
  have rpt_refused : rpt n v s = .refused why := by
    unfold rpt
    split
    · exact rsv_refused true
    · exact h _
  exact ⟨finishComposite_of_refused not_faulted lit_refused, finishComposite_of_refused not_faulted rpt_refused,
    finishComposite_of_refused not_faulted (rsv_refused k)⟩

theorem exec_decStep_refused {s : State} {why : Refusal} (hp : s.dec.phase ≠ .fault)
    (h : ∀ r : Res Unit, requireRoom s r = .refused why) : exec .decStep s = .refused why :=
  finishComposite_of_refused (decode_not_faulted hp) (h (decArm s))

theorem exec_decFrame_wrongPhase {s : State} (hf : s.dec.phase ≠ .fault) (hp : s.dec.phase ≠ .run) :
    exec .decFrame s = .refused .wrongPhase :=
  finishComposite_of_refused (decode_not_faulted hf) (requireBoundary_wrongPhase hp _)

/-- Where no element is met, the request for one is refused for that reason. -/
theorem stepElement_refused {s : State} {why : Refusal} (h : elementPos s = .inr why) : stepElement s = .refused why := by
  simp [stepElement, fetch, h]

theorem elementPos_full {s : State} (hp : s.dec.phase = .run) (hc : s.fb.constructed = true) (hf : s.fb.isFull = true) :
    elementPos s = .inr .fbFull := by
  simp [elementPos, hp, hc, hf]

theorem elementPos_insideToken {s : State} (hp : s.dec.phase = .run) (hc : s.fb.constructed = true)
    (hf : s.fb.isFull = false) (hm : s.dec.dmode ≠ .readCount) : elementPos s = .inr .insideToken := by
  simp [elementPos, hp, hc, hf, hm]

/-- Settles O57: in each case the `require` of the operation fails on a path that has not faulted. -/
theorem wrongPhaseRefused : Obligations.WrongPhaseRefused := by
  intro s v h w n p k
  refine ⟨fun hp => exec_encSample_wrongPhase hp v, fun hp => exec_encStart_wrongPhase hp h w,
    fun hp => ?started, fun hp => ?notRunning, fun hp hc hfull => ?full, fun hp hc hroom hm => ?insideToken⟩
  case started =>
    exact exec_start_wrongPhase (fun hf => by simp [hf] at hp) (fun hi => by simp [hi] at hp) h w
  case notRunning =>
    have not_fault : s.dec.phase ≠ .fault := fun hf => by simp [hf] at hp
    have not_run : s.dec.phase ≠ .run := fun hr => by simp [hr] at hp
    exact ⟨exec_decStep_refused not_fault (requireRoom_wrongPhase not_run), exec_decFrame_wrongPhase not_fault not_run,
      exec_token_refused not_fault (fun _ => requireRoom_wrongPhase not_run _) n p v k⟩
  case full =>
    have not_fault : s.dec.phase ≠ .fault := by simp [hp]
    have hf : s.fb.isFull = true := s.fb.isFull_iff.2 hfull
    obtain ⟨lit, rpt, rsv⟩ := exec_token_refused not_fault (fun _ => requireRoom_full hp hc hf _) n p v k
    exact ⟨exec_decStep_refused not_fault (requireRoom_full hp hc hf), lit, rpt, rsv,
      stepElement_refused (elementPos_full hp hc hf)⟩
  case insideToken =>
    have hf : s.fb.isFull = false := Bool.eq_false_iff.2 (mt s.fb.isFull_iff.1 hroom)
    obtain ⟨lit, rpt, rsv⟩ :=
      exec_token_refused (by simp [hp]) (fun _ => requireToken_insideToken hp hc hf hm _) n p v k
    exact ⟨lit, rpt, rsv, stepElement_refused (elementPos_insideToken hp hc hf hm)⟩

end Sys2Proof.Machine

/-! PROOFS. The statements of 10_state.md, first the invariant of the machine (R21 to R23, R27 to R30, R39 to R41, R45,
R153): it holds after reset and every step keeps it. -/

namespace Sys2Proof.Machine

/-! ## The `require` of an operation, passed or refused -/

section Require
variable {α : Type} {s : State} {r : Res α} {P : α → State → Prop} {Q : FaultRecord → State → Prop}

theorem requireFb_ensures (h : s.fb.constructed = true → r.Ensures P Q) : (requireFb s r).Ensures P Q := by
  unfold requireFb
  split
  · next hc => exact h hc
  · trivial

theorem requireRoom_ensures
    (h : s.dec.phase = .run → s.fb.constructed = true → s.fb.isFull = false → r.Ensures P Q) :
    (requireRoom s r).Ensures P Q := by
  unfold requireRoom
  split
  · trivial
  · next hp =>
    refine requireFb_ensures fun hc => ?_
    split
    · trivial
    · next hf => exact h (not_ne_iff.1 hp) hc (Bool.eq_false_iff.2 hf)

theorem requireToken_ensures
    (h : s.dec.phase = .run → s.fb.constructed = true → s.fb.isFull = false → s.dec.dmode = .readCount → r.Ensures P Q) :
    (requireToken s r).Ensures P Q := by
  refine requireRoom_ensures fun hp hc hf => ?_
  split
  · next hm => exact h hp hc hf hm
  · trivial

end Require

/-! ## The share of the decode path in the invariant -/

/-- The decode path's share of `State.Inv` (`State.Inv.decodeInv`, `State.Inv.of_paths`). -/
structure DecodeInv (s : State) : Prop extends DecodeSound s where
  dec : s.dec.Inv
  running : s.dec.phase = .run → s.fb.constructed = true

/-- The faults of the decode path (R220, R45). -/
def FaultRecord.ofDecode : FaultRecord → Prop
  | .noFault => False
  | .sinkFailure _ => False
  | _ => True

theorem FaultRecord.ofStep.ofDecode {f : FaultRecord} (h : f.ofStep) : f.ofDecode := by
  cases f with
  | truncatedStream _ => trivial
  | reservedCount _ => trivial
  | _ => exact h.elim

theorem State.Inv.decodeSound {s : State} (hi : s.Inv) : DecodeSound s := ⟨hi.bsr, hi.fb, hi.frames⟩

theorem State.Inv.decodeInv {s : State} (hi : s.Inv) : DecodeInv s := ⟨hi.decodeSound, hi.dec, hi.running⟩

theorem State.Inv.of_paths {s : State} (he : s.enc.Inv) (hd : DecodeInv s) : s.Inv :=
  ⟨hd.bsr, hd.fb, he, hd.dec, hd.running, hd.frames⟩

theorem DecodeInv.of_decodeSide {s t : State} (h : DecodeInv s) (heq : t.decodeSide = s.decodeSide) : DecodeInv t := by
  obtain ⟨⟨bsr, fb, frames⟩, dec, running⟩ := h
  simp only [State.decodeSide, Prod.mk.injEq] at heq
  obtain ⟨hbsr, hfb, hdec, hframes, -⟩ := heq
  exact ⟨⟨hbsr ▸ bsr, hfb ▸ fb, hframes ▸ frames⟩, hdec ▸ dec, by rw [hdec, hfb]; exact running⟩

theorem DecodeRuns.decodeInv {s : State} (h : DecodeRuns s) : DecodeInv s :=
  ⟨h.toDecodeSound, ⟨by simp [Dec.FaultInv, h.fault, h.phase], fun _ => h.regs⟩, fun _ => h.built⟩

/-- A decoder that has ended owes nothing of a token (R43). -/
theorem DecodeSound.decodeInv_of_done {s : State} (h : DecodeSound s) (hp : s.dec.phase = .done)
    (hf : s.dec.fault = .noFault) : DecodeInv s :=
  ⟨h, ⟨by simp [Dec.FaultInv, hp, hf], by simp [hp]⟩, by simp [hp]⟩

/-- Fault entry keeps the invariant, with any fault of the path (R226, R45). -/
theorem DecodeSound.takeFault {s : State} (h : DecodeSound s) {f : FaultRecord} (hf : f.ofDecode) :
    DecodeInv (takeFault .decode f s) := by
  refine ⟨⟨h.bsr, h.fb, h.frames⟩, ⟨?_, nofun⟩, nofun⟩
  cases f with
  | noFault => exact hf.elim
  | sinkFailure _ => exact hf.elim
  | _ => rfl

theorem DecodeInv.setCur {s : State} {k : Nat} (h : DecodeInv s) (hk : s.bsr.cur + k ≤ s.bsr.len) :
    DecodeInv (s.setCur (s.bsr.cur + k)) :=
  ⟨h.toDecodeSound.setCur hk, h.dec, h.running⟩

/-- What an operation of the decode path must guarantee for the invariant: where it completes the invariant holds, and a
fault is one of the path's and leaves the registers that stay specified sound. -/
def Res.KeepsDecodeInv {α : Type} (r : Res α) : Prop :=
  r.Ensures (fun _ t => DecodeInv t) (fun f t => f.ofDecode ∧ DecodeSound t)

section Finish
variable {α : Type} {g : α → OpResult} {r : Res α} {t : State}

theorem finishPrimitive_decodeInv (hr : r.KeepsDecodeInv) (h : finishPrimitive .decode g r = .next t) : DecodeInv t := by
  rcases finishPrimitive_next h with ⟨a, u, rfl, rfl⟩ | ⟨f, u, rfl, rfl⟩
  · exact DecodeInv.of_decodeSide hr rfl
  · exact DecodeSound.takeFault hr.2 hr.1

theorem finishComposite_decodeInv (hr : r.KeepsDecodeInv) (h : finishComposite .decode g r = .next t) : DecodeInv t := by
  rcases finishComposite_next h with ⟨a, u, rfl, rfl⟩ | ⟨f, u, rfl, rfl⟩
  · exact DecodeInv.of_decodeSide hr rfl
  · obtain ⟨hf, hs⟩ := hr
    exact DecodeSound.takeFault (s := leaveUnspecified .decode u) ⟨hs.bsr, hs.fb, hs.frames⟩ hf

end Finish

/-! ## Reader and Frame Buffer keep it -/

/-- A loaded buffer is canonical and holds its own cells only (R21, R133). -/
theorem Bsr.Inv.load (bytes : List Byte) : Bsr.Inv ⟨Memory.ofBytes bytes, bytes.length, 0, true⟩ :=
  ⟨Memory.ofBytes_wf bytes, fun c hc => by simpa using Memory.ofBytesFrom_lt 0 bytes c hc, Nat.zero_le _, nofun⟩

section Units
variable {s : State}

theorem bsrLoad_keepsDecodeInv (hd : DecodeInv s) (bytes : List Byte) : (bsrLoad bytes s).KeepsDecodeInv :=
  ⟨⟨Bsr.Inv.load bytes, hd.fb, hd.frames⟩, hd.dec, hd.running⟩

theorem bsrReadU8_keepsDecodeInv (hd : DecodeInv s) : (bsrReadU8 s).KeepsDecodeInv := by
  refine (bsrReadU8_ensures s).mono ?_ ?_
  · rintro v t ⟨hl, -, rfl⟩
    exact hd.setCur hl
  · rintro f t ⟨-, rfl, rfl⟩
    exact ⟨trivial, hd.toDecodeSound⟩

theorem bsrReadU16_keepsDecodeInv (hd : DecodeInv s) : (bsrReadU16 s).KeepsDecodeInv := by
  refine (bsrReadU16_ensures s).mono ?_ ?_
  · rintro v t ⟨hl, -, rfl⟩
    exact hd.setCur hl
  · rintro f t ⟨-, rfl, rfl⟩
    exact ⟨trivial, hd.toDecodeSound⟩

theorem fbConstruct_keepsDecodeInv (hd : DecodeInv s) (h w : Half) : (fbConstruct h w s).KeepsDecodeInv := by
  unfold fbConstruct
  split_ifs with hc hz
  · trivial
  · trivial
  · obtain ⟨hh, hw⟩ := not_or.1 hz
    exact ⟨⟨hd.bsr, Fb.Inv.construct hh hw, hd.frames⟩, hd.dec, fun _ => rfl⟩

theorem fbInsertPixel_keepsDecodeInv (hd : DecodeInv s) (v : Byte) : (fbInsertPixel v s).KeepsDecodeInv := by
  refine (fbInsertPixel_ensures v s).mono ?_ ?_
  · rintro _ t ⟨-, hf, rfl⟩
    exact ⟨hd.toDecodeSound.insert hf v, hd.dec, hd.running⟩
  · rintro f t ⟨-, rfl, rfl⟩
    exact ⟨trivial, hd.toDecodeSound⟩

theorem fbIsFull_keepsDecodeInv (hd : DecodeInv s) : (fbIsFull s).KeepsDecodeInv :=
  requireFb_ensures fun _ => hd

/-- A frame handed over is whole (R153). -/
theorem fbEmit_keepsDecodeInv (hd : DecodeInv s) : (fbEmit s).KeepsDecodeInv := by
  refine requireFb_ensures fun hc => ?_
  split
  · next hf =>
    refine ⟨⟨hd.bsr, hd.fb, fun f hmem => ?_⟩, hd.dec, hd.running⟩
    rcases List.mem_append.1 hmem with hold | hnew
    · exact hd.frames f hold
    · rw [List.mem_singleton.1 hnew]
      exact hd.fb.frame_whole hc hf
  · trivial

theorem fbRestart_keepsDecodeInv (hd : DecodeInv s) : (fbRestart s).KeepsDecodeInv :=
  requireFb_ensures fun _ => ⟨⟨hd.bsr, hd.fb.restart, hd.frames⟩, hd.dec, hd.running⟩

end Units

/-! ## The Token Decoder keeps it -/

section Decoder
variable {s : State}

theorem decStart_keepsDecodeInv (hi : s.Inv) : (decStart s).KeepsDecodeInv := by
  by_cases hp : s.dec.phase = .idle
  · refine (decStart_ensures hi.decodeSound (noFault_of_idle hi.dec.1 hp)).mono ?_ ?_
    · rintro _ t ⟨-, hr, -⟩
      exact hr.decodeInv
    · rintro f t ⟨-, hs, -, -, -, hf⟩
      refine ⟨?_, hs⟩
      cases f with
      | truncatedStream _ => trivial
      | invalidHeader _ _ => trivial
      | _ => exact hf.elim
  · rw [decStart, requireStart_wrongPhase hp]; trivial

theorem decStep_keepsDecodeInv (hi : s.Inv) : (decStep s).KeepsDecodeInv := by
  by_cases hp : s.dec.phase = .run
  · refine (decStep_ensures (hi.decodeRuns hp)).mono ?_ ?_
    · rintro _ t ⟨-, hr, -⟩
      exact hr.decodeInv
    · rintro f t ⟨hf, hs, -⟩
      exact ⟨hf.ofDecode, hs⟩
  · rw [decStep, requireRoom_wrongPhase hp]; trivial

theorem decFrame_keepsDecodeInv (hi : s.Inv) : (decFrame s).KeepsDecodeInv := by
  by_cases hp : s.dec.phase = .run
  · have hr := hi.decodeRuns hp
    refine (decFrame_ensures hr).mono ?_ ?_
    · rintro _ t ⟨-, ⟨-, -, rfl⟩ | ⟨-, ht, -⟩⟩
      · exact (hr.toDecodeSound.setDec _).decodeInv_of_done rfl hr.fault
      · exact ht.decodeInv
    · rintro f t ⟨hf, -, hs, -⟩
      exact ⟨hf.ofDecode, hs⟩
  · rw [decFrame, requireBoundary_wrongPhase hp]; trivial

theorem decRun_keepsDecodeInv (hi : s.Inv) : (decRun s).KeepsDecodeInv := by
  by_cases hp : s.dec.phase = .idle
  · refine (Res.ensures_bind _ _ _ _).2
      (((decStart_ensures hi.decodeSound (noFault_of_idle hi.dec.1 hp)).and (decStart_keepsDecodeInv hi)).mono ?_ ?_)
    · rintro _ t ⟨⟨-, hr, -, -, -, hb⟩, -⟩
      refine (runFrames_ensures _ hr hb le_rfl).mono ?_ ?_
      · rintro _ u ⟨hs, -, hdone, hf, -⟩
        exact hs.decodeInv_of_done hdone hf
      · rintro f u ⟨hf, hs, -⟩
        exact ⟨hf.ofDecode, hs⟩
    · rintro f t ⟨-, hk⟩
      exact hk
  · rw [decRun, decStart, requireStart_wrongPhase hp]; trivial

end Decoder

/-! ## The stream elements keep it, where their bytes are there -/

/-- How many bytes from the cursor on an element passes at most (R197 to R200); a port operation has none (R114). -/
def extent : Instr → Nat
  | .hdr _ _ => 4
  | .lit _ p => 2 + p.length
  | .rpt _ _ => 3
  | .rsv _ => 2
  | _ => 0

/-- Inside a token the decoder owes samples (R41). -/
theorem Dec.RunInv.owes {d : Dec} (h : d.RunInv) (hm : d.dmode ≠ .readCount) :
    1 ≤ d.remaining ∧ d.remaining ≤ Config.maxRun := by
  unfold Dec.RunInv at h
  cases hd : d.dmode with
  | readCount => exact absurd hd hm
  | literal => simpa [hd] using h
  | repeating => simpa [hd] using h

theorem Fb.room_le (f : Fb) (h : f.fcur ≤ f.n) (m : Nat) : f.fcur + f.room m ≤ f.n := by
  unfold Fb.room; omega

section Elements
variable {s : State}

theorem DecodeRuns.pass {k : Nat} (h : DecodeRuns s) (hk : s.bsr.cur + k ≤ s.bsr.len) : DecodeRuns (s.pass k) :=
  ⟨h.toDecodeSound.setCur hk, h.phase, h.fault, h.built, h.regs⟩

theorem DecodeRuns.beginLiteral {n : Len} (h : DecodeRuns s) (hn : n ≠ 0) : DecodeRuns (beginLiteral n.toNat s) :=
  ⟨h.toDecodeSound.setDec _, h.phase, h.fault, h.built, len_pos hn, len_le n⟩

theorem DecodeRuns.beginRepeat {n : Len} (h : DecodeRuns s) (hn : n ≠ 0) (v : Byte) :
    DecodeRuns (beginRepeat n.toNat v s) :=
  ⟨h.toDecodeSound.setDec _, h.phase, h.fault, h.built, len_pos hn, len_le n⟩

/-- Inside a token, samples that the frame has room for keep the decoder running. -/
theorem DecodeRuns.placed_of_room (h : DecodeRuns s) (hm : s.dec.dmode ≠ .readCount) {samples : List Byte}
    (hroom : s.fb.fcur + samples.length ≤ s.fb.n) : DecodeRuns (s.placed samples) := by
  obtain ⟨hdims, -, hpix, hgrey⟩ := h.fb
  have owes := h.regs.owes hm
  refine ⟨⟨h.bsr, ⟨hdims, hroom, by simp [hpix], ?_⟩, h.frames⟩, h.phase, h.fault, h.built, ?_⟩
  · simp only [State.placed_fields, List.mem_append, List.mem_map]
    rintro p (hp | ⟨v, -, rfl⟩)
    · exact hgrey p hp
    · exact greyPixel_grey v
  · by_cases hend : s.dec.remaining ≤ samples.length
    · simp [Dec.RunInv, State.placed, hend]
    · cases hd : s.dec.dmode with
      | readCount => exact absurd hd hm
      | literal => simp [Dec.RunInv, State.placed, hend, hd]; omega
      | repeating => simp [Dec.RunInv, State.placed, hend, hd]; omega

theorem literalSamples_keepsDecodeInv {m : Nat} {p : List Byte} (h : DecodeRuns s) (hm : s.dec.dmode ≠ .readCount)
    (hroom : s.fb.fcur + m ≤ s.fb.n) (hfit : s.bsr.cur + p.length ≤ s.bsr.len) :
    (literalSamples m p s).KeepsDecodeInv := by
  rw [literalSamples_eq h.built hroom h.fb.2.2.1 (.inl (Nat.pos_iff_ne_zero.1 (h.regs.owes hm).1))]
  split
  · have taken : s.fb.fcur + (p.take m).length ≤ s.fb.n :=
      (Nat.add_le_add_left (List.length_take_le _ _) _).trans hroom
    exact DecodeRuns.decodeInv ((h.pass (by omega)).placed_of_room hm taken)
  · have taken : s.fb.fcur + p.length ≤ s.fb.n := by omega
    exact ⟨trivial, ((h.pass hfit).placed_of_room hm taken).toDecodeSound⟩

theorem repeatSamples_keepsDecodeInv {m : Nat} (h : DecodeRuns s) (hm : s.dec.dmode ≠ .readCount)
    (hroom : s.fb.fcur + m ≤ s.fb.n) : (repeatSamples m s).KeepsDecodeInv := by
  rw [repeatSamples_eq h.built hroom h.fb.2.2.1 (.inl (Nat.pos_iff_ne_zero.1 (h.regs.owes hm).1))]
  exact DecodeRuns.decodeInv (h.placed_of_room hm (by rwa [List.length_replicate]))

theorem hdr_keepsDecodeInv (hi : s.Inv) (h w : Half) (hfit : s.bsr.cur + 4 ≤ s.bsr.len) :
    (hdr h w s).KeepsDecodeInv := by
  refine requireStart_ensures fun hp _ _ => ?_
  refine (decHeader_ensures h w (hi.decodeSound.setCur hfit) (noFault_of_idle hi.dec.1 hp)).mono ?_ ?_
  · rintro _ t ⟨-, -, -, hr, -⟩
    exact hr.decodeInv
  · rintro f t ⟨-, rfl, rfl⟩
    exact ⟨trivial, hi.decodeSound.setCur hfit⟩

theorem rsv_keepsDecodeInv (hi : s.Inv) (k : Bool) (hfit : s.bsr.cur + 2 ≤ s.bsr.len) : (rsv k s).KeepsDecodeInv :=
  requireToken_ensures fun _ _ _ _ => ⟨trivial, hi.decodeSound.setCur hfit⟩

theorem lit_keepsDecodeInv (hi : s.Inv) (n : Len) (p : List Byte) (hfit : s.bsr.cur + (2 + p.length) ≤ s.bsr.len) :
    (lit n p s).KeepsDecodeInv := by
  unfold lit
  split
  · exact rsv_keepsDecodeInv hi _ (by omega)
  · next hn =>
    refine requireToken_ensures fun hp _ _ _ => ?_
    have begun := ((hi.decodeRuns hp).pass (k := 2) (by omega)).beginLiteral hn
    exact literalSamples_keepsDecodeInv begun nofun (s.fb.room_le hi.fb.2.1 _) (by rwa [← Nat.add_assoc] at hfit)

theorem rpt_keepsDecodeInv (hi : s.Inv) (n : Len) (v : Byte) (hfit : s.bsr.cur + 3 ≤ s.bsr.len) :
    (rpt n v s).KeepsDecodeInv := by
  unfold rpt
  split
  · exact rsv_keepsDecodeInv hi _ (by omega)
  · next hn =>
    refine requireToken_ensures fun hp _ _ _ => ?_
    have begun := ((hi.decodeRuns hp).pass hfit).beginRepeat hn v
    exact repeatSamples_keepsDecodeInv begun nofun (s.fb.room_le hi.fb.2.1 _)

end Elements

/-- Every operation of the decode path keeps the path's share of the invariant; a stream element does where its bytes
stand before the end of the buffer. -/
theorem exec_keepsDecodeInv {i : Instr} {s t : State} (hi : s.Inv) (hpath : i.path = .decode)
    (hfit : s.bsr.cur + extent i ≤ s.bsr.len) (h : exec i s = .next t) : DecodeInv t := by
  have hd := hi.decodeInv
  have primitive {α : Type} {g : α → OpResult} {r : Res α} (hr : r.KeepsDecodeInv)
      (h : finishPrimitive .decode g (guardPath .decode s r) = .next t) : DecodeInv t :=
    finishPrimitive_decodeInv (guardPath_ensures fun _ => hr) h
  have composite {α : Type} {g : α → OpResult} {r : Res α} (hr : r.KeepsDecodeInv)
      (h : finishComposite .decode g (guardPath .decode s r) = .next t) : DecodeInv t :=
    finishComposite_decodeInv (guardPath_ensures fun _ => hr) h
  cases i with
  | bswWriteU8 _ => cases hpath
  | bswWriteU16 _ => cases hpath
  | encStart _ _ => cases hpath
  | encSample _ => cases hpath
  | hdr height w => exact composite (hdr_keepsDecodeInv hi height w hfit) h
  | lit n p => exact composite (lit_keepsDecodeInv hi n p hfit) h
  | rpt n v => exact composite (rpt_keepsDecodeInv hi n v hfit) h
  | rsv k => exact composite (rsv_keepsDecodeInv hi k hfit) h
  | bsrLoad bytes => exact primitive (bsrLoad_keepsDecodeInv hd bytes) h
  | bsrReadU8 => exact primitive (bsrReadU8_keepsDecodeInv hd) h
  | bsrReadU16 => exact primitive (bsrReadU16_keepsDecodeInv hd) h
  | bsrAtEnd => exact primitive (r := bsrAtEnd s) hd h
  | fbConstruct height w => exact primitive (fbConstruct_keepsDecodeInv hd height w) h
  | fbInsertPixel v => exact primitive (fbInsertPixel_keepsDecodeInv hd v) h
  | fbIsFull => exact primitive (fbIsFull_keepsDecodeInv hd) h
  | fbEmit => exact primitive (fbEmit_keepsDecodeInv hd) h
  | fbRestart => exact primitive (fbRestart_keepsDecodeInv hd) h
  | decStart => exact composite (decStart_keepsDecodeInv hi) h
  | decStep => exact composite (decStep_keepsDecodeInv hi) h
  | decFrame => exact composite (decFrame_keepsDecodeInv hi) h
  | decRun => exact composite (decRun_keepsDecodeInv hi) h

/-! ## The share of the encode path -/

/-- The faults of the encode path (R220, R45). -/
def FaultRecord.ofEncode : FaultRecord → Prop
  | .invalidHeader _ _ => True
  | .sinkFailure _ => True
  | _ => False

/-- Fault entry keeps the encoder's invariant, with any fault of the path (R226, R45). -/
theorem takeFault_encInv {f : FaultRecord} (hf : f.ofEncode) (s : State) : (takeFault .encode f s).enc.Inv := by
  refine ⟨?_, nofun⟩
  cases f with
  | invalidHeader _ _ => rfl
  | sinkFailure _ => rfl
  | _ => exact hf.elim

theorem Enc.FaultInv.of_running {e : Enc} (h : e.FaultInv) (hp : e.phase = .run ∨ e.phase = .idle) : e.fault = .noFault := by
  have not_fault : e.phase ≠ .fault := by rcases hp with hp | hp <;> simp [hp]
  unfold Enc.FaultInv at h
  cases hf : e.fault with
  | noFault => rfl
  | invalidHeader _ _ => exact absurd (by simpa [hf] using h) not_fault
  | sinkFailure _ => exact absurd (by simpa [hf] using h) not_fault
  | _ => simp [hf] at h

theorem Enc.Inv.of_run {e : Enc} (hf : e.fault = .noFault) (hp : e.phase = .run) (hr : e.RunInv) : e.Inv :=
  ⟨by simp [Enc.FaultInv, hf, hp], fun _ => hr⟩

/-- What an operation of the encode path must guarantee for the encoder's invariant. -/
def Res.KeepsEncInv {α : Type} (r : Res α) : Prop := r.Ensures (fun _ t => t.enc.Inv) (fun f _ => f.ofEncode)

section FinishEncode
variable {α : Type} {g : α → OpResult} {r : Res α} {t : State}

theorem finishPrimitive_encInv (hr : r.KeepsEncInv) (h : finishPrimitive .encode g r = .next t) : t.enc.Inv := by
  rcases finishPrimitive_next h with ⟨a, u, rfl, rfl⟩ | ⟨f, u, rfl, rfl⟩
  · exact hr
  · exact takeFault_encInv hr u

theorem finishComposite_encInv (hr : r.KeepsEncInv) (h : finishComposite .encode g r = .next t) : t.enc.Inv := by
  rcases finishComposite_next h with ⟨a, u, rfl, rfl⟩ | ⟨f, u, rfl, rfl⟩
  · exact hr
  · exact takeFault_encInv hr _

end FinishEncode

section Encoder
variable {s : State}

theorem writeBytes_keepsEncInv (he : s.enc.Inv) (bs : List Byte) : (writeBytes bs s).KeepsEncInv := by
  refine (writeBytes_ensures bs s).mono ?_ ?_
  · rintro _ t ⟨-, rfl⟩
    exact he
  · rintro f t ⟨pre, b, post, -, -, -, rfl⟩
    trivial

/-- At a frame start nothing is pending (R261, R39 (a)). -/
theorem encFrameStart_runInv (hh : s.enc.height ≠ 0) (hw : s.enc.width ≠ 0) : (encFrameStart s).enc.RunInv := by
  have dims_pos {d : Half} (hd : d ≠ 0) : 0 < d.toNat :=
    Nat.pos_of_ne_zero fun h0 => hd (BitVec.eq_of_toNat_eq (by simpa using h0))
  exact ⟨hh, hw, Nat.mul_pos (dims_pos hh) (dims_pos hw), ⟨fun _ => rfl, fun _ => rfl⟩, fun _ => ⟨rfl, rfl, rfl⟩, nofun⟩

theorem encStart_keepsEncInv (he : s.enc.Inv) (h w : Half) : (encStart h w s).KeepsEncInv := by
  refine (encStart_ensures h w s).mono ?_ ?_
  · rintro _ t ⟨hp, hh, hw, rfl⟩
    exact Enc.Inv.of_run (he.1.of_running (.inr hp)) rfl (encFrameStart_runInv
      (s := (s.written (headerBytes h w)).setEnc { s.enc with height := h, width := w }) hh hw)
  · rintro f t ⟨-, ⟨-, rfl, -⟩ | ⟨-, -, pre, b, post, -, -, rfl⟩⟩
    · trivial
    · trivial

theorem encSample_keepsEncInv (he : s.enc.Inv) (v : Byte) : (encSample v s).KeepsEncInv := by
  refine (encSample_ensures v s).mono ?_ ?_
  · rintro _ t ⟨hp, rfl⟩
    have hrun := he.2 hp
    have hf := he.1.of_running (.inl hp)
    obtain ⟨height_eq, width_eq, pos_eq, phase_eq, fault_eq⟩ := encArm_frame s.enc v
    unfold State.afterSample
    cases hfinal : s.enc.isFinal
    · have hnext := hrun.arm v hfinal
      rw [← pos_eq] at hnext
      exact Enc.Inv.of_run (fault_eq.trans hf) (phase_eq.trans hp) hnext
    · obtain ⟨hh, hw, -⟩ := hrun
      exact Enc.Inv.of_run (fault_eq.trans hf) (phase_eq.trans hp)
        (encFrameStart_runInv (s := (s.written _).setEnc (encArm s.enc v).2) (height_eq ▸ hh) (width_eq ▸ hw))
  · rintro f t ⟨-, pre, b, post, -, -, rfl⟩
    trivial

/-- Every operation of the encode path keeps the encoder's invariant. -/
theorem exec_keepsEncInv {i : Instr} {t : State} (he : s.enc.Inv) (hpath : i.path = .encode) (h : exec i s = .next t) :
    t.enc.Inv := by
  cases i with
  | bswWriteU8 v =>
    have hw := writeBytes_keepsEncInv he [v]
    rw [← bswWriteU8_eq] at hw
    exact finishPrimitive_encInv (guardPath_ensures fun _ => hw) h
  | bswWriteU16 v =>
    have hw := writeBytes_keepsEncInv he (halfBytes v)
    rw [← bswWriteU16_eq] at hw
    exact finishComposite_encInv (guardPath_ensures fun _ => hw) h
  | encStart height w => exact finishComposite_encInv (guardPath_ensures fun _ => encStart_keepsEncInv he height w) h
  | encSample v => exact finishComposite_encInv (guardPath_ensures fun _ => encSample_keepsEncInv he v) h
  | _ => cases hpath

end Encoder

/-- Every operation keeps the invariant of the machine, its own path's share (`exec_keepsDecodeInv`, `exec_keepsEncInv`) and
the other's, which it does not touch (R3). -/
theorem exec_keepsInv {i : Instr} {s t : State} (hi : s.Inv) (hfit : s.bsr.cur + extent i ≤ s.bsr.len)
    (h : exec i s = .next t) : t.Inv := by
  cases hpath : i.path with
  | encode =>
    exact State.Inv.of_paths (exec_keepsEncInv hi.enc hpath h) (hi.decodeInv.of_decodeSide (exec_encode_frame hpath h).1)
  | decode =>
    have henc : t.enc = s.enc := congrArg Prod.fst (exec_decode_frame hpath h).1
    exact State.Inv.of_paths (henc ▸ hi.enc) (exec_keepsDecodeInv hi hpath hfit h)

/-! ## The steps keep it -/

theorem extent_of_port {i : Instr} (h : i.isElement = false) : extent i = 0 := by
  cases i with
  | hdr _ _ => cases h
  | lit _ _ => cases h
  | rpt _ _ => cases h
  | rsv _ => cases h
  | _ => rfl

/-- What was decoded lies within `n` bytes: the whole element, or the fields before the one that is cut. -/
def Decoded.Within (n : Nat) : Decoded → Prop
  | .element i _ => extent i ≤ n
  | .rejected why => why.consumed ≤ n

theorem decodeHeader_within (bytes : List Byte) : Decoded.Within bytes.length (decodeHeader bytes) := by
  unfold decodeHeader
  split
  · simp [Decoded.Within, extent]
  · simp [Decoded.Within, Reject.consumed]
  · exact Nat.zero_le _

theorem decodeCount_within (c : Half) (rest : List Byte) : Decoded.Within (2 + rest.length) (decodeCount c rest) := by
  unfold decodeCount
  split_ifs
  · exact Nat.le_add_right _ _
  · cases rest with
    | nil => exact le_rfl
    | cons v rest => simp [Decoded.Within, extent]; omega
  · exact Nat.add_le_add_left (List.length_take_le' _ _) 2

theorem decode_within (pos : ElementPos) (bytes : List Byte) : Decoded.Within bytes.length (decode pos bytes) := by
  cases pos with
  | header => exact decodeHeader_within bytes
  | token =>
    rcases bytes with _ | ⟨b0, _ | ⟨b1, rest⟩⟩
    · exact Nat.zero_le _
    · exact Nat.zero_le _
    · have count := decodeCount_within (bigEndian b0 b1) rest
      rwa [Nat.add_comm] at count

theorem cutShort_keepsInv {s t : State} {why : Reject} (hi : s.Inv) (hfit : s.bsr.cur + why.consumed ≤ s.bsr.len)
    (h : cutShort why s = .next t) : t.Inv := by
  have hr : (Res.fault (α := Unit) (.truncatedStream (s.bsr.cur + why.consumed)) (s.pass why.consumed)).KeepsDecodeInv :=
    ⟨trivial, hi.decodeSound.setCur hfit⟩
  have henc : t.enc = s.enc := by
    cases h
    rfl
  exact State.Inv.of_paths (henc ▸ hi.enc) (finishComposite_decodeInv hr h)

theorem stepElement_keepsInv {s t : State} (hi : s.Inv) (h : stepElement s = .next t) : t.Inv := by
  have hcur : s.bsr.cur ≤ s.bsr.len := hi.bsr.2.2.1
  unfold stepElement fetch at h
  cases hpos : elementPos s with
  | inr why => simp [hpos] at h
  | inl pos =>
    have within := decode_within pos s.bytesAtCursor
    rw [bytesAtCursor_length] at within
    cases hdec : decode pos s.bytesAtCursor with
    | element i rest =>
      simp only [hpos, hdec] at h
      rw [hdec] at within
      exact exec_keepsInv hi (Nat.add_le_of_le_sub' hcur within) h
    | rejected why =>
      simp only [hpos, hdec] at h
      rw [hdec] at within
      exact cutShort_keepsInv hi (Nat.add_le_of_le_sub' hcur within) h

theorem stepOp_keepsInv {i : Instr} {s t : State} (hi : s.Inv) (h : stepOp i s = .next t) : t.Inv := by
  unfold stepOp at h
  split at h
  · cases h
  · next hport =>
    refine exec_keepsInv hi ?_ h
    rw [extent_of_port (Bool.eq_false_iff.2 hport)]
    exact hi.bsr.2.2.1

/-! ## Reset -/

theorem Enc.Inv.reset : Enc.reset.Inv := ⟨nofun, nofun⟩

/-- A decode path just reset, whatever the encode path holds (R50, R260). -/
theorem DecodeInv.reset {s : State} (hbsr : s.bsr = Bsr.reset) (hfb : s.fb = Fb.reset) (hdec : s.dec = Dec.reset)
    (hframes : s.frames = []) : DecodeInv s where
  bsr := hbsr ▸ ⟨rfl, nofun, le_rfl, fun _ => rfl⟩
  fb := hfb ▸ ⟨nofun, Nat.zero_le _, rfl, nofun⟩
  frames := hframes ▸ nofun
  dec := hdec ▸ ⟨nofun, nofun⟩
  running := by simp [hdec, Dec.reset]

theorem resetPath_keepsInv {s : State} (hi : s.Inv) (p : Path) : (resetPath p s).Inv := by
  cases p with
  | encode => exact State.Inv.of_paths Enc.Inv.reset (hi.decodeInv.of_decodeSide rfl)
  | decode => exact State.Inv.of_paths hi.enc (DecodeInv.reset rfl rfl rfl rfl)

theorem resetScope_keepsInv {s : State} (hi : s.Inv) (scope : ResetScope) : (resetScope scope s).Inv := by
  cases scope with
  | core => exact resetPath_keepsInv (resetPath_keepsInv hi .encode) .decode
  | path p => exact resetPath_keepsInv hi p

/-- Settles O45: both paths are at their reset values. -/
theorem resetMeetsInvariant : Obligations.ResetMeetsInvariant :=
  State.Inv.of_paths Enc.Inv.reset (DecodeInv.reset rfl rfl rfl rfl)

/-- The host's queue is no part of the invariant. -/
theorem State.Inv.setRequests {s : State} (hi : s.Inv) (queue : List Request) : (s.setRequests queue).Inv :=
  State.Inv.of_paths hi.enc (hi.decodeInv.of_decodeSide rfl)

/-- Settles O46: a step performs the oldest request, and each kind of request keeps the invariant. -/
theorem stepKeepsInvariant : Obligations.StepKeepsInvariant := by
  intro s t hi h
  unfold step at h
  split at h
  case h_1 => cases h; exact hi
  case h_2 => exact stepOp_keepsInv (hi.setRequests _) h
  case h_3 => exact stepElement_keepsInv (hi.setRequests _) h
  case h_4 => cases h; exact resetScope_keepsInv (hi.setRequests _) _

end Sys2Proof.Machine

/-! PROOFS. The statements of 10_state.md about what operations leave alone, from any state, whether they complete or
fault: the input buffer (R21, R23), the output sink (R25), the dimensions (R27, R32) and the Frame Sink (R47). -/

namespace Sys2Proof.Machine

/-! ## Wherever an operation ends -/

/-- Wherever the operation ends, completed or in a fault, the state there meets `R`. -/
def Res.Within {α : Type} (R : State → Prop) (r : Res α) : Prop := r.Ensures (fun _ t => R t) (fun _ t => R t)

theorem Res.Within.mono {α : Type} {R R' : State → Prop} {r : Res α} (h : r.Within R) (himp : ∀ t, R t → R' t) :
    r.Within R' :=
  Res.Ensures.mono h (fun _ => himp) (fun _ => himp)

theorem Res.Within.bind {α β : Type} {R R' : State → Prop} {r : Res α} {k : α → State → Res β} (h : r.Within R)
    (hk : ∀ a t, R t → (k a t).Within R') (hfault : ∀ t, R t → R' t) : (r.bind k).Within R' :=
  (Res.ensures_bind _ _ _ _).2 (Res.Ensures.mono h hk fun _ => hfault)

/-- What taking the result, or a fault, at the end of an operation leaves as the operation left it. -/
structure SameUnits (u t : State) : Prop where
  bsr : t.bsr = u.bsr
  bsw : t.bsw = u.bsw
  fb : t.fb = u.fb
  frames : t.frames = u.frames
  encHeight : t.enc.height = u.enc.height
  encWidth : t.enc.width = u.enc.width

theorem SameUnits.takeFault (p : Path) (f : FaultRecord) (u : State) : SameUnits u (takeFault p f u) := by
  cases p <;> exact ⟨rfl, rfl, rfl, rfl, rfl, rfl⟩

theorem SameUnits.takeFault_leaveUnspecified (p : Path) (f : FaultRecord) (u : State) :
    SameUnits u (Machine.takeFault p f (leaveUnspecified p u)) := by
  cases p <;> exact ⟨rfl, rfl, rfl, rfl, rfl, rfl⟩

section Finish
variable {α : Type} {p : Path} {g : α → OpResult} {s t : State} {r : Res α} {R : State → Prop}

theorem finishPrimitive_within (hr : r.Within R) (h : finishPrimitive p g (guardPath p s r) = .next t) :
    ∃ u, R u ∧ SameUnits u t := by
  have guarded : (guardPath p s r).Within R := guardPath_ensures fun _ => hr
  rcases finishPrimitive_next h with ⟨a, u, hu, rfl⟩ | ⟨f, u, hu, rfl⟩
  · rw [hu] at guarded
    exact ⟨u, guarded, rfl, rfl, rfl, rfl, rfl, rfl⟩
  · rw [hu] at guarded
    exact ⟨u, guarded, SameUnits.takeFault p f u⟩

theorem finishComposite_within (hr : r.Within R) (h : finishComposite p g (guardPath p s r) = .next t) :
    ∃ u, R u ∧ SameUnits u t := by
  have guarded : (guardPath p s r).Within R := guardPath_ensures fun _ => hr
  rcases finishComposite_next h with ⟨a, u, hu, rfl⟩ | ⟨f, u, hu, rfl⟩
  · rw [hu] at guarded
    exact ⟨u, guarded, rfl, rfl, rfl, rfl, rfl, rfl⟩
  · rw [hu] at guarded
    exact ⟨u, guarded, SameUnits.takeFault_leaveUnspecified p f u⟩

end Finish

/-! ## The decode path: operations that hand over no frame -/

/-- `DecodeKeeps` of an operation that hands over no frame either. -/
structure QuietKeeps (s t : State) : Prop extends DecodeKeeps s t where
  sameFrames : t.frames = s.frames

theorem QuietKeeps.refl (s : State) : QuietKeeps s s := ⟨DecodeKeeps.refl s, rfl⟩

theorem QuietKeeps.trans {s t u : State} (h : QuietKeeps s t) (k : QuietKeeps t u) : QuietKeeps s u :=
  ⟨h.toDecodeKeeps.trans k.toDecodeKeeps, k.sameFrames.trans h.sameFrames⟩

theorem QuietKeeps.setDec (s : State) (d : Dec) : QuietKeeps s (s.setDec d) := ⟨DecodeKeeps.setDec s d, rfl⟩

theorem QuietKeeps.setCur {s : State} {k : Nat} (h : s.bsr.cur + k ≤ s.bsr.len) :
    QuietKeeps s (s.setCur (s.bsr.cur + k)) :=
  ⟨DecodeKeeps.setCur h, rfl⟩

/-- A write of the Frame Buffer that is not constructed yet, or that keeps it constructed with its dimensions (R27). -/
theorem QuietKeeps.setFb {s : State} {f : Fb}
    (h : s.fb.constructed = true → f.constructed = true ∧ f.height = s.fb.height ∧ f.width = s.fb.width) :
    QuietKeeps s (s.setFb f) :=
  ⟨⟨rfl, rfl, rfl, rfl, rfl, rfl, rfl, rfl, rfl, le_rfl, id, List.prefix_rfl, h⟩, rfl⟩

theorem QuietKeeps.emptyFb (s : State) : QuietKeeps s s.emptyFb :=
  ⟨⟨rfl, rfl, rfl, rfl, rfl, rfl, rfl, rfl, rfl, le_rfl, id, List.prefix_rfl, fun built => ⟨built, rfl, rfl⟩⟩, rfl⟩

theorem bsrReadU8_quiet (s : State) : (bsrReadU8 s).Within (QuietKeeps s) := by
  refine (bsrReadU8_ensures s).mono ?_ ?_
  · rintro v t ⟨hl, -, rfl⟩
    exact QuietKeeps.setCur hl
  · rintro f t ⟨-, -, rfl⟩
    exact QuietKeeps.refl _

theorem bsrReadU16_quiet (s : State) : (bsrReadU16 s).Within (QuietKeeps s) := by
  refine (bsrReadU16_ensures s).mono ?_ ?_
  · rintro v t ⟨hl, -, rfl⟩
    exact QuietKeeps.setCur hl
  · rintro f t ⟨-, -, rfl⟩
    exact QuietKeeps.refl _

theorem fbConstruct_quiet (h w : Half) (s : State) : (fbConstruct h w s).Within (QuietKeeps s) := by
  unfold fbConstruct
  split_ifs with hc hz
  · trivial
  · trivial
  · exact QuietKeeps.setFb fun built => absurd built hc

theorem fbInsertPixel_quiet (v : Byte) (s : State) : (fbInsertPixel v s).Within (QuietKeeps s) := by
  refine (fbInsertPixel_ensures v s).mono ?_ ?_
  · rintro _ t ⟨-, -, rfl⟩
    exact QuietKeeps.setFb fun built => ⟨built, rfl, rfl⟩
  · rintro f t ⟨-, -, rfl⟩
    exact QuietKeeps.refl _

theorem fbIsFull_quiet (s : State) : (fbIsFull s).Within (QuietKeeps s) :=
  requireFb_ensures fun _ => QuietKeeps.refl s

theorem fbRestart_quiet (s : State) : (fbRestart s).Within (QuietKeeps s) :=
  requireFb_ensures fun _ => QuietKeeps.emptyFb s

theorem decHeader_quiet (h w : Half) (s : State) : (decHeader h w s).Within (QuietKeeps s) := by
  unfold decHeader
  split
  · exact QuietKeeps.refl s
  · exact (fbConstruct_quiet h w s).bind (fun _ _ hk => hk.trans (QuietKeeps.setDec _ _)) fun _ => id

theorem decStart_quiet (s : State) : (decStart s).Within (QuietKeeps s) :=
  requireStart_ensures fun _ _ _ =>
    (bsrReadU16_quiet s).bind (fun h s1 k1 =>
      (bsrReadU16_quiet s1).bind (fun w s2 k2 => (decHeader_quiet h w s2).mono fun _ => (k1.trans k2).trans)
        fun _ => k1.trans) fun _ => id

theorem readCountArm_quiet (s : State) : (readCountArm s).Within (QuietKeeps s) := by
  refine (readCountArm_ensures s).mono ?_ ?_
  · rintro _ t ⟨n, -, ⟨hl, -, rfl⟩ | ⟨hl, -, rfl⟩⟩
    · exact (QuietKeeps.setCur hl).trans (QuietKeeps.setDec _ _)
    · exact (QuietKeeps.setCur hl).trans (QuietKeeps.setDec _ _)
  · rintro f t (⟨-, -, rfl⟩ | ⟨hl, rfl, -⟩)
    · exact QuietKeeps.refl _
    · exact QuietKeeps.setCur hl

theorem placeSample_quiet (v : Byte) (s : State) : (placeSample v s).Within (QuietKeeps s) :=
  (fbInsertPixel_quiet v s).bind (fun _ _ hk => hk.trans (QuietKeeps.setDec _ _)) fun _ => id

theorem decStep_quiet (s : State) : (decStep s).Within (QuietKeeps s) := by
  refine requireRoom_ensures fun _ _ _ => ?_
  unfold decArm
  split
  · exact readCountArm_quiet s
  · exact (bsrReadU8_quiet s).bind (fun v s1 k1 => (placeSample_quiet v s1).mono fun _ => k1.trans) fun _ => id
  · exact placeSample_quiet _ s

theorem fillFrame_quiet (k : Nat) (s : State) : (fillFrame k s).Within (QuietKeeps s) := by
  induction k generalizing s with
  | zero => exact QuietKeeps.refl s
  | succ k ih =>
    unfold fillFrame
    split
    · exact QuietKeeps.refl s
    · have header : (if s.dec.dmode = .readCount then decStep s else .ok () s).Within (QuietKeeps s) := by
        split
        · exact decStep_quiet s
        · exact QuietKeeps.refl s
      exact header.bind (fun _ s1 k1 =>
        (decStep_quiet s1).bind (fun _ s2 k2 => (ih s2).mono fun _ => (k1.trans k2).trans) fun _ => k1.trans) fun _ => id

/-! ## The decode path: operations that hand over frames -/

theorem fbEmit_keeps (s : State) : (fbEmit s).Within (DecodeKeeps s) := by
  refine requireFb_ensures fun _ => ?_
  split
  · exact ⟨rfl, rfl, rfl, rfl, rfl, rfl, rfl, rfl, rfl, le_rfl, id, List.prefix_append _ _, fun built => ⟨built, rfl, rfl⟩⟩
  · trivial

theorem DecodeKeeps.decFrameStart (s : State) : DecodeKeeps s (decFrameStart s) :=
  ⟨rfl, rfl, rfl, rfl, rfl, rfl, rfl, rfl, rfl, le_rfl, id, List.prefix_rfl, fun built => ⟨built, rfl, rfl⟩⟩

theorem decFrame_keeps (s : State) : (decFrame s).Within (DecodeKeeps s) := by
  refine requireBoundary_ensures fun _ _ => ?_
  split
  · exact DecodeKeeps.setDec _ _
  · refine (fbRestart_quiet s).bind (fun _ s1 k1 => ?_) fun _ => QuietKeeps.toDecodeKeeps
    have start : DecodeKeeps s (decFrameStart s1) := k1.toDecodeKeeps.trans (DecodeKeeps.decFrameStart s1)
    refine (fillFrame_quiet _ (decFrameStart s1)).bind (fun _ s2 k2 => ?_) fun _ k2 => start.trans k2.toDecodeKeeps
    have filled : DecodeKeeps s s2 := start.trans k2.toDecodeKeeps
    exact (fbEmit_keeps s2).bind (fun _ _ k3 => filled.trans k3) fun _ => filled.trans

theorem runFrames_keeps (k : Nat) (s : State) : (runFrames k s).Within (DecodeKeeps s) := by
  induction k generalizing s with
  | zero => exact (decFrame_keeps s).bind (fun _ _ => id) fun _ => id
  | succ k ih =>
    refine (decFrame_keeps s).bind (fun f s1 k1 => ?_) fun _ => id
    cases f with
    | none => exact k1
    | some _ => exact (ih s1).mono fun _ => k1.trans

theorem decRun_keeps (s : State) : (decRun s).Within (DecodeKeeps s) :=
  (decStart_quiet s).bind (fun _ s1 k1 => (runFrames_keeps _ s1).mono fun _ => k1.toDecodeKeeps.trans)
    fun _ => QuietKeeps.toDecodeKeeps

/-! ## The decode path: operations that move or load the reader -/

/-- What a stream element and `BSR.LOAD` leave alone from any state: the Frame Sink and the dimensions. -/
structure FramesKept (s t : State) : Prop where
  sameFrames : t.frames = s.frames
  dims : s.fb.constructed = true → t.fb.constructed = true ∧ t.fb.height = s.fb.height ∧ t.fb.width = s.fb.width

theorem FramesKept.refl (s : State) : FramesKept s s := ⟨rfl, fun built => ⟨built, rfl, rfl⟩⟩

theorem FramesKept.trans {s t u : State} (h : FramesKept s t) (k : FramesKept t u) : FramesKept s u where
  sameFrames := k.sameFrames.trans h.sameFrames
  dims := fun built =>
    have ⟨built1, height1, width1⟩ := h.dims built
    have ⟨built2, height2, width2⟩ := k.dims built1
    ⟨built2, height2.trans height1, width2.trans width1⟩

theorem QuietKeeps.framesKept {s t : State} (h : QuietKeeps s t) : FramesKept s t := ⟨h.sameFrames, h.dims⟩

theorem FramesKept.of_eq {s t : State} (hframes : t.frames = s.frames) (hfb : t.fb = s.fb) : FramesKept s t :=
  ⟨hframes, fun built => by rw [hfb]; exact ⟨built, rfl, rfl⟩⟩

theorem FramesKept.pass (s : State) (k : Nat) : FramesKept s (s.pass k) := FramesKept.of_eq rfl rfl

theorem bsrLoad_framesKept (bytes : List Byte) (s : State) : (bsrLoad bytes s).Within (FramesKept s) :=
  FramesKept.of_eq rfl rfl

theorem hdr_framesKept (h w : Half) (s : State) : (hdr h w s).Within (FramesKept s) :=
  requireStart_ensures fun _ _ _ =>
    (decHeader_quiet h w (s.pass 4)).mono fun _ hk => (FramesKept.pass s 4).trans hk.framesKept

theorem rsv_framesKept (k : Bool) (s : State) : (rsv k s).Within (FramesKept s) :=
  requireToken_ensures fun _ _ _ _ => FramesKept.pass s 2

theorem literalSamples_framesKept (m : Nat) (bytes : List Byte) (s : State) :
    (literalSamples m bytes s).Within (FramesKept s) := by
  induction m generalizing bytes s with
  | zero => exact FramesKept.refl s
  | succ m ih =>
    cases bytes with
    | nil => exact FramesKept.refl s
    | cons b bytes =>
      have placed : (placeSample b (s.pass 1)).Within (FramesKept s) :=
        (placeSample_quiet b (s.pass 1)).mono fun _ hk => (FramesKept.pass s 1).trans hk.framesKept
      exact placed.bind (fun _ s1 k1 => (ih bytes s1).mono fun _ => k1.trans) fun _ => id

theorem repeatSamples_framesKept (m : Nat) (s : State) : (repeatSamples m s).Within (FramesKept s) := by
  induction m generalizing s with
  | zero => exact FramesKept.refl s
  | succ m ih =>
    have placed : (repeatStep s).Within (FramesKept s) := (placeSample_quiet _ s).mono fun _ => QuietKeeps.framesKept
    exact placed.bind (fun _ s1 k1 => (ih s1).mono fun _ => k1.trans) fun _ => id

theorem lit_framesKept (n : Len) (p : List Byte) (s : State) : (lit n p s).Within (FramesKept s) := by
  unfold lit
  split
  · exact rsv_framesKept false s
  · exact requireToken_ensures fun _ _ _ _ =>
      (literalSamples_framesKept _ p _).mono fun _ =>
        (FramesKept.of_eq (s := s) (t := beginLiteral n.toNat (s.pass 2)) rfl rfl).trans

theorem rpt_framesKept (n : Len) (v : Byte) (s : State) : (rpt n v s).Within (FramesKept s) := by
  unfold rpt
  split
  · exact rsv_framesKept true s
  · exact requireToken_ensures fun _ _ _ _ =>
      (repeatSamples_framesKept _ _).mono fun _ =>
        (FramesKept.of_eq (s := s) (t := beginRepeat n.toNat v (s.pass 3)) rfl rfl).trans

/-! ## Every operation of the decode path -/

/-- What R21 and R23 say of the reader. -/
structure ReaderKeeps (b c : Bsr) : Prop where
  buf : c.buf = b.buf
  len : c.len = b.len
  attached : c.attached = b.attached
  cur : b.cur ≤ c.cur
  bound : b.cur ≤ b.len → c.cur ≤ c.len

theorem ReaderKeeps.refl (b : Bsr) : ReaderKeeps b b := ⟨rfl, rfl, rfl, le_rfl, id⟩

/-- What operation `i` of the decode path leaves alone of its own side. -/
structure OpKeeps (i : Instr) (s t : State) : Prop where
  reader : i.isElement = false → (∀ bytes, i ≠ .bsrLoad bytes) → ReaderKeeps s.bsr t.bsr
  grows : s.frames <+: t.frames
  sameFrames : i ≠ .fbEmit → i ≠ .decFrame → i ≠ .decRun → t.frames = s.frames
  dims : s.fb.constructed = true → t.fb.constructed = true ∧ t.fb.height = s.fb.height ∧ t.fb.width = s.fb.width

section OpKeeps
variable {i : Instr} {s t : State}

theorem DecodeKeeps.reader {u : State} (k : DecodeKeeps s u) (same : SameUnits u t) : ReaderKeeps s.bsr t.bsr := by
  rw [same.bsr]
  exact ⟨k.buf, k.len, k.attached, k.cur, k.bound⟩

/-- An operation that hands over frames, one of the three. -/
theorem OpKeeps.of_decodeKeeps (hi : i = .fbEmit ∨ i = .decFrame ∨ i = .decRun) (h : ∃ u, DecodeKeeps s u ∧ SameUnits u t) :
    OpKeeps i s t := by
  obtain ⟨u, k, same⟩ := h
  refine ⟨fun _ _ => k.reader same, same.frames ▸ k.frames, fun h1 h2 h3 => ?_, same.fb ▸ k.dims⟩
  rcases hi with hi | hi | hi
  · exact absurd hi h1
  · exact absurd hi h2
  · exact absurd hi h3

theorem OpKeeps.of_quietKeeps (h : ∃ u, QuietKeeps s u ∧ SameUnits u t) : OpKeeps i s t := by
  obtain ⟨u, k, same⟩ := h
  exact ⟨fun _ _ => k.reader same, same.frames ▸ k.frames, fun _ _ _ => same.frames.trans k.sameFrames, same.fb ▸ k.dims⟩

/-- An operation about whose reader nothing is claimed: a stream element or `BSR.LOAD`. -/
theorem OpKeeps.of_framesKept (hi : i.isElement = false → ∃ bytes, i = .bsrLoad bytes)
    (h : ∃ u, FramesKept s u ∧ SameUnits u t) : OpKeeps i s t := by
  obtain ⟨u, k, same⟩ := h
  have frames_eq : t.frames = s.frames := same.frames.trans k.sameFrames
  refine ⟨fun hport hload => ?_, frames_eq ▸ List.prefix_rfl, fun _ _ _ => frames_eq, same.fb ▸ k.dims⟩
  obtain ⟨bytes, rfl⟩ := hi hport
  exact absurd rfl (hload bytes)

/-- Says once, for every operation of the decode path and from any state, what it leaves alone of its own side. -/
theorem exec_opKeeps (hpath : i.path = .decode) (h : exec i s = .next t) : OpKeeps i s t := by
  cases i with
  | bswWriteU8 _ => cases hpath
  | bswWriteU16 _ => cases hpath
  | encStart _ _ => cases hpath
  | encSample _ => cases hpath
  | hdr height w => exact .of_framesKept nofun (finishComposite_within (hdr_framesKept height w s) h)
  | lit n p => exact .of_framesKept nofun (finishComposite_within (lit_framesKept n p s) h)
  | rpt n v => exact .of_framesKept nofun (finishComposite_within (rpt_framesKept n v s) h)
  | rsv k => exact .of_framesKept nofun (finishComposite_within (rsv_framesKept k s) h)
  | bsrLoad bytes => exact .of_framesKept (fun _ => ⟨bytes, rfl⟩) (finishPrimitive_within (bsrLoad_framesKept bytes s) h)
  | bsrReadU8 => exact .of_quietKeeps (finishPrimitive_within (bsrReadU8_quiet s) h)
  | bsrReadU16 => exact .of_quietKeeps (finishPrimitive_within (bsrReadU16_quiet s) h)
  | bsrAtEnd => exact .of_quietKeeps (finishPrimitive_within (r := bsrAtEnd s) (QuietKeeps.refl s) h)
  | fbConstruct height w => exact .of_quietKeeps (finishPrimitive_within (fbConstruct_quiet height w s) h)
  | fbInsertPixel v => exact .of_quietKeeps (finishPrimitive_within (fbInsertPixel_quiet v s) h)
  | fbIsFull => exact .of_quietKeeps (finishPrimitive_within (fbIsFull_quiet s) h)
  | fbRestart => exact .of_quietKeeps (finishPrimitive_within (fbRestart_quiet s) h)
  | decStart => exact .of_quietKeeps (finishComposite_within (decStart_quiet s) h)
  | decStep => exact .of_quietKeeps (finishComposite_within (decStep_quiet s) h)
  | fbEmit => exact .of_decodeKeeps (.inl rfl) (finishPrimitive_within (fbEmit_keeps s) h)
  | decFrame => exact .of_decodeKeeps (.inr (.inl rfl)) (finishComposite_within (decFrame_keeps s) h)
  | decRun => exact .of_decodeKeeps (.inr (.inr rfl)) (finishComposite_within (decRun_keeps s) h)

end OpKeeps

/-! ## Every operation of the encode path -/

/-- What an operation of the encode path leaves alone of its own side: the bytes written (R25) and, in a frame sequence,
the dimensions (R32). -/
structure EncodeKeeps (s t : State) : Prop where
  out : s.bsw.out <+: t.bsw.out
  dims : s.enc.phase ≠ .idle → t.enc.height = s.enc.height ∧ t.enc.width = s.enc.width

theorem EncodeKeeps.written (s : State) (bytes : List Byte) : EncodeKeeps s (s.written bytes) :=
  ⟨List.prefix_append _ _, fun _ => ⟨rfl, rfl⟩⟩

/-- The sink has taken some bytes and has refused the next (R134). -/
theorem EncodeKeeps.written_drawSink (s : State) (bytes : List Byte) : EncodeKeeps s (s.written bytes).drawSink :=
  ⟨List.prefix_append _ _, fun _ => ⟨rfl, rfl⟩⟩

theorem EncodeKeeps.of_sameUnits {s t u : State} (k : EncodeKeeps s u) (same : SameUnits u t) : EncodeKeeps s t :=
  ⟨same.bsw ▸ k.out, fun hp => ⟨same.encHeight.trans (k.dims hp).1, same.encWidth.trans (k.dims hp).2⟩⟩

section Encode
variable {s t : State}

theorem writeBytes_keeps (bytes : List Byte) (s : State) : (writeBytes bytes s).Within (EncodeKeeps s) := by
  refine (writeBytes_ensures bytes s).mono ?_ ?_
  · rintro _ t ⟨-, rfl⟩
    exact EncodeKeeps.written s bytes
  · rintro f t ⟨pre, b, post, -, -, rfl, -⟩
    exact EncodeKeeps.written_drawSink s pre

/-- `ENC.START` is performed in phase `Idle` only (R160), where no dimension is held yet. -/
theorem encStart_keeps (h w : Half) (s : State) : (encStart h w s).Within (EncodeKeeps s) := by
  have of_idle {t : State} (hp : s.enc.phase = .idle) (hout : s.bsw.out <+: t.bsw.out) : EncodeKeeps s t :=
    ⟨hout, fun hne => absurd hp hne⟩
  refine (encStart_ensures h w s).mono ?_ ?_
  · rintro _ t ⟨hp, -, -, rfl⟩
    exact of_idle hp (List.prefix_append _ _)
  · rintro f t ⟨hp, ⟨-, -, rfl⟩ | ⟨-, -, pre, b, post, -, rfl, -⟩⟩
    · exact of_idle hp List.prefix_rfl
    · exact of_idle hp (List.prefix_append _ _)

theorem afterSample_keeps (s : State) (v : Byte) : EncodeKeeps s (s.afterSample v) := by
  obtain ⟨height_eq, width_eq, -⟩ := encArm_frame s.enc v
  unfold State.afterSample
  dsimp only
  split
  · exact ⟨List.prefix_append _ _, fun _ => ⟨height_eq, width_eq⟩⟩
  · exact ⟨List.prefix_append _ _, fun _ => ⟨height_eq, width_eq⟩⟩

theorem encSample_keeps (v : Byte) (s : State) : (encSample v s).Within (EncodeKeeps s) := by
  refine (encSample_ensures v s).mono ?_ ?_
  · rintro _ t ⟨-, rfl⟩
    exact afterSample_keeps s v
  · rintro f t ⟨-, pre, b, post, -, rfl, -⟩
    exact EncodeKeeps.written_drawSink s pre

theorem exec_encodeKeeps {i : Instr} (hpath : i.path = .encode) (h : exec i s = .next t) : EncodeKeeps s t := by
  have done : (∃ u, EncodeKeeps s u ∧ SameUnits u t) → EncodeKeeps s t := fun ⟨_, k, same⟩ => k.of_sameUnits same
  cases i with
  | bswWriteU8 v => exact done (finishPrimitive_within (bswWriteU8_eq v s ▸ writeBytes_keeps [v] s) h)
  | bswWriteU16 v => exact done (finishComposite_within (bswWriteU16_eq v s ▸ writeBytes_keeps (halfBytes v) s) h)
  | encStart height w => exact done (finishComposite_within (encStart_keeps height w s) h)
  | encSample v => exact done (finishComposite_within (encSample_keeps v s) h)
  | _ => cases hpath

end Encode

/-! ## What no operation changes -/

/-- An operation of the encode path leaves the units of the decode path as they are (R3). -/
theorem exec_encode_units {i : Instr} {s t : State} (hpath : i.path = .encode) (h : exec i s = .next t) :
    t.bsr = s.bsr ∧ t.fb = s.fb ∧ t.frames = s.frames := by
  have side := (exec_encode_frame hpath h).1
  simp only [State.decodeSide, Prod.mk.injEq] at side
  obtain ⟨hbsr, hfb, -, hframes, -⟩ := side
  exact ⟨hbsr, hfb, hframes⟩

/-- An operation of the decode path leaves the units of the encode path as they are (R3). -/
theorem exec_decode_units {i : Instr} {s t : State} (hpath : i.path = .decode) (h : exec i s = .next t) :
    t.enc = s.enc ∧ t.bsw = s.bsw := by
  have side := (exec_decode_frame hpath h).1
  simp only [State.encodeSide, Prod.mk.injEq] at side
  obtain ⟨henc, hbsw, -⟩ := side
  exact ⟨henc, hbsw⟩

/-- Settles O53: the decode path's operations keep the reader (`exec_opKeeps`), and the encode path's do not touch it. -/
theorem bufferImmutableCursorAdvances : Obligations.BufferImmutableCursorAdvances := by
  intro i s t h hport hload
  have reader : ReaderKeeps s.bsr t.bsr := by
    cases hpath : i.path with
    | encode => exact (exec_encode_units hpath h).1 ▸ ReaderKeeps.refl s.bsr
    | decode => exact (exec_opKeeps hpath h).reader hport hload
  exact ⟨fun a => by rw [reader.buf], reader.len, reader.attached, reader.cur, reader.bound⟩

/-- Settles O54: an encode operation appends (`exec_encodeKeeps`), a decode operation has no access to the sink. -/
theorem outputIsAppendOnly : Obligations.OutputIsAppendOnly := by
  intro i s t h
  cases hpath : i.path with
  | encode => exact ⟨(exec_encodeKeeps hpath h).out, nofun⟩
  | decode =>
    have hbsw := (exec_decode_units hpath h).2
    exact ⟨hbsw ▸ List.prefix_rfl, fun _ => hbsw⟩

/-- Settles O55: a decode operation only adds frames (`exec_opKeeps`), an encode operation has no access to the Frame
Sink. -/
theorem framesAreAppendOnly : Obligations.FramesAreAppendOnly := by
  intro i s t h
  cases hpath : i.path with
  | encode =>
    have hframes := (exec_encode_units hpath h).2.2
    exact ⟨hframes ▸ List.prefix_rfl, fun _ _ _ => hframes⟩
  | decode =>
    have keeps := exec_opKeeps hpath h
    exact ⟨keeps.grows, keeps.sameFrames⟩

/-- Settles O56: each path's operations keep its dimensions, and do not touch the other's. -/
theorem dimensionsAreImmutable : Obligations.DimensionsAreImmutable := by
  intro i s t h
  cases hpath : i.path with
  | encode =>
    obtain ⟨-, hfb, -⟩ := exec_encode_units hpath h
    exact ⟨fun built => by rw [hfb]; exact ⟨built, rfl, rfl⟩, (exec_encodeKeeps hpath h).dims⟩
  | decode =>
    obtain ⟨henc, -⟩ := exec_decode_units hpath h
    exact ⟨(exec_opKeeps hpath h).dims, fun _ => by rw [henc]; exact ⟨rfl, rfl⟩⟩

/-! ## Before construction (R27) -/

/-- Settles O17: each of the four asks for a constructed Frame Buffer first. -/
theorem frameBufferNeedsConstruction : Obligations.FrameBufferNeedsConstruction := by
  intro v s hp hc
  have refused {α : Type} (r : Res α) : requireFb s r = .refused .fbNotConstructed := if_neg (by simp [hc])
  have not_faulted : s.faulted .decode = false := decode_not_faulted hp
  exact ⟨finishPrimitive_of_refused not_faulted (refused _), finishPrimitive_of_refused not_faulted (refused _),
    finishPrimitive_of_refused not_faulted (refused _), finishPrimitive_of_refused not_faulted (refused _)⟩

/-! ## The state after reset (R50, R260) -/

/-- Settles O47: each value is read off the reset state. -/
theorem resetStateValues : Obligations.ResetStateValues := by
  exact ⟨rfl, rfl, rfl, rfl, rfl, rfl, rfl, rfl, rfl, rfl, rfl, rfl, rfl, rfl, rfl, rfl, rfl, rfl, rfl⟩

/-! ## Emitted and pending samples (R39 (e), R174) -/

theorem Enc.isFinal_iff (e : Enc) : e.isFinal = true ↔ e.pos + 1 = e.height.toNat * e.width.toNat := by
  simp [Enc.isFinal, Enc.n]

@[simp] theorem afterSample_out (s : State) (v : Byte) :
    (s.afterSample v).bsw.out = s.bsw.out ++ tokensBytes (encArm s.enc v).1 := by
  unfold State.afterSample
  dsimp only
  split <;> rfl

theorem afterSample_pending_of_final {s : State} (h : s.enc.isFinal = true) (v : Byte) :
    (s.afterSample v).enc.pending = [] := by
  rw [State.afterSample, if_pos h]
  rfl

theorem afterSample_pending_of_not_final {s : State} (h : s.enc.isFinal = false) (v : Byte) :
    (s.afterSample v).enc.pending = (encArm s.enc v).2.pending := by
  rw [State.afterSample, if_neg (by simp [h])]
  rfl

/-- The tokens that a sample closes and the samples that it leaves pending are those that were pending and the new one. -/
theorem afterSample_samples {s : State} (hr : s.enc.RunInv) (v : Byte) :
    tokensSamples (encArm s.enc v).1 ++ (s.afterSample v).enc.pending = s.enc.pending ++ [v] := by
  obtain ⟨-, open_frame, last_sample⟩ := encArm_spec hr v
  cases hf : s.enc.isFinal with
  | false => rw [afterSample_pending_of_not_final hf]; exact (open_frame hf).1
  | true => rw [afterSample_pending_of_final hf, List.append_nil]; exact last_sample hf

/-- R174 of the tokens that one sample closes, in samples. -/
theorem TokensShaped.samples {final : Bool} {v : Byte} {ts : List Token} (h : TokensShaped final v ts) {k : Token}
    (hk : k ∈ ts) :
    k.Legal ∧ (2 ≤ k.samples.length ∨ (k = .lit 1 [v] ∧ ts.getLast? = some k ∧ final = true)) := by
  obtain ⟨legal, shape⟩ := h k hk
  refine ⟨legal, ?_⟩
  cases k with
  | rpt n w => exact .inl (by simpa [Token.samples] using shape)
  | lit n b =>
    obtain ⟨-, -, hlen⟩ := legal
    rcases shape with long | ⟨hfinal, lone, last⟩
    · exact .inl (hlen ▸ long)
    · exact .inr ⟨lone, last, hfinal⟩

/-- Settles O21: a willing sink takes all the tokens (`encSample_ok`), and `encArm_spec` accounts for the samples. -/
theorem encSampleAccountsForEverySample : Obligations.EncSampleAccountsForEverySample := by
  intro v s hp hr hsink
  have shaped := (encArm_spec hr v).1
  rw [← s.enc.isFinal_iff]
  refine ⟨(s.afterSample v).setResult .noValue, (encArm s.enc v).1, ?_, afterSample_out s v, afterSample_samples hr v,
    fun hf => afterSample_pending_of_final hf v, fun k hk => shaped.samples hk⟩
  exact finishComposite_of_ok (encode_not_faulted (by simp [hp])) (encSample_ok hp (hsink.takes _))

end Sys2Proof.Machine

/-! PROOFS. The statements of 20_memory.md: a field written big-endian and loaded reads back (R71 to R73, D-B15), and
operations of the two paths can be exchanged (R86). -/

namespace Sys2Proof.Machine

/-! ## Writing, loading and reading a field (R73, D-B15) -/

/-- A willing sink takes both bytes of the field (R135). -/
theorem exec_bswWriteU16_written {s : State} (hp : s.enc.phase ≠ .fault) (hs : s.sinkTakes 2) (v : Half) :
    exec (.bswWriteU16 v) s = .next ((s.written (halfBytes v)).setResult .noValue) := by
  have wrote : bswWriteU16 v s = .ok () (s.written (halfBytes v)) := by rw [bswWriteU16_eq, writeBytes_ok hs]
  exact finishComposite_of_ok (encode_not_faulted hp) wrote

theorem exec_bsrLoad_next {s : State} (hp : s.dec.phase ≠ .fault) (bytes : List Byte) :
    exec (.bsrLoad bytes) s =
      .next ((s.setBsr ⟨Memory.ofBytes bytes, bytes.length, 0, true⟩).setResult .noValue) :=
  finishPrimitive_of_ok (decode_not_faulted hp) rfl

/-- The field at the cursor is what a read returns, whatever follows it (R131). -/
theorem exec_bsrReadU16_halfBytes {s : State} {v : Half} {rest : List Byte} (hp : s.dec.phase ≠ .fault)
    (hb : s.bytesAtCursor = halfBytes v ++ rest) :
    exec .bsrReadU16 s = .next ((s.setCur (s.bsr.cur + 2)).setResult (.u16 v)) := by
  have read := (bsrReadU16_cons hb).1
  rw [bigEndian_hi_lo] at read
  exact finishPrimitive_of_ok (decode_not_faulted hp) read

/-- A buffer that holds one field and nothing else: loaded and read, it gives the field and is used up. -/
theorem exec_bsrLoad_bsrReadU16_halfBytes {s : State} (hp : s.dec.phase ≠ .fault) (v : Half) :
    ∃ t u, exec (.bsrLoad (halfBytes v)) s = .next t ∧ exec .bsrReadU16 t = .next u ∧
      u.result = .u16 v ∧ u.bsr.atEnd = true := by
  have loaded := exec_bsrLoad_next hp (halfBytes v)
  have at_cursor := bytesAtCursor_load (halfBytes v) s
  exact ⟨_, _, loaded, exec_bsrReadU16_halfBytes (rest := []) (by exact hp) at_cursor, rfl, rfl⟩

/-- Settles O11: the sink, empty before, then holds `halfBytes v` alone, and a buffer of these two bytes reads as `v`. -/
theorem writtenFieldReadsBack : Obligations.WrittenFieldReadsBack := by
  intro v s henc hdec hsink hempty
  have wrote := exec_bswWriteU16_written henc hsink v
  have out_eq : ((s.written (halfBytes v)).setResult .noValue).bsw.out = halfBytes v :=
    congrArg (· ++ halfBytes v) hempty
  obtain ⟨t2, t3, loaded, read⟩ :=
    exec_bsrLoad_bsrReadU16_halfBytes (s := (s.written (halfBytes v)).setResult .noValue) hdec v
  exact ⟨_, t2, t3, wrote, out_eq.symm ▸ loaded, read⟩

/-! ## Exchanging operations of the two paths (R86) -/

theorem overDecode_of_decodeSide {s e : State} (h : e.decodeSide = s.decodeSide) : overDecode s e = e := by
  simp only [State.decodeSide, Prod.mk.injEq] at h
  obtain ⟨hbsr, hfb, hdec, hframes, hfree⟩ := h
  simp only [overDecode, ← hbsr, ← hfb, ← hdec, ← hframes, ← hfree]

theorem overEncode_of_encodeSide {s e : State} (h : e.encodeSide = s.encodeSide) : overEncode s e = e := by
  simp only [State.encodeSide, Prod.mk.injEq] at h
  obtain ⟨henc, hbsw, hanswers, hfree⟩ := h
  simp only [overEncode, ← henc, ← hbsw, ← hanswers, ← hfree]

theorem overDecodeOutcome_eq_next {e u : State} {o : Host.Outcome State Fault Refusal}
    (h : overDecodeOutcome e o = .next u) : ∃ t, o = .next t ∧ u = (overDecode t e).setResult t.result := by
  cases o with
  | next t => exact ⟨t, rfl, (Host.Outcome.next.inj h).symm⟩
  | fault _ => cases h
  | refused _ => cases h

/-- A decode operation that completes in `e` completes in every state with the same decode side, and in `e` it leaves the
decode side and the result that it leaves there. -/
theorem exec_decode_of_decodeSide {j : Instr} {s e u : State} (hj : j.path = .decode) (side : e.decodeSide = s.decodeSide)
    (h : exec j e = .next u) : ∃ t, exec j s = .next t ∧ u = (overDecode t e).setResult t.result := by
  have local_eq := exec_decodeLocal j hj s e
  rw [overDecode_of_decodeSide side, h] at local_eq
  exact overDecodeOutcome_eq_next local_eq.symm

/-- An encode operation that completes in `s` completes in every state with the same encode side, with the encode side and
the result that it leaves in `s`. -/
theorem exec_encode_of_encodeSide {i : Instr} {s e t : State} (hi : i.path = .encode) (side : e.encodeSide = s.encodeSide)
    (h : exec i s = .next t) : exec i e = .next ((overEncode t e).setResult t.result) := by
  have local_eq := exec_encodeLocal i hi s e
  rwa [overEncode_of_encodeSide side, h] at local_eq

/-- Settles O50: the encode operation leaves the decode side, on which alone the decode operation depends, and the other way
round; so each does in either order what it does from `s`. -/
theorem pathsCommute : Obligations.PathsCommute := by
  intro i j s t u hi hj encoded decoded
  obtain ⟨decode_side, requests⟩ := exec_encode_frame hi encoded
  obtain ⟨t', decoded_first, rfl⟩ := exec_decode_of_decodeSide hj decode_side decoded
  obtain ⟨encode_side, requests'⟩ := exec_decode_frame hj decoded_first
  exact ⟨t', _, decoded_first, exec_encode_of_encodeSide hi encode_side encoded, rfl, rfl,
    requests'.trans requests.symm, rfl, rfl⟩

end Sys2Proof.Machine

/-! PROOFS. The statements of 30_encoding.md: decoder and encoder are inverse on the stream elements (R101 to R107, R109,
R112), the count field's values (R105), and what a step fetches and performs (R113, R114). -/

namespace Sys2Proof

/-! ## The decoder on bytes written by the encoder (R101, R102) -/

theorem halfBytes_bigEndian (b0 b1 : Byte) : halfBytes (bigEndian b0 b1) = [b0, b1] := by
  simp [halfBytes]

theorem decodeHeader_halfBytes (h w : Half) (rest : List Byte) :
    decodeHeader (halfBytes h ++ halfBytes w ++ rest) = .element (.hdr h w) rest := by
  simp [halfBytes, decodeHeader]

theorem decodeToken_halfBytes (c : Half) (rest : List Byte) : decodeToken (halfBytes c ++ rest) = decodeCount c rest := by
  simp [halfBytes, decodeToken]

/-! ## What follows a count field, by its kind and length (R105, R107, R113) -/

section DecodeCount
variable {c : Half}

theorem decodeCount_rsv (hn : countLen c = 0) (rest : List Byte) :
    decodeCount c rest = .element (.rsv (countKind c)) rest :=
  if_pos hn

theorem decodeCount_rpt (hn : countLen c ≠ 0) (hk : countKind c = true) (v : Byte) (rest : List Byte) :
    decodeCount c (v :: rest) = .element (.rpt (countLen c) v) rest :=
  (if_neg hn).trans (if_pos hk)

theorem decodeCount_rpt_nil (hn : countLen c ≠ 0) (hk : countKind c = true) :
    decodeCount c [] = .rejected .truncatedValue :=
  (if_neg hn).trans (if_pos hk)

theorem decodeCount_lit (hn : countLen c ≠ 0) (hk : countKind c = false) (rest : List Byte) :
    decodeCount c rest =
      .element (.lit (countLen c) (rest.take (countLen c).toNat)) (rest.drop (countLen c).toNat) :=
  (if_neg hn).trans (if_neg (Bool.eq_false_iff.1 hk))

end DecodeCount

/-- A well-formed literal takes the whole of its payload and nothing after it (R103). -/
theorem decodeCount_countField_lit {n : Len} {p : List Byte} (hn : n ≠ 0) (hp : p.length = n.toNat) (rest : List Byte) :
    decodeCount (countField false n) (p ++ rest) = .element (.lit n p) rest := by
  rw [decodeCount_lit (by simpa using hn) (countKind_countField _ _), countLen_countField, ← hp, List.take_left,
    List.drop_left]

theorem decodeCount_countField_rpt {n : Len} (hn : n ≠ 0) (v : Byte) (rest : List Byte) :
    decodeCount (countField true n) (v :: rest) = .element (.rpt n v) rest := by
  rw [decodeCount_rpt (by simpa using hn) (countKind_countField _ _), countLen_countField]

theorem decodeCount_countField_rsv (k : Bool) (rest : List Byte) :
    decodeCount (countField k 0) rest = .element (.rsv k) rest := by
  rw [decodeCount_rsv (countLen_countField _ _), countKind_countField]

/-- Settles O2: the two bytes of each field join to the field again, and a count field has the kind and the length that it
was put together from. -/
theorem decodeEncodeElement : Obligations.DecodeEncodeElement := by
  intro i bs rest hwf henc
  cases i with
  | hdr h w =>
    cases henc
    exact decodeHeader_halfBytes h w rest
  | lit n p =>
    cases henc
    simp only [Instr.wellFormed, legalLen, Bool.and_eq_true, bne_iff_ne, beq_iff_eq] at hwf
    obtain ⟨hn, hp⟩ := hwf
    simp only [Instr.position, decode, List.append_assoc, decodeToken_halfBytes, decodeCount_countField_lit hn hp]
  | rpt n v =>
    cases henc
    have hn : n ≠ 0 := bne_iff_ne.1 hwf
    exact (decodeToken_halfBytes _ _).trans (decodeCount_countField_rpt hn v rest)
  | rsv k =>
    cases henc
    exact (decodeToken_halfBytes _ _).trans (decodeCount_countField_rsv k rest)
  | _ => cases henc

/-! ## The bytes of a decoded element (R106, R109) -/

/-- `i` stands at `pos`, and its encoding followed by `rest` is `bytes`. -/
def ReadFrom (pos : ElementPos) (bytes : List Byte) (i : Instr) (rest : List Byte) : Prop :=
  i.position = pos ∧ ∃ bs, encode i = some bs ∧ bs ++ rest = bytes

theorem readFrom_of_decodeHeader {bytes rest : List Byte} {i : Instr} (h : decodeHeader bytes = .element i rest) :
    ReadFrom .header bytes i rest := by
  unfold decodeHeader at h
  split at h
  case h_1 b0 b1 b2 b3 rest' =>
    cases h
    exact ⟨rfl, _, rfl, by simp [halfBytes_bigEndian]⟩
  case h_2 => cases h
  case h_3 => cases h

/-- The count field is put together again from the kind and the length that were read from it. -/
theorem readFrom_of_decodeCount {c : Half} {bytes rest : List Byte} {i : Instr}
    (h : decodeCount c bytes = .element i rest) : ReadFrom .token (halfBytes c ++ bytes) i rest := by
  have field_eq := countField_kind_len c
  by_cases hn : countLen c = 0
  · rw [decodeCount_rsv hn] at h
    cases h
    rw [hn] at field_eq
    exact ⟨rfl, _, rfl, by rw [field_eq]⟩
  · cases hk : countKind c with
    | false =>
      rw [decodeCount_lit hn hk] at h
      cases h
      rw [hk] at field_eq
      exact ⟨rfl, _, rfl, by rw [field_eq, List.append_assoc, List.take_append_drop]⟩
    | true =>
      rw [hk] at field_eq
      cases bytes with
      | nil =>
        rw [decodeCount_rpt_nil hn hk] at h
        cases h
      | cons v bytes =>
        rw [decodeCount_rpt hn hk] at h
        cases h
        exact ⟨rfl, _, rfl, by rw [field_eq, List.append_assoc, List.singleton_append]⟩

theorem readFrom_of_decodeToken {bytes rest : List Byte} {i : Instr} (h : decodeToken bytes = .element i rest) :
    ReadFrom .token bytes i rest := by
  unfold decodeToken at h
  split at h
  case h_1 b0 b1 bytes' =>
    have read := readFrom_of_decodeCount h
    rwa [halfBytes_bigEndian] at read
  case h_2 => cases h

/-- Settles O3: for a header field by field, for a token by what its count field says. -/
theorem encodeDecodedElement : Obligations.EncodeDecodedElement := by
  intro pos bytes i rest h
  cases pos with
  | header => exact readFrom_of_decodeHeader h
  | token => exact readFrom_of_decodeToken h

/-! ## The count field by its value (R105) -/

theorem ofNat_toNat_eq_countLen (c : Half) : BitVec.ofNat 15 c.toNat = countLen c := by
  apply BitVec.eq_of_toNat_eq
  rw [countLen_toNat, BitVec.toNat_ofNat]

theorem countKind_eq_false_iff (c : Half) : countKind c = false ↔ c.toNat < 0x8000 := by
  rw [← Bool.not_eq_true, countKind_iff, Nat.not_le]

theorem countLen_ne_zero_iff (c : Half) : countLen c ≠ 0 ↔ c.toNat ≠ 0 ∧ c.toNat ≠ 0x8000 := by
  rw [Ne, countLen_eq_zero_iff, not_or, ← BitVec.toNat_inj, ← BitVec.toNat_inj]
  rfl

theorem decodeToken_lit_of_value {c : Half} (hlo : 0x0001 ≤ c.toNat) (hhi : c.toNat ≤ 0x7FFF) (rest : List Byte) :
    decodeToken (halfBytes c ++ rest) =
      .element (.lit (BitVec.ofNat 15 c.toNat) (rest.take c.toNat)) (rest.drop c.toNat) := by
  have hn : countLen c ≠ 0 := (countLen_ne_zero_iff c).2 (by omega)
  have hk : countKind c = false := (countKind_eq_false_iff c).2 (by omega)
  have len_eq : (countLen c).toNat = c.toNat := (Machine.raw_toNat_of_lit hk).symm
  rw [decodeToken_halfBytes, decodeCount_lit hn hk, len_eq, ofNat_toNat_eq_countLen]

theorem decodeToken_rpt_of_value {c : Half} (hlo : 0x8001 ≤ c.toNat) (v : Byte) (rest : List Byte) :
    decodeToken (halfBytes c ++ v :: rest) = .element (.rpt (BitVec.ofNat 15 (c.toNat - 0x8000)) v) rest := by
  have hn : countLen c ≠ 0 := (countLen_ne_zero_iff c).2 (by omega)
  have hk : countKind c = true := (countKind_iff c).2 (by omega)
  have len_eq : BitVec.ofNat 15 (c.toNat - 0x8000) = countLen c := by
    apply BitVec.eq_of_toNat_eq
    have := c.isLt
    rw [countLen_toNat, BitVec.toNat_ofNat]
    omega
  rw [decodeToken_halfBytes, decodeCount_rpt hn hk, len_eq]

/-- Settles O4: the two reserved values are those with length 0 (`countLen_eq_zero_iff`); of the others, bit 15 tells the
kind. -/
theorem countFieldPartition : Obligations.CountFieldPartition := by
  intro c v rest
  refine ⟨?zero, ?kindBit, fun hlo hhi => decodeToken_lit_of_value hlo hhi rest,
    fun hlo => decodeToken_rpt_of_value hlo v rest, Machine.raw_lt_kindBit_iff c⟩
  case zero =>
    rintro rfl
    exact (decodeToken_halfBytes _ _).trans (decodeCount_countField_rsv false rest)
  case kindBit =>
    rintro rfl
    exact (decodeToken_halfBytes _ _).trans (decodeCount_countField_rsv true rest)

end Sys2Proof

namespace Sys2Proof.Machine

/-! ## The oldest request (R114, R260, log 1) -/

section Step
variable {s : State} {queue : List Request}

theorem step_of_no_request (h : s.requests = []) : step s = .next s := by
  simp [step, h]

theorem step_of_op {i : Instr} (h : s.requests = .op i :: queue) : step s = stepOp i (s.setRequests queue) := by
  simp [step, h]

theorem step_of_element (h : s.requests = .element :: queue) : step s = stepElement (s.setRequests queue) := by
  simp [step, h]

theorem step_of_reset {scope : ResetScope} (h : s.requests = .reset scope :: queue) :
    step s = .next (resetScope scope (s.setRequests queue)) := by
  simp [step, h]

end Step

theorem stepOp_of_port {i : Instr} (h : i.isElement = false) (s : State) : stepOp i s = exec i s := by
  simp [stepOp, h]

theorem stepOp_of_element {i : Instr} (h : i.isElement = true) (s : State) :
    stepOp i s = .refused .notAPortOperation :=
  if_pos h

/-- Settles O44: one equation of `step` for each kind of request. -/
theorem stepPerformsOldestRequest : Obligations.StepPerformsOldestRequest := fun _ =>
  ⟨step_of_no_request,
    fun _ _ requested =>
      ⟨fun port => (step_of_op requested).trans (stepOp_of_port port _),
        fun element => (step_of_op requested).trans (stepOp_of_element element _)⟩,
    fun _ _ => step_of_reset⟩

/-! ## The element at the cursor (R113, R190, log 2) -/

section Fetch
variable {s : State}

theorem elementPos_header (hp : s.dec.phase = .idle) (ha : s.bsr.attached = true) (h0 : s.bsr.cur = 0) :
    elementPos s = .inl .header := by
  simp [elementPos, hp, ha, h0]

theorem elementPos_noBuffer (hp : s.dec.phase = .idle) (ha : s.bsr.attached = false) : elementPos s = .inr .noBuffer := by
  simp [elementPos, hp, ha]

theorem elementPos_cursorNotAtStart (hp : s.dec.phase = .idle) (ha : s.bsr.attached = true) (h0 : s.bsr.cur ≠ 0) :
    elementPos s = .inr .cursorNotAtStart := by
  simp [elementPos, hp, ha, h0]

theorem elementPos_token (hp : s.dec.phase = .run) (hc : s.fb.constructed = true) (hf : s.fb.isFull = false)
    (hm : s.dec.dmode = .readCount) : elementPos s = .inl .token := by
  simp [elementPos, hp, hc, hf, hm]

theorem requireStart_noBuffer {α : Type} (hp : s.dec.phase = .idle) (ha : s.bsr.attached = false) (r : Res α) :
    requireStart s r = .refused .noBuffer := by
  simp [requireStart, hp, ha]

theorem requireStart_cursorNotAtStart {α : Type} (hp : s.dec.phase = .idle) (ha : s.bsr.attached = true)
    (h0 : s.bsr.cur ≠ 0) (r : Res α) : requireStart s r = .refused .cursorNotAtStart := by
  simp [requireStart, hp, ha, h0]

theorem exec_hdr_refused {why : Refusal} (hp : s.dec.phase ≠ .fault)
    (h : ∀ r : Res Unit, requireStart s r = .refused why) (height width : Half) :
    exec (.hdr height width) s = .refused why :=
  finishComposite_of_refused (decode_not_faulted hp) (h _)

theorem stepElement_of_decode {pos : ElementPos} {i : Instr} {rest : List Byte} (hpos : elementPos s = .inl pos)
    (hdec : decode pos s.bytesAtCursor = .element i rest) : stepElement s = exec i s := by
  simp [stepElement, fetch, hpos, hdec]

theorem exists_hdr_of_position {i : Instr} (h : i.position = .header) : ∃ height width, i = .hdr height width := by
  cases i with
  | hdr height width => exact ⟨height, width, rfl⟩
  | _ => cases h

/-- The fetch and the header element ask the same `require` (R190, R197): where the one refuses, so does the other. -/
theorem stepElement_of_idle {i : Instr} {rest : List Byte} (hp : s.dec.phase = .idle)
    (hdec : decode .header s.bytesAtCursor = .element i rest) : stepElement s = exec i s := by
  obtain ⟨height, width, rfl⟩ := exists_hdr_of_position (encodeDecodedElement _ _ _ _ hdec).1
  have not_fault : s.dec.phase ≠ .fault := by simp [hp]
  cases ha : s.bsr.attached with
  | false =>
    rw [stepElement_refused (elementPos_noBuffer hp ha), exec_hdr_refused not_fault (requireStart_noBuffer hp ha)]
  | true =>
    by_cases h0 : s.bsr.cur = 0
    · exact stepElement_of_decode (elementPos_header hp ha h0) hdec
    · rw [stepElement_refused (elementPos_cursorNotAtStart hp ha h0),
        exec_hdr_refused not_fault (requireStart_cursorNotAtStart hp ha h0)]

end Fetch

/-- Settles O42: taking the request from the queue changes nothing of what is fetched. -/
theorem stepRunsFetchedElement : Obligations.StepRunsFetchedElement := by
  intro s queue i rest requested
  refine ⟨fun hp hdec => ?header, fun hp hc hroom hm hdec => ?token⟩
  case header => exact (step_of_element requested).trans (stepElement_of_idle hp hdec)
  case token =>
    have hf : s.fb.isFull = false := Bool.eq_false_iff.2 (mt s.fb.isFull_iff.1 hroom)
    exact (step_of_element requested).trans (stepElement_of_decode (elementPos_token hp hc hf hm) hdec)

end Sys2Proof.Machine

/-! PROOFS. The statements of 40_bitstream.md: the Bitstream Reader (R130 to R133) and the Bitstream Writer (R134, R135). -/

namespace Sys2Proof.Machine

/-! ## Bitstream Reader (R130 to R133) -/

/-- Settles O5: a byte is left before `LEN` or none is. -/
theorem readU8Result : Obligations.ReadU8Result := fun _ hp =>
  ⟨fun whole => finishPrimitive_of_ok (decode_not_faulted hp) (bsrReadU8_ok whole),
   fun cut => finishPrimitive_of_fault (decode_not_faulted hp) (bsrReadU8_cut cut)⟩

/-- Settles O6: the value is the big-endian field at the cursor. -/
theorem readU16Result : Obligations.ReadU16Result := fun s hp =>
  ⟨fun whole => ⟨memRead16 s s.bsr.cur, bigEndian_toNat _ _,
      finishPrimitive_of_ok (decode_not_faulted hp) (bsrReadU16_ok whole)⟩,
   fun cut => finishPrimitive_of_fault (decode_not_faulted hp) (bsrReadU16_cut cut)⟩

/-- Every loaded byte, and not only every listed one, is read back at its own address (R133, log 9). -/
theorem read_ofBytes_of_lt {bytes : List Byte} {i : Nat} (h : i < bytes.length) :
    Memory.read (Memory.ofBytes bytes) i = bytes[i] := by
  rw [Memory.read_ofBytes, List.getD_eq_getElem _ _ h]

theorem Bsr.atEnd_eq_decide (b : Bsr) : b.atEnd = decide (b.cur = b.len) := beq_eq_decide _ _

/-- With the cursor at 0 only an empty buffer is used up (R24, R132). -/
theorem atEnd_load_iff (bytes : List Byte) :
    Bsr.atEnd ⟨Memory.ofBytes bytes, bytes.length, 0, true⟩ = true ↔ bytes = [] := by
  rw [Bsr.atEnd_eq_decide, decide_eq_true_iff, eq_comm, List.length_eq_zero_iff]

/-- Settles O7: the memory is `Memory.ofBytes bytes`. -/
theorem loadAttachesBuffer : Obligations.LoadAttachesBuffer := fun bytes _ hp =>
  ⟨Memory.ofBytes bytes, exec_bsrLoad_next hp bytes, Memory.ofBytes_wf bytes, fun _ => read_ofBytes_of_lt,
    atEnd_load_iff bytes⟩

/-- Settles O8: the flag `at_end` compares the cursor with `LEN`, and the state goes through untouched. -/
theorem atEndResult : Obligations.AtEndResult := by
  intro s hp
  have at_end : bsrAtEnd s = .ok (decide (s.bsr.cur = s.bsr.len)) s :=
    congrArg (Res.ok · s) s.bsr.atEnd_eq_decide
  exact finishPrimitive_of_ok (decode_not_faulted hp) at_end

/-! ## Bitstream Writer (R134, R135) -/

/-- A byte that the sink refuses ends an emission there: the bytes before it stay appended, none after it is offered. -/
theorem writeBytes_refused {s : State} {pre post : List Byte} {b : Byte} (takes : s.sinkTakes pre.length)
    (refused : (s.written pre).sinkAccepts = false) :
    writeBytes (pre ++ b :: post) s =
      .fault (.sinkFailure (s.bsw.out ++ pre).length) (s.written pre).drawSink := by
  rw [writeBytes_append, writeBytes_ok takes, Res.bind_ok, writeBytes, bswWriteU8, sinkWrite_refused refused,
    Res.bind_fault]
  rfl

/-- Settles O9: the sink's next answer decides between the two outcomes of `SinkWrite`. -/
theorem writeU8Result : Obligations.WriteU8Result := by
  intro v s hp
  refine ⟨fun accepts => ?_, fun refused => ?_⟩
  · have wrote : bswWriteU8 v s = .ok () (s.drawSink.setOut (s.bsw.out ++ [v])) := if_pos accepts
    exact finishPrimitive_of_ok (encode_not_faulted hp) wrote
  · exact finishPrimitive_of_fault (encode_not_faulted hp) (sinkWrite_refused refused)

/-- The two bytes of a field by their values: the high byte, then the low byte (R73). -/
theorem halfBytes_eq_ofNat (v : Half) :
    halfBytes v = [BitVec.ofNat 8 (v.toNat / 256), BitVec.ofNat 8 (v.toNat % 256)] := by
  rw [← hiByte_toNat, ← loByte_toNat, BitVec.ofNat_toNat, BitVec.ofNat_toNat, BitVec.setWidth_eq, BitVec.setWidth_eq]
  rfl

/-- A field of which the sink refuses the byte after `pre`: `pre` stays appended and the path stops with `SinkFailure`. -/
theorem exec_bswWriteU16_refused {s : State} {v : Half} {pre post : List Byte} {b : Byte} (hp : s.enc.phase ≠ .fault)
    (bytes : halfBytes v = pre ++ b :: post) (takes : s.sinkTakes pre.length)
    (refused : (s.written pre).sinkAccepts = false) :
    ∃ t, exec (.bswWriteU16 v) s = .next t ∧ t.bsw.out = s.bsw.out ++ pre ∧ t.enc.phase = .fault ∧
      t.enc.fault = .sinkFailure (s.bsw.out ++ pre).length ∧ t.decodeSide = s.decodeSide := by
  have stopped : bswWriteU16 v s = .fault (.sinkFailure (s.bsw.out ++ pre).length) (s.written pre).drawSink := by
    rw [bswWriteU16_eq, bytes, writeBytes_refused takes refused]
  exact ⟨_, finishComposite_of_fault (encode_not_faulted hp) stopped, rfl, rfl, rfl, rfl⟩

/-- Settles O10: the refused byte comes after no byte or after the high byte. -/
theorem writeU16Result : Obligations.WriteU16Result := by
  intro v s hp
  have bytes := halfBytes_eq_ofNat v
  refine ⟨fun takes => ?willing, fun rest answers => ?first, fun rest answers => ?second⟩
  case willing => exact bytes ▸ exec_bswWriteU16_written hp takes v
  case first =>
    have refused : (s.written []).sinkAccepts = false := by simp [State.sinkAccepts, answers]
    simpa using exec_bswWriteU16_refused hp (pre := []) bytes (by simp [State.sinkTakes]) refused
  case second =>
    have takes : s.sinkTakes 1 := by simp [State.sinkTakes, answers]
    have refused : (s.written [BitVec.ofNat 8 (v.toNat / 256)]).sinkAccepts = false := by
      simp [State.sinkAccepts, answers]
    simpa using exec_bswWriteU16_refused hp (pre := [_]) bytes takes refused

end Sys2Proof.Machine

/-! PROOFS. The statements of 41_framebuffer.md: the Frame Buffer raster-fill controller (R150 to R154). -/

namespace Sys2Proof.Machine

/-! ## Whether the buffer is full (R31) -/

theorem Fb.isFull_eq_decide (f : Fb) : f.isFull = decide (f.fcur = f.height.toNat * f.width.toNat) :=
  beq_eq_decide _ _

theorem Fb.isFull_eq_false_iff (f : Fb) : f.isFull = false ↔ f.fcur ≠ f.height.toNat * f.width.toNat := by
  rw [Fb.isFull_eq_decide, decide_eq_false_iff_not]

/-- `N >= 1` (R28, R152): a constructed buffer in which nothing is written is not full. -/
theorem Fb.Inv.isFull_of_empty {f : Fb} (h : f.Inv) (hc : f.constructed = true) (empty : f.fcur = 0) :
    f.isFull = false :=
  beq_false_of_ne (empty ▸ (h.n_pos hc).ne)

/-! ## An operation that cannot fault, answered with a next state -/

theorem finishPrimitive_completed {α : Type} {p : Path} {g : α → OpResult} {s t : State} {r : Res α}
    {P : α → State → Prop} (completes : r.Ensures P fun _ _ => False)
    (h : finishPrimitive p g (guardPath p s r) = .next t) :
    s.faulted p = false ∧ ∃ a u, P a u ∧ t = u.setResult (g a) := by
  have guarded : (guardPath p s r).Ensures (fun a u => s.faulted p = false ∧ P a u) fun _ _ => False :=
    guardPath_ensures fun not_faulted => completes.mono (fun _ _ hP => ⟨not_faulted, hP⟩) fun _ _ => id
  rcases finishPrimitive_next h with ⟨a, u, ended, ht⟩ | ⟨f, u, ended, -⟩
  · rw [ended] at guarded
    exact ⟨guarded.1, a, u, guarded.2, ht⟩
  · rw [ended] at guarded
    exact guarded.elim

/-! ## Construction (R150) -/

theorem fbConstruct_ensures (h w : Half) (s : State) :
    (fbConstruct h w s).Ensures (fun _ t => h ≠ 0 ∧ w ≠ 0 ∧ t = s.setFb ⟨true, h, w, 0, []⟩) fun _ _ => False := by
  unfold fbConstruct
  split_ifs with built zero
  · trivial
  · trivial
  · exact ⟨(not_or.1 zero).1, (not_or.1 zero).2, rfl⟩

theorem fbConstruct_twice {s : State} (hc : s.fb.constructed = true) (h w : Half) :
    fbConstruct h w s = .refused .fbAlreadyConstructed :=
  if_pos hc

theorem fbConstruct_zero {s : State} {h w : Half} (hc : s.fb.constructed = false) (zero : h = 0 ∨ w = 0) :
    fbConstruct h w s = .refused .zeroDimension := by
  rw [fbConstruct, if_neg (by simp [hc]), if_pos zero]

/-- Settles O12: the three clauses are the three branches of the operation. -/
theorem constructResult : Obligations.ConstructResult := by
  intro h w s hp
  have not_faulted : s.faulted .decode = false := decode_not_faulted hp
  exact ⟨fun hc hh hw => finishPrimitive_of_ok not_faulted (fbConstruct_ok hc hh hw),
    fun hc zero => finishPrimitive_of_refused not_faulted (fbConstruct_zero hc zero),
    fun hc => finishPrimitive_of_refused not_faulted (fbConstruct_twice hc h w)⟩

/-! ## Insertion (R151) -/

/-- Settles O13: by the invariant the next raster position is the end of the pixels written, so the write appends. -/
theorem insertPixelResult : Obligations.InsertPixelResult := by
  intro v s hp hc inv
  obtain ⟨-, -, written, -⟩ := inv
  have not_faulted : s.faulted .decode = false := decode_not_faulted hp
  refine ⟨fun room => ?room, fun full => ?full⟩
  case room =>
    have inserted := fbInsertPixel_ok (v := v) hc (s.fb.isFull_eq_false_iff.2 room.ne)
    rw [pixWrite_next written] at inserted
    exact finishPrimitive_of_ok not_faulted inserted
  case full => exact finishPrimitive_of_fault not_faulted (fbInsertPixel_full hc (s.fb.isFull_iff.2 full))

/-! ## Restart (R154) -/

theorem fbRestart_ensures (s : State) :
    (fbRestart s).Ensures (fun _ t => s.fb.constructed = true ∧ t = s.emptyFb) fun _ _ => False :=
  requireFb_ensures fun hc => ⟨hc, rfl⟩

/-- Settles O16: the operation is `State.emptyFb`. -/
theorem restartResult : Obligations.RestartResult := fun _ hp hc =>
  finishPrimitive_of_ok (decode_not_faulted hp) (fbRestart_ok hc)

/-! ## The flag `is_full` (R152) -/

theorem exec_fbIsFull_next {s : State} (hp : s.dec.phase ≠ .fault) (hc : s.fb.constructed = true) :
    exec .fbIsFull s = .next (s.setResult (.bit s.fb.isFull)) :=
  finishPrimitive_of_ok (decode_not_faulted hp) (if_pos hc)

theorem exec_fbIsFull_of_empty {s : State} (hp : s.faulted .decode = false) (hc : s.fb.constructed = true)
    (inv : s.fb.Inv) (empty : s.fb.fcur = 0) : exec .fbIsFull s = .next { s with result := .bit false } := by
  rw [exec_fbIsFull_next (by simpa [State.faulted] using hp) hc, inv.isFull_of_empty hc empty]
  rfl

/-- Settles O14: construction and restart both leave a constructed buffer that meets the invariant and holds no pixel. -/
theorem isFullResult : Obligations.IsFullResult := by
  refine ⟨fun s hp hc => ?flag, fun h w s t constructed => ?construct, fun s t inv restarted => ?restart⟩
  case flag => exact s.fb.isFull_eq_decide ▸ exec_fbIsFull_next hp hc
  case construct =>
    obtain ⟨not_faulted, _, _, ⟨hh, hw, rfl⟩, rfl⟩ := finishPrimitive_completed (fbConstruct_ensures h w s) constructed
    exact exec_fbIsFull_of_empty not_faulted rfl (Fb.Inv.construct hh hw) rfl
  case restart =>
    obtain ⟨not_faulted, _, _, ⟨hc, rfl⟩, rfl⟩ := finishPrimitive_completed (fbRestart_ensures s) restarted
    exact exec_fbIsFull_of_empty not_faulted hc inv.restart rfl

/-! ## Emission (R153) -/

theorem fbEmit_notFull {s : State} (hc : s.fb.constructed = true) (hf : s.fb.isFull = false) :
    fbEmit s = .refused .fbNotFull := by
  simp [fbEmit, requireFb, hc, hf]

/-- A buffer never holds more than `N` pixels (R29, R30), so the frame handed over holds every pixel written. -/
theorem Fb.Inv.frame_eq {f : Fb} (h : f.Inv) : f.frame = ⟨f.height, f.width, f.pix⟩ := by
  obtain ⟨-, bound, written, -⟩ := h
  rw [Fb.frame, List.take_of_length_le (written.trans_le bound)]

/-- Settles O15: a full buffer is handed over as it stands. -/
theorem emitResult : Obligations.EmitResult := by
  intro s hp hc inv
  have not_faulted : s.faulted .decode = false := decode_not_faulted hp
  refine ⟨fun full => ?full, fun partly => ?partly⟩
  case full =>
    have emitted := fbEmit_ok hc (s.fb.isFull_iff.2 full)
    rw [inv.frame_eq] at emitted
    exact finishPrimitive_of_ok not_faulted emitted
  case partly => exact finishPrimitive_of_refused not_faulted (fbEmit_notFull hc (s.fb.isFull_eq_false_iff.2 partly))

end Sys2Proof.Machine

/-! PROOFS. The statements of 42_encoder.md: the header (R160), the transition table and the final sample (R161 to R170), a
refused byte (R171), the stream of an encoding (R173), and its round trip through the decoder (R176). -/

namespace Sys2Proof.Machine

/-! ## The two operations on a willing sink (R160, R161, R169) -/

theorem exec_encSample_next {s : State} (hp : s.enc.phase = .run) (willing : s.sinkTakesAll) (v : Byte) :
    exec (.encSample v) s = .next ((s.afterSample v).setResult .noValue) :=
  finishComposite_of_ok (encode_not_faulted (by simp [hp])) (encSample_ok hp (willing.takes _))

theorem exec_encStart_next {s : State} {h w : Half} (hp : s.enc.phase = .idle) (hh : h ≠ 0) (hw : w ≠ 0)
    (takes : s.sinkTakes 4) : exec (.encStart h w) s = .next ((s.afterStart h w).setResult .noValue) :=
  finishComposite_of_ok (encode_not_faulted (by simp [hp])) (encStart_ok hp hh hw takes)

theorem afterSample_of_final {s : State} (hf : s.enc.isFinal = true) (v : Byte) :
    s.afterSample v = encFrameStart ((s.written (tokensBytes (encArm s.enc v).1)).setEnc (encArm s.enc v).2) :=
  if_pos hf

theorem afterSample_of_not_final {s : State} (hf : s.enc.isFinal = false) (v : Byte) :
    s.afterSample v =
      (s.written (tokensBytes (encArm s.enc v).1)).setEnc { (encArm s.enc v).2 with pos := (encArm s.enc v).2.pos + 1 } :=
  if_neg (by simp [hf])

/-! ## A refused byte (R134, R160, R171) -/

/-- A sink that takes `k` bytes of an emission and refuses the next: these `k` stay appended. -/
theorem writeBytes_cut {s : State} {bytes : List Byte} {k : Nat} {rest : List Bool} (hk : k < bytes.length)
    (answers : s.sinkAnswers = List.replicate k true ++ false :: rest) :
    writeBytes bytes s =
      .fault (.sinkFailure (s.bsw.out.length + k)) (s.written (bytes.take k)).drawSink := by
  have length_eq : (bytes.take k).length = k := List.length_take_of_le hk.le
  have takes : s.sinkTakes (bytes.take k).length := by
    rw [State.sinkTakes, length_eq, answers, List.take_left' List.length_replicate]
    exact fun _ => List.eq_of_mem_replicate
  have refused : (s.written (bytes.take k)).sinkAccepts = false := by
    simp [State.sinkAccepts, answers, length_eq]
  have stopped := writeBytes_refused (post := bytes.drop (k + 1)) (b := bytes[k]) takes refused
  rwa [← List.drop_eq_getElem_cons hk, List.take_append_drop, List.length_append, length_eq] at stopped

theorem writeHeader_eq (h w : Half) (s : State) :
    ((bswWriteU16 h s).bind fun _ s1 => bswWriteU16 w s1) = writeBytes (headerBytes h w) s := by
  simp only [bswWriteU16_eq, headerBytes, writeBytes_append]

theorem encStart_cut {s : State} {h w : Half} {k : Nat} {rest : List Bool} (hp : s.enc.phase = .idle) (hh : h ≠ 0)
    (hw : w ≠ 0) (hk : k < 4) (answers : s.sinkAnswers = List.replicate k true ++ false :: rest) :
    encStart h w s = .fault (.sinkFailure (s.bsw.out.length + k))
      ((s.setEnc { s.enc with height := h, width := w }).written ((headerBytes h w).take k)).drawSink := by
  have stopped :=
    writeBytes_cut (s := s.setEnc { s.enc with height := h, width := w }) (bytes := headerBytes h w) hk answers
  rw [encStart, if_neg (by simp [hp]), if_neg (not_or.2 ⟨hh, hw⟩), ← Res.bind_assoc, writeHeader_eq, stopped,
    Res.bind_fault]
  rfl

theorem encStart_zero {s : State} {h w : Half} (hp : s.enc.phase = .idle) (zero : h = 0 ∨ w = 0) :
    encStart h w s = .fault (.invalidHeader h w) s := by
  rw [encStart, if_neg (by simp [hp]), if_pos zero]

/-- Settles O18: the sink takes the four bytes of the header (`encStart_ok`) or refuses one of them (`encStart_cut`). -/
theorem encStartResult : Obligations.EncStartResult := by
  intro h w s
  have not_faulted (hp : s.enc.phase = .idle) : s.faulted .encode = false := encode_not_faulted (by simp [hp])
  refine ⟨fun hp hh hw takes => ?willing, fun hp zero => ?zero, fun k rest hp hh hw hk answers => ?refused,
    fun hp => exec_encStart_wrongPhase hp h w⟩
  case willing => exact ⟨_, exec_encStart_next hp hh hw takes, rfl, rfl, rfl, rfl, rfl, rfl⟩
  case zero =>
    exact ⟨_, finishComposite_of_fault (not_faulted hp) (encStart_zero hp zero), rfl, rfl, rfl, rfl, rfl⟩
  case refused =>
    exact ⟨_, finishComposite_of_fault (not_faulted hp) (encStart_cut hp hh hw hk answers), rfl, rfl, rfl, rfl⟩

theorem encSample_cut {s : State} {v : Byte} {k : Nat} {rest : List Bool} (hp : s.enc.phase = .run)
    (hk : k < (tokensBytes (encArm s.enc v).1).length)
    (answers : s.sinkAnswers = List.replicate k true ++ false :: rest) :
    encSample v s = .fault (.sinkFailure (s.bsw.out.length + k))
      (s.written ((tokensBytes (encArm s.enc v).1).take k)).drawSink := by
  rw [encSample, if_neg (by simp [hp]), emitTokens_eq, writeBytes_cut hk answers, Res.bind_fault]

/-- R226 of the two operations of the encoder. -/
theorem exec_enc_faulted {s : State} (hp : s.enc.phase = .fault) :
    (∀ x, exec (.encSample x) s = .refused (.pathFaulted .encode)) ∧
    ∀ h w, exec (.encStart h w) s = .refused (.pathFaulted .encode) := by
  have faulted : s.faulted .encode = true := (faulted_encode_iff s).2 hp
  exact ⟨fun x => congrArg (finishComposite .encode noResult) (guardPath_of_faulted faulted (encSample x s)),
    fun h w => congrArg (finishComposite .encode noResult) (guardPath_of_faulted faulted (encStart h w s))⟩

/-- Settles O22: a willing sink would take the bytes of the tokens that the sample closes, and an emission that is cut leaves
the bytes before the refused one (`encSample_cut`). -/
theorem sinkFailureEndsEncoding : Obligations.SinkFailureEndsEncoding := by
  intro v s t0 k rest hp willing answers hk
  have out_eq : t0.bsw.out = s.bsw.out ++ tokensBytes (encArm s.enc v).1 := by
    have next := exec_encSample_next (s := { s with sinkAnswers := [] }) hp nofun v
    rw [← Host.Outcome.next.inj (next.symm.trans willing)]
    exact afterSample_out _ v
  rw [out_eq, List.length_append] at hk
  have stopped := encSample_cut hp (Nat.lt_of_add_lt_add_left hk) answers
  refine ⟨_, finishComposite_of_fault (encode_not_faulted (by simp [hp])) stopped, ?_, rfl, rfl, rfl,
    exec_enc_faulted rfl⟩
  rw [out_eq, List.take_length_add_append]
  rfl

/-! ## One sample, arm by arm (R162 to R166) -/

theorem tokensBytes_singleton (k : Token) : tokensBytes [k] = k.bytes := List.append_nil _

/-- The one-sample token of a final sample (R166). -/
theorem tokensBytes_loneToken (v : Byte) : tokensBytes (loneToken true v) = [0x00, 0x01, v] := rfl

section Arms
variable {e : Enc} {c : Int} {final : Bool} {v : Byte}

theorem encArm_first (hl : e.lastValid = false) :
    encArm e v = (loneToken e.isFinal v, { e with count := e.count + 1, last := v, lastValid := true }) :=
  if_pos (by simp [hl])

/-- A pending single sample counts as `RepeatMode` if the sample equals it (R163). -/
theorem encArm_repeat (hl : e.lastValid = true) (hm : e.mode = .repeatMode ∨ e.mode = .chooseMode ∧ v = e.last) :
    encArm e v = repeatArm e (e.count + 1) e.isFinal v := by
  have taken : takenByRepeat e.mode (v == e.last) = true := by
    rcases hm with hm | ⟨hm, hv⟩
    · rw [hm]; rfl
    · rw [hm]; exact beq_iff_eq.2 hv
  rw [encArm, if_neg (by simp [hl]), if_pos taken]

/-- A pending single sample counts as `LiteralMode` if the sample differs from it (R163). -/
theorem encArm_literal (hl : e.lastValid = true) (hm : e.mode = .literalMode ∨ e.mode = .chooseMode ∧ v ≠ e.last) :
    encArm e v = literalArm e (e.count + 1) e.isFinal v := by
  have not_taken : ¬ takenByRepeat e.mode (v == e.last) = true := by
    rcases hm with hm | ⟨hm, hv⟩
    · rw [hm]; exact Bool.false_ne_true
    · rw [hm]; exact mt beq_iff_eq.1 hv
  rw [encArm, if_neg (by simp [hl]), if_neg not_taken]

theorem repeatArm_close (h : v ≠ e.last ∨ c = 0x7FFF) :
    repeatArm e c final v =
      (.rpt c.toNat e.last :: loneToken final v, { e with count := 0, mode := .chooseMode, last := v }) :=
  if_pos (h.imp_right (countFull_iff c).2)

theorem repeatArm_open (hv : v = e.last) (hc : c ≤ 0x7FFE) :
    repeatArm e c false v = ([], { e with count := c, mode := .repeatMode, last := v }) :=
  if_neg (not_or.2 ⟨not_not.2 hv, mt (countFull_iff c).1 (by omega)⟩)

theorem repeatArm_final (hv : v = e.last) (hc : c ≤ 0x7FFE) :
    repeatArm e c true v =
      ([.rpt (c + 1).toNat e.last], { e with count := c + 1, mode := .repeatMode, last := v }) :=
  if_neg (not_or.2 ⟨not_not.2 hv, mt (countFull_iff c).1 (by omega)⟩)

/-- A final sample joins the open literal unless it is full (F4). -/
theorem literalArm_close (h : v = e.last ∨ c = 0x7FFF) (hf : final = true → c = 0x7FFF) :
    literalArm e c final v =
      (.lit c.toNat (e.buf ++ [e.last]) :: loneToken final v,
        { e with count := 0, mode := .chooseMode, buf := [], last := v }) := by
  have not_joined : ¬ (final = true ∧ ¬ countFull c = true) := fun ⟨last, room⟩ => room ((countFull_iff c).2 (hf last))
  rw [literalArm, if_neg not_joined, if_pos (h.imp_right (countFull_iff c).2)]

theorem literalArm_open (hv : v ≠ e.last) (hc : c ≤ 0x7FFE) :
    literalArm e c false v = ([], { e with count := c, buf := e.buf ++ [e.last], mode := .literalMode, last := v }) := by
  rw [literalArm, if_neg (by simp), if_neg (not_or.2 ⟨hv, mt (countFull_iff c).1 (by omega)⟩)]

theorem literalArm_final (hc : c ≤ 0x7FFE) :
    literalArm e c true v =
      ([.lit (c + 1).toNat (e.buf ++ [e.last] ++ [v])],
        { e with count := c + 1, buf := e.buf ++ [e.last] ++ [v], mode := .literalMode, last := v }) :=
  if_pos ⟨rfl, mt (countFull_iff c).1 (by omega)⟩

/-- "In every row `last` becomes `s`, `last_valid` becomes 1" (R170). -/
theorem encArm_last (e : Enc) (v : Byte) : (encArm e v).2.last = v ∧ (encArm e v).2.lastValid = true := by
  cases hl : e.lastValid with
  | false => rw [encArm_first hl]; exact ⟨rfl, rfl⟩
  | true =>
    unfold encArm repeatArm literalArm
    dsimp only
    split_ifs <;> exact ⟨rfl, hl⟩

theorem Enc.ModeInv.of_chooseMode (h : e.ModeInv) (hm : e.mode = .chooseMode) : e.count = 0 ∧ e.buf = [] := by
  rwa [Enc.ModeInv, hm] at h

theorem Enc.ModeInv.buf_of_repeatMode (h : e.ModeInv) (hm : e.mode = .repeatMode) : e.buf = [] := by
  rw [Enc.ModeInv, hm] at h
  obtain ⟨-, -, empty⟩ := h
  exact empty

end Arms

/-! ## The transition table (R170) -/

theorem exec_encSample_inside {s : State} (hp : s.enc.phase = .run) (willing : s.sinkTakesAll)
    (hf : s.enc.isFinal = false) (v : Byte) :
    exec (.encSample v) s =
      .next (((s.written (tokensBytes (encArm s.enc v).1)).setEnc
        { (encArm s.enc v).2 with pos := (encArm s.enc v).2.pos + 1 }).setResult .noValue) := by
  rw [exec_encSample_next hp willing, afterSample_of_not_final hf]

theorem exec_encSample_final {s : State} (hp : s.enc.phase = .run) (willing : s.sinkTakesAll)
    (hf : s.enc.isFinal = true) (v : Byte) :
    exec (.encSample v) s =
      .next ((encFrameStart ((s.written (tokensBytes (encArm s.enc v).1)).setEnc (encArm s.enc v).2)).setResult
        .noValue) := by
  rw [exec_encSample_next hp willing, afterSample_of_final hf]

/-- Settles O19: the rows are the arms of the state machine for a sample that is not final. -/
theorem encSampleTransitionTable : Obligations.EncSampleTransitionTable := by
  intro v s hp hr willing inside
  have hf : s.enc.isFinal = false := Bool.eq_false_iff.2 (mt s.enc.isFinal_iff.1 inside.ne)
  obtain ⟨last_eq, valid⟩ := encArm_last s.enc v
  obtain ⟨-, -, -, -, first, pending⟩ := hr
  have nothing : (s.written (tokensBytes [])).bsw = s.bsw := congrArg State.bsw s.written_nil
  have one (k : Token) : (s.written (tokensBytes [k])).bsw.out = s.bsw.out ++ k.bytes :=
    congrArg (s.bsw.out ++ ·) (tokensBytes_singleton k)
  refine ⟨_, exec_encSample_inside hp willing hf v, ?registers, rfl, rfl, rfl, rfl, ?answers, fun hl => ?first,
    fun hl hm hv => ?chooseSame, fun hl hm hv => ?chooseOther, fun hl hm hv hc => ?repeatOpen, fun hl hm hv => ?repeatClose,
    fun hl hm hv hc => ?literalOpen, fun hl hm hv => ?literalClose⟩
  case registers => simp [last_eq, valid]
  case answers => simp
  case first =>
    obtain ⟨count_eq, mode_eq, buf_eq⟩ := first hl
    rw [encArm_first hl, hf]
    exact ⟨nothing, mode_eq, congrArg (· + 1) count_eq, buf_eq⟩
  case chooseSame =>
    obtain ⟨count_eq, buf_eq⟩ := (pending hl).of_chooseMode hm
    rw [encArm_repeat hl (.inr ⟨hm, hv⟩), hf, repeatArm_open hv (by omega)]
    exact ⟨nothing, rfl, congrArg (· + 1) count_eq, buf_eq⟩
  case chooseOther =>
    obtain ⟨count_eq, buf_eq⟩ := (pending hl).of_chooseMode hm
    rw [encArm_literal hl (.inr ⟨hm, hv⟩), hf, literalArm_open hv (by omega)]
    exact ⟨nothing, rfl, congrArg (· + 1) count_eq, congrArg (· ++ [s.enc.last]) buf_eq⟩
  case repeatOpen =>
    have buf_eq := (pending hl).buf_of_repeatMode hm
    rw [encArm_repeat hl (.inl hm), hf, repeatArm_open hv hc]
    exact ⟨nothing, rfl, rfl, buf_eq⟩
  case repeatClose =>
    have buf_eq := (pending hl).buf_of_repeatMode hm
    rw [encArm_repeat hl (.inl hm), hf, repeatArm_close hv]
    exact ⟨one _, rfl, rfl, buf_eq⟩
  case literalOpen =>
    rw [encArm_literal hl (.inl hm), hf, literalArm_open hv hc]
    exact ⟨nothing, rfl, rfl, rfl⟩
  case literalClose =>
    rw [encArm_literal hl (.inl hm), literalArm_close hv (by simp [hf]), hf]
    exact ⟨one _, rfl, rfl, rfl⟩

/-! ## The final sample of a frame (R166, R169) -/

/-- Settles O20: the cases are the arms of the state machine for a final sample. -/
theorem encSampleFinalCases : Obligations.EncSampleFinalCases := by
  intro v s hp hr willing last
  have hf : s.enc.isFinal = true := s.enc.isFinal_iff.2 last
  have next_count : s.enc.count + 1 + 1 = s.enc.count + 2 := by omega
  refine ⟨_, exec_encSample_final hp willing hf v, ?registers, rfl, rfl, rfl, rfl, ?answers,
    fun hl => congrArg (s.bsw.out ++ ·) ?F0,
    fun hl hm => ⟨fun hv hc => congrArg (s.bsw.out ++ ·) ?F1, fun hv => congrArg (s.bsw.out ++ ·) ?F2_F3⟩,
    fun hl hm => ⟨fun hc => congrArg (s.bsw.out ++ ·) ?F4, fun hc => congrArg (s.bsw.out ++ ·) ?F5⟩⟩
  case registers => simp [encFrameStart, Config.initialCount]
  case answers => simp [encFrameStart]
  case F0 =>
    rw [encArm_first hl, hf, tokensBytes_loneToken]
  case F1 =>
    rw [encArm_repeat hl hm, hf, repeatArm_final hv hc, tokensBytes_singleton, next_count]
    rfl
  case F2_F3 =>
    rw [encArm_repeat hl hm, repeatArm_close hv, hf]
    rfl
  case F4 =>
    rw [encArm_literal hl hm, hf, literalArm_final hc, tokensBytes_singleton, next_count, List.append_assoc]
    rfl
  case F5 =>
    rw [encArm_literal hl hm, literalArm_close (.inr hc) fun _ => hc, hf, hc]
    rfl

/-! ## A frame through the encoder (R39, R161, R169, R173) -/

/-- The encoder between two samples of a frame of `h` by `w`, with a sink that takes every byte. -/
structure Encoding (h w : Half) (s : State) : Prop where
  phase : s.enc.phase = .run
  regs : s.enc.RunInv
  height : s.enc.height = h
  width : s.enc.width = w
  willing : s.sinkTakesAll

/-- From `s` to `t` the encoder has consumed `samples` and emitted the legal tokens `ts`; what these do not stand for is
pending (R39 (e)). -/
structure Emitted (s t : State) (ts : List Token) (samples : List Byte) : Prop where
  out : t.bsw.out = s.bsw.out ++ tokensBytes ts
  accounts : tokensSamples ts ++ t.enc.pending = s.enc.pending ++ samples
  legal : ∀ k ∈ ts, k.Legal

theorem Emitted.trans {s t u : State} {ts ts' : List Token} {as bs : List Byte} (first : Emitted s t ts as)
    (second : Emitted t u ts' bs) : Emitted s u (ts ++ ts') (as ++ bs) where
  out := by rw [second.out, first.out, tokensBytes, tokensBytes, tokensBytes, List.flatMap_append, List.append_assoc]
  accounts := by
    calc tokensSamples (ts ++ ts') ++ u.enc.pending
        = tokensSamples ts ++ (tokensSamples ts' ++ u.enc.pending) := by simp [tokensSamples]
      _ = (tokensSamples ts ++ t.enc.pending) ++ bs := by rw [second.accounts, List.append_assoc]
      _ = s.enc.pending ++ (as ++ bs) := by rw [first.accounts, List.append_assoc]
  legal := fun k hk => (List.mem_append.1 hk).elim (first.legal k) (second.legal k)

/-- At a frame start nothing is pending (R39 (a)). -/
theorem Enc.RunInv.pending_of_start {e : Enc} (hr : e.RunInv) (start : e.pos = 0) : e.pending = [] := by
  obtain ⟨-, -, -, first, -⟩ := hr
  exact if_pos (first.2 start)

section Sample
variable {h w : Half} {s : State}

theorem Encoding.n_eq (hs : Encoding h w s) : s.enc.n = h.toNat * w.toNat := by rw [Enc.n, hs.height, hs.width]

/-- One sample: the encoder goes on, at the next position or at the start of the next frame (R161, R169). -/
theorem Encoding.sample (hs : Encoding h w s) (v : Byte) :
    ∃ t ts, exec (.encSample v) s = .next t ∧ Encoding h w t ∧ Emitted s t ts [v] ∧
      t.enc.pos = if s.enc.isFinal then 0 else s.enc.pos + 1 := by
  obtain ⟨height_eq, width_eq, pos_eq, phase_eq, -⟩ := encArm_frame s.enc v
  have shaped := (encArm_spec hs.regs v).1
  refine ⟨(s.afterSample v).setResult .noValue, (encArm s.enc v).1, exec_encSample_next hs.phase hs.willing v, ?_,
    ⟨afterSample_out s v, afterSample_samples hs.regs v, fun k hk => (shaped k hk).1⟩, ?_⟩
  · cases hf : s.enc.isFinal with
    | true =>
      obtain ⟨hh, hw, -⟩ := hs.regs
      rw [afterSample_of_final hf]
      exact ⟨phase_eq.trans hs.phase, encFrameStart_runInv (height_eq ▸ hh) (width_eq ▸ hw), height_eq.trans hs.height,
        width_eq.trans hs.width, hs.willing.written _⟩
    | false =>
      have regs := hs.regs.arm v hf
      rw [← pos_eq] at regs
      rw [afterSample_of_not_final hf]
      exact ⟨phase_eq.trans hs.phase, regs, height_eq.trans hs.height, width_eq.trans hs.width, hs.willing.written _⟩
  · cases hf : s.enc.isFinal with
    | true => rw [afterSample_of_final hf]; rfl
    | false => rw [afterSample_of_not_final hf]; exact congrArg (· + 1) pos_eq

end Sample

theorem runOps_cons_next {i : Instr} {is : List Instr} {s t : State} (h : exec i s = .next t) :
    runOps (i :: is) s = runOps is t := by
  rw [runOps, h]

theorem runOps_cons_inv {i : Instr} {is : List Instr} {s t : State} (h : runOps (i :: is) s = .next t) :
    ∃ u, exec i s = .next u ∧ runOps is u = .next t := by
  rw [runOps] at h
  cases hi : exec i s with
  | next u => rw [hi] at h; exact ⟨u, rfl, h⟩
  | fault _ => rw [hi] at h; cases h
  | refused _ => rw [hi] at h; cases h

theorem runOps_append_next {is js : List Instr} {s t : State} (h : runOps is s = .next t) :
    runOps (is ++ js) s = runOps js t := by
  induction is generalizing s with
  | nil => cases h; rfl
  | cons i is ih =>
    obtain ⟨u, first, others⟩ := runOps_cons_inv h
    rw [List.cons_append, runOps_cons_next first, ih others]

/-- The samples that a frame still owes are consumed one by one, and the encoder stands at the next frame's start. -/
theorem Encoding.samples {h w : Half} (rest : List Byte) {s : State} (hs : Encoding h w s)
    (owed : s.enc.pos + rest.length = h.toNat * w.toNat) :
    ∃ t ts, runOps (rest.map .encSample) s = .next t ∧ Encoding h w t ∧ t.enc.pos = 0 ∧ Emitted s t ts rest := by
  induction rest generalizing s with
  | nil =>
    obtain ⟨-, -, inside, -⟩ := hs.regs
    rw [hs.n_eq] at inside
    exact absurd owed inside.ne
  | cons v rest ih =>
    obtain ⟨t, ts, sampled, ht, emitted, pos_eq⟩ := hs.sample v
    rw [List.map_cons, runOps_cons_next sampled]
    rw [List.length_cons] at owed
    cases hf : s.enc.isFinal with
    | true =>
      have last : s.enc.pos + 1 = s.enc.n := by simpa [Enc.isFinal] using hf
      rw [hs.n_eq] at last
      have nil : rest = [] := List.length_eq_zero_iff.1 (by omega)
      subst nil
      exact ⟨t, ts, rfl, ht, by rw [pos_eq, hf]; rfl, emitted⟩
    | false =>
      have next_pos : t.enc.pos = s.enc.pos + 1 := by rw [pos_eq, hf]; rfl
      obtain ⟨u, ts', ran, hu, start, emitted'⟩ := ih ht (by omega)
      exact ⟨u, ts ++ ts', ran, hu, start, emitted.trans emitted'⟩

/-- Whole frames from a frame start: one group of legal tokens for each, so no token crosses a frame boundary (R173). -/
theorem Encoding.frames {h w : Half} (frames : List (List Byte)) {s : State} (hs : Encoding h w s) (start : s.enc.pos = 0)
    (whole : ∀ f ∈ frames, f.length = h.toNat * w.toNat) :
    ∃ (t : State) (groups : List (List Token)),
      runOps (frames.flatten.map .encSample) s = .next t ∧ Encoding h w t ∧ t.enc.pos = 0 ∧
      t.bsw.out = s.bsw.out ++ groups.flatMap tokensBytes ∧ groups.map tokensSamples = frames ∧
      ∀ g ∈ groups, ∀ k ∈ g, k.Legal := by
  induction frames generalizing s with
  | nil => exact ⟨s, [], rfl, hs, start, (List.append_nil _).symm, rfl, nofun⟩
  | cons f frames ih =>
    obtain ⟨t, g, ran, ht, next_start, emitted⟩ := hs.samples f (by rw [start, Nat.zero_add]; exact whole f (by simp))
    obtain ⟨u, groups, ran', hu, last_start, out_eq, samples_eq, legal⟩ :=
      ih ht next_start fun f' hf' => whole f' (by simp [hf'])
    have samples_g : tokensSamples g = f := by
      simpa [hs.regs.pending_of_start start, ht.regs.pending_of_start next_start] using emitted.accounts
    refine ⟨u, g :: groups, ?_, hu, last_start, ?_, ?_, ?_⟩
    · rw [List.flatten_cons, List.map_append, runOps_append_next ran, ran']
    · rw [out_eq, emitted.out, List.flatMap_cons, List.append_assoc]
    · rw [List.map_cons, samples_g, samples_eq]
    · exact List.forall_mem_cons.2 ⟨emitted.legal, legal⟩

/-- `ENC.START` on a willing sink writes the header and stands at the first frame's start (R160). -/
theorem Encoding.start {h w : Half} {s : State} (hp : s.enc.phase = .idle) (hh : h ≠ 0) (hw : w ≠ 0)
    (willing : s.sinkTakesAll) :
    ∃ t, exec (.encStart h w) s = .next t ∧ Encoding h w t ∧ t.enc.pos = 0 ∧
      t.bsw.out = s.bsw.out ++ headerBytes h w :=
  ⟨_, exec_encStart_next hp hh hw (willing.takes 4),
    ⟨rfl, encFrameStart_runInv (s := (s.written (headerBytes h w)).setEnc { s.enc with height := h, width := w }) hh hw,
      rfl, rfl, willing.written _⟩, rfl, rfl⟩

/-- Settles O23: the header (`Encoding.start`), then one group of tokens for each frame (`Encoding.frames`), by induction on
the samples of a frame and on the frames. -/
theorem encodedFramesFormAStream : Obligations.EncodedFramesFormAStream := by
  intro h w frames s hh hw whole hp willing
  obtain ⟨s1, started, encoding, start, header⟩ := Encoding.start hp hh hw willing
  obtain ⟨t, groups, ran, ht, next_start, out_eq, samples_eq, legal⟩ := encoding.frames frames start whole
  refine ⟨t, groups, ?_, ht.phase, next_start, ht.regs.pending_of_start next_start, ?_, samples_eq, legal⟩
  · rw [runOps_cons_next started, ran]
  · rw [out_eq, header, List.append_assoc]

/-! ## A well-formed stream through the decoder (R190, R195, R196, R205) -/

/-- `DEC.START` reads the header's two fields and goes on as the header element does (R190, R197). -/
theorem decStart_eq_decHeader {h w : Half} {rest : List Byte} {s : State} (hp : s.dec.phase = .idle)
    (ha : s.bsr.attached = true) (h0 : s.bsr.cur = 0) (hb : s.bytesAtCursor = headerBytes h w ++ rest) :
    decStart s = decHeader h w (s.pass 4) ∧ (s.pass 4).bytesAtCursor = rest := by
  obtain ⟨read_height, rest_height⟩ := bsrReadU16_cons hb
  obtain ⟨read_width, rest_width⟩ := bsrReadU16_cons rest_height
  rw [bigEndian_hi_lo] at read_height read_width
  refine ⟨?_, rest_width⟩
  rw [decStart, requireStart_eq hp ha h0, read_height, Res.bind_ok, read_width, Res.bind_ok]
  rfl

theorem decHeader_ok {h w : Half} {s : State} (hc : s.fb.constructed = false) (hh : h ≠ 0) (hw : w ≠ 0) :
    decHeader h w s = .ok () ((s.setFb ⟨true, h, w, 0, []⟩).setDec
      { s.dec with dmode := .readCount, remaining := 0, phase := .run, frameBegun := false }) := by
  rw [decHeader, if_neg (not_or.2 ⟨hh, hw⟩), fbConstruct_ok hc hh hw, Res.bind_ok]
  rfl

/-- Power-on state of the decoder with a buffer attached, its first byte at the cursor (R50, R133, R190). -/
structure DecodeLoaded (s : State) : Prop extends DecodeSound s where
  idle : s.dec.phase = .idle
  fault : s.dec.fault = .noFault
  unbuilt : s.fb.constructed = false
  attached : s.bsr.attached = true
  start : s.bsr.cur = 0

/-- Groups of legal tokens, each of which holds the samples of one frame (R111). -/
def FrameGroups (h w : Half) (groups : List (List Token)) : Prop :=
  ∀ g ∈ groups, (∀ k ∈ g, k.Legal) ∧ (tokensSamples g).length = h.toNat * w.toNat

/-- `DEC.START` on a legal header: the decoder stands before the first frame (R190). -/
theorem decStart_header {h w : Half} {rest : List Byte} {s : State} (hs : DecodeLoaded s) (hh : h ≠ 0) (hw : w ≠ 0)
    (hb : s.bytesAtCursor = headerBytes h w ++ rest) :
    ∃ t, decStart s = .ok () t ∧ DecodeRuns t ∧ DecodeKeeps s t ∧ t.frames = s.frames ∧ t.atFrameBoundary = true ∧
      t.fb.height = h ∧ t.fb.width = w ∧ t.bytesAtCursor = rest := by
  obtain ⟨reads, left⟩ := decStart_eq_decHeader hs.idle hs.attached hs.start hb
  have started := reads.trans (decHeader_ok (s := s.pass 4) hs.unbuilt hh hw)
  have ensured := decStart_ensures hs.toDecodeSound hs.fault
  rw [started] at ensured
  obtain ⟨-, runs, keeps, frames_eq, -, boundary⟩ := ensured
  exact ⟨_, started, runs, keeps, frames_eq, boundary, rfl, rfl, (bytesAtCursor_congr rfl).trans left⟩

/-- The frame loop on groups of tokens that each fill a frame, and nothing more: one frame for each group, then the end of
the stream (R196, R205). -/
theorem runLoop_groups {h w : Half} {groups : List (List Token)} {s : State} (hs : DecodeRuns s)
    (hbd : s.atFrameBoundary = true) (height_eq : s.fb.height = h) (width_eq : s.fb.width = w)
    (hg : FrameGroups h w groups) (hb : s.bytesAtCursor = groups.flatMap tokensBytes) :
    ∃ t, runLoop s = .ok () t ∧ DecodeKeeps s t ∧ t.dec.phase = .done ∧ t.dec.fault = .noFault ∧ t.bsr.atEnd = true ∧
      t.frames = s.frames ++ groups.map fun g => greyFrame h w (tokensSamples g) := by
  induction groups generalizing s with
  | nil =>
    obtain ⟨-, -, bound, -⟩ := hs.bsr
    have at_end : s.bsr.atEnd = true := (atEnd_iff bound).2 hb
    exact ⟨_, runFrames_atEnd _ hs.phase hbd at_end, DecodeKeeps.setDec s _, rfl, hs.fault, at_end,
      (List.append_nil _).symm⟩
  | cons g groups ih =>
    obtain ⟨⟨legal, whole⟩, tail⟩ := List.forall_mem_cons.1 hg
    obtain ⟨u, decoded, hu, keeps, frames_eq, left, -, boundary⟩ :=
      decFrame_tokens hs hbd legal (by rw [whole, Fb.n, height_eq, width_eq]) hb
    rw [height_eq, width_eq] at decoded frames_eq
    obtain ⟨-, height_kept, width_kept⟩ := keeps.dims hs.built
    obtain ⟨t, ran, keeps', done, fault, at_end, frames_eq'⟩ :=
      ih hu boundary (height_kept.trans height_eq) (width_kept.trans width_eq) tail left
    refine ⟨t, ?_, keeps.trans keeps', done, fault, at_end, ?_⟩
    · rw [runLoop_eq hs hbd, decoded, Res.bind_ok, if_neg nofun, ran]
    · rw [frames_eq', frames_eq, List.append_assoc]; rfl

/-- `DEC.RUN` on a well-formed stream (R111, R205). -/
theorem decRun_stream {h w : Half} {groups : List (List Token)} {s : State} (hs : DecodeLoaded s) (hh : h ≠ 0)
    (hw : w ≠ 0) (hg : FrameGroups h w groups)
    (hb : s.bytesAtCursor = headerBytes h w ++ groups.flatMap tokensBytes) :
    ∃ t, decRun s = .ok () t ∧ DecodeKeeps s t ∧ t.dec.phase = .done ∧ t.dec.fault = .noFault ∧ t.bsr.atEnd = true ∧
      t.fb.height = h ∧ t.fb.width = w ∧
      t.frames = s.frames ++ groups.map fun g => greyFrame h w (tokensSamples g) := by
  obtain ⟨s1, started, decoding, keeps, frames_eq, boundary, height_eq, width_eq, left⟩ := decStart_header hs hh hw hb
  obtain ⟨t, ran, keeps', done, fault, at_end, frames_eq'⟩ :=
    runLoop_groups decoding boundary height_eq width_eq hg left
  obtain ⟨-, height_kept, width_kept⟩ := keeps'.dims decoding.built
  refine ⟨t, ?_, keeps.trans keeps', done, fault, at_end, height_kept.trans height_eq, width_kept.trans width_eq,
    frames_eq ▸ frames_eq'⟩
  rw [decRun, started, Res.bind_ok]
  exact ran

theorem exec_decRun_next {s t : State} (hp : s.dec.phase = .idle) (ran : decRun s = .ok () t) :
    exec .decRun s = .next (t.setResult .noValue) :=
  finishComposite_of_ok (decode_not_faulted (by simp [hp])) ran

/-! ## The round trip (R176) -/

/-- Operations of the encode path leave the decode side alone, however many are run (R3). -/
theorem runOps_encode_frame {is : List Instr} {s t : State} (hpath : ∀ i ∈ is, i.path = .encode)
    (h : runOps is s = .next t) : t.decodeSide = s.decodeSide := by
  induction is generalizing s with
  | nil => cases h; rfl
  | cons i is ih =>
    obtain ⟨head, tail⟩ := List.forall_mem_cons.1 hpath
    obtain ⟨u, first, others⟩ := runOps_cons_inv h
    exact (ih tail others).trans (exec_encode_frame head first).1

/-- `BSR.LOAD` from power-on state of the decoder (R133). -/
theorem exec_bsrLoad_loaded {s : State} (hd : DecodeInv s) (hp : s.dec.phase = .idle) (hc : s.fb.constructed = false)
    (bytes : List Byte) :
    ∃ t, exec (.bsrLoad bytes) s = .next t ∧ DecodeLoaded t ∧ t.bytesAtCursor = bytes ∧ t.frames = s.frames :=
  ⟨_, exec_bsrLoad_next (by simp [hp]) bytes,
    ⟨⟨Bsr.Inv.load bytes, hd.fb, hd.frames⟩, hp, noFault_of_idle hd.dec.1 hp, hc, rfl, rfl⟩, bytesAtCursor_load bytes s, rfl⟩

/-- A well-formed stream, loaded and run from power-on state of the decoder (R133, R205). -/
theorem runOps_bsrLoad_decRun {h w : Half} {groups : List (List Token)} {s : State} (hd : DecodeInv s)
    (hp : s.dec.phase = .idle) (hc : s.fb.constructed = false) (hh : h ≠ 0) (hw : w ≠ 0) (hg : FrameGroups h w groups) :
    ∃ u, runOps [.bsrLoad (headerBytes h w ++ groups.flatMap tokensBytes), .decRun] s = .next u ∧
      u.dec.phase = .done ∧ u.dec.fault = .noFault ∧ u.bsr.atEnd = true ∧
      u.frames = s.frames ++ groups.map fun g => greyFrame h w (tokensSamples g) := by
  obtain ⟨t, loaded, ht, at_cursor, frames_kept⟩ :=
    exec_bsrLoad_loaded hd hp hc (headerBytes h w ++ groups.flatMap tokensBytes)
  obtain ⟨u, ran, -, done, fault, at_end, -, -, frames_eq⟩ := decRun_stream ht hh hw hg at_cursor
  refine ⟨u.setResult .noValue, ?_, done, fault, at_end, frames_kept ▸ frames_eq⟩
  rw [runOps_cons_next loaded, runOps_cons_next (exec_decRun_next ht.idle ran), runOps]

/-- Settles O24: the encoder's stream is well-formed (`encodedFramesFormAStream`), the encoder leaves the decode side alone,
and the decoder gives back the samples of each group of tokens (`runOps_bsrLoad_decRun`). -/
theorem roundTrip : Obligations.RoundTrip := by
  intro h w frames s hh hw whole hinv hidle hempty willing hdec hc
  obtain ⟨t, groups, encoded, -, -, -, out_eq, samples_eq, legal⟩ :=
    encodedFramesFormAStream h w frames s hh hw whole hidle willing
  have out_eq : t.bsw.out = headerBytes h w ++ groups.flatMap tokensBytes := by rw [out_eq, hempty, List.nil_append]
  have side : t.decodeSide = s.decodeSide :=
    runOps_encode_frame (List.forall_mem_cons.2 ⟨rfl, List.forall_mem_map.2 fun _ _ => rfl⟩) encoded
  have hd : DecodeInv t := hinv.decodeInv.of_decodeSide side
  simp only [State.decodeSide, Prod.mk.injEq] at side
  obtain ⟨-, fb_eq, dec_eq, frames_kept, -⟩ := side
  have groups_whole : FrameGroups h w groups := fun g hg =>
    ⟨legal g hg, whole (tokensSamples g) (samples_eq ▸ List.mem_map_of_mem hg)⟩
  obtain ⟨u, decoded, done, fault, at_end, frames_eq⟩ :=
    runOps_bsrLoad_decRun hd (dec_eq ▸ hdec) (fb_eq ▸ hc) hh hw groups_whole
  refine ⟨t, u, groups, encoded, out_eq, legal, samples_eq, out_eq ▸ decoded, done, fault, at_end, ?_⟩
  rw [frames_eq, frames_kept, ← samples_eq, List.map_map]
  rfl

end Sys2Proof.Machine

/-! PROOFS. The statements of 43_decoder.md: starting (R190, R197), one step (R191 to R194), one frame (R195, R204, R231),
the whole stream (R196, R203, R205), and the token elements (R198 to R200). -/

namespace Sys2Proof.Machine

/-! ## How an operation of the decode path ends (R226, R227) -/

section Ends
variable {α : Type} {g : α → OpResult} {s : State} {r : Res α}

/-- A fault leaves the units as the primitives that completed before it left them. -/
theorem finishComposite_faulted {f : FaultRecord} {u : State} (not_faulted : s.faulted .decode = false)
    (h : r = .fault f u) :
    ∃ t, finishComposite .decode g (guardPath .decode s r) = .next t ∧ t.dec.phase = .fault ∧ t.dec.fault = f ∧
      t.bsr = u.bsr ∧ t.fb = u.fb ∧ t.frames = u.frames ∧ t.encodeSide = u.encodeSide :=
  ⟨_, finishComposite_of_fault not_faulted h, rfl, rfl, rfl, rfl, rfl, rfl⟩

/-- An operation that is not refused answers a next state, with what the operation ensures. -/
theorem finishComposite_of_completes {P : α → State → Prop} {Q : FaultRecord → State → Prop}
    (not_faulted : s.faulted .decode = false) (completes : r.Completes) (ensures : r.Ensures P Q) :
    (∃ a u, finishComposite .decode g (guardPath .decode s r) = .next (u.setResult (g a)) ∧ P a u) ∨
      ∃ f u, finishComposite .decode g (guardPath .decode s r) =
          .next (takeFault .decode f (leaveUnspecified .decode u)) ∧
        Q f u ∧ ∀ c, f = .truncatedStream c → c = u.bsr.cur := by
  rw [guardPath_of_not_faulted not_faulted]
  cases r with
  | ok a u => exact .inl ⟨a, u, rfl, ensures⟩
  | fault f u => exact .inr ⟨f, u, rfl, ensures, completes⟩
  | refused _ => exact completes.elim

theorem not_faulted_of_run (hp : s.dec.phase = .run) : s.faulted .decode = false := decode_not_faulted (by simp [hp])

theorem not_faulted_of_idle (hp : s.dec.phase = .idle) : s.faulted .decode = false := decode_not_faulted (by simp [hp])

end Ends

/-! ## The header element and `DEC.START` (R190, R197) -/

section Start
variable {s : State}

theorem pass_of_start (h0 : s.bsr.cur = 0) (k : Nat) : s.pass k = s.setCur k := by
  rw [State.pass, h0, Nat.zero_add]

theorem hdr_eq_decHeader (hp : s.dec.phase = .idle) (ha : s.bsr.attached = true) (h0 : s.bsr.cur = 0) (h w : Half) :
    hdr h w s = decHeader h w (s.setCur 4) := by
  rw [hdr, requireStart_eq hp ha h0, pass_of_start h0]

theorem decHeader_built {h w : Half} (hc : s.fb.constructed = true) (hh : h ≠ 0) (hw : w ≠ 0) :
    decHeader h w s = .refused .fbAlreadyConstructed := by
  rw [decHeader, if_neg (not_or.2 ⟨hh, hw⟩), fbConstruct_twice hc, Res.bind_refused]

theorem decHeader_zero {h w : Half} (zero : h = 0 ∨ w = 0) : decHeader h w s = .fault (.invalidHeader h w) s :=
  if_pos zero

/-- Settles O36: past the `require` the element is `decHeader` behind the four bytes. -/
theorem headerElementResult : Obligations.HeaderElementResult := by
  intro h w s hp
  have not_fault : s.dec.phase ≠ .fault := by simp [hp]
  have not_faulted := not_faulted_of_idle hp
  refine ⟨fun ha h0 => ?met, fun ha => exec_hdr_refused not_fault (requireStart_noBuffer hp ha) h w,
    fun ha h0 => exec_hdr_refused not_fault (requireStart_cursorNotAtStart hp ha h0) h w⟩
  have element := hdr_eq_decHeader hp ha h0 h w
  exact ⟨fun hh hw hc => finishComposite_of_ok not_faulted (element.trans (decHeader_ok hc hh hw)),
    fun hh hw hc => finishComposite_of_refused not_faulted (element.trans (decHeader_built hc hh hw)),
    fun zero => finishComposite_faulted not_faulted (element.trans (decHeader_zero zero))⟩

/-- `DEC.START` on the bytes of a header is the header element. -/
theorem exec_decStart_eq_hdr {h w : Half} {rest : List Byte} (hp : s.dec.phase = .idle) (ha : s.bsr.attached = true)
    (h0 : s.bsr.cur = 0) (hb : s.bytesAtCursor = headerBytes h w ++ rest) :
    exec .decStart s = exec (.hdr h w) s := by
  have same : decStart s = hdr h w s := by
    rw [(decStart_eq_decHeader hp ha h0 hb).1, hdr, requireStart_eq hp ha h0]
  exact congrArg (fun r => finishComposite .decode noResult (guardPath .decode s r)) same

theorem decStart_cutHeight (hp : s.dec.phase = .idle) (ha : s.bsr.attached = true) (h0 : s.bsr.cur = 0)
    (short : s.bytesAtCursor.length < 2) : decStart s = .fault (.truncatedStream s.bsr.cur) s := by
  rw [decStart, requireStart_eq hp ha h0, bsrReadU16_short short, Res.bind_fault]

theorem decStart_cutWidth (hp : s.dec.phase = .idle) (ha : s.bsr.attached = true) (h0 : s.bsr.cur = 0)
    (height : 2 ≤ s.bytesAtCursor.length) (short : s.bytesAtCursor.length < 4) :
    decStart s = .fault (.truncatedStream (s.bsr.cur + 2)) (s.pass 2) := by
  have width_cut : (s.pass 2).bytesAtCursor.length < 2 := by
    rw [State.pass, bytesAtCursor_setCur, List.length_drop]; omega
  rw [bytesAtCursor_length] at height
  rw [decStart, requireStart_eq hp ha h0, bsrReadU16_ok (by omega), Res.bind_ok, ← State.pass,
    bsrReadU16_short width_cut, Res.bind_fault]
  rfl

theorem decodeHeader_rejected {bytes : List Byte} {why : Reject} (h : decodeHeader bytes = .rejected why) :
    why = .truncatedHeight ∧ bytes.length < 2 ∨
      why = .truncatedWidth ∧ 2 ≤ bytes.length ∧ bytes.length < 4 := by
  rcases bytes with _ | ⟨b0, _ | ⟨b1, _ | ⟨b2, _ | ⟨b3, rest⟩⟩⟩⟩
  · cases h; exact .inl ⟨rfl, by simp⟩
  · cases h; exact .inl ⟨rfl, by simp⟩
  · cases h; exact .inr ⟨rfl, by simp⟩
  · cases h; exact .inr ⟨rfl, by simp⟩
  · cases h

/-- Where the bytes end inside the header, `DEC.START` faults at the field that is cut short (R221, R227). -/
theorem decStart_rejected {why : Reject} (hp : s.dec.phase = .idle) (ha : s.bsr.attached = true) (h0 : s.bsr.cur = 0)
    (hdec : decode .header s.bytesAtCursor = .rejected why) :
    decStart s = .fault (.truncatedStream (s.bsr.cur + why.consumed)) (s.pass why.consumed) := by
  obtain ⟨rfl, short⟩ | ⟨rfl, height, short⟩ := decodeHeader_rejected hdec
  · exact decStart_cutHeight hp ha h0 short
  · exact decStart_cutWidth hp ha h0 height short

theorem stepElement_rejected {pos : ElementPos} {why : Reject} (hpos : elementPos s = .inl pos)
    (hdec : decode pos s.bytesAtCursor = .rejected why) : stepElement s = cutShort why s := by
  simp [stepElement, fetch, hpos, hdec]

end Start

/-- Settles O41: both ask the same `require`; past it, a whole header is the header element and a cut one is
`decStart_rejected`. -/
theorem headerElementIsDecStart : Obligations.HeaderElementIsDecStart := by
  intro s hp
  have not_faulted := not_faulted_of_idle hp
  cases ha : s.bsr.attached with
  | false =>
    rw [stepElement_refused (elementPos_noBuffer hp ha)]
    exact (finishComposite_of_refused not_faulted (requireStart_noBuffer hp ha _)).symm
  | true =>
    by_cases h0 : s.bsr.cur = 0
    · have pos := elementPos_header hp ha h0
      cases hdec : decode .header s.bytesAtCursor with
      | element i rest =>
        obtain ⟨is_header, bytes, encoded, hb⟩ := encodeDecodedElement _ _ _ _ hdec
        obtain ⟨h, w, rfl⟩ := exists_hdr_of_position is_header
        cases encoded
        exact (stepElement_of_decode pos hdec).trans (exec_decStart_eq_hdr hp ha h0 hb.symm).symm
      | rejected why =>
        rw [stepElement_rejected pos hdec]
        exact (finishComposite_of_fault not_faulted (decStart_rejected hp ha h0 hdec)).symm
    · rw [stepElement_refused (elementPos_cursorNotAtStart hp ha h0)]
      exact (finishComposite_of_refused not_faulted (requireStart_cursorNotAtStart hp ha h0 _)).symm

/-- Settles O25: on four bytes it is the header element (`headerElementResult`), on fewer it faults at the field that is cut
short. -/
theorem decStartResult : Obligations.DecStartResult := by
  intro s
  refine ⟨fun b0 b1 b2 b3 rest hp ha h0 hb => ?whole, fun hp ha h0 short => ?height, fun hp ha h0 height short => ?width,
    fun hp ha => ?noBuffer, fun hp ha h0 => ?cursor, fun hp => ?phase⟩
  case whole =>
    have header : s.bytesAtCursor = headerBytes (bigEndian b0 b1) (bigEndian b2 b3) ++ rest := by
      simp [hb, headerBytes, halfBytes_bigEndian]
    rw [exec_decStart_eq_hdr hp ha h0 header]
    exact (headerElementResult (bigEndian b0 b1) (bigEndian b2 b3) s hp).1 ha h0
  case height =>
    have cut := decStart_cutHeight hp ha h0 short
    rw [h0] at cut
    exact finishComposite_faulted (not_faulted_of_idle hp) cut
  case width =>
    have cut := decStart_cutWidth hp ha h0 height short
    rw [pass_of_start h0, h0] at cut
    exact finishComposite_faulted (not_faulted_of_idle hp) cut
  case noBuffer =>
    exact finishComposite_of_refused (not_faulted_of_idle hp) (requireStart_noBuffer hp ha _)
  case cursor =>
    exact finishComposite_of_refused (not_faulted_of_idle hp) (requireStart_cursorNotAtStart hp ha h0 _)
  case phase =>
    exact (exec_start_wrongPhase (fun hf => by simp [hf] at hp) (fun hi => by simp [hi] at hp) 0 0).1

/-! ## The `ReadCount` step (R192) -/

section ReadCount
variable {s : State} {c : Half} {rest : List Byte}

theorem decStep_of_readCount (hp : s.dec.phase = .run) (hc : s.fb.constructed = true) (hf : s.fb.isFull = false)
    (hm : s.dec.dmode = .readCount) : decStep s = readCountArm s := by
  rw [decStep_eq hp hc hf, decArm, hm]

theorem bsrReadU16_halfBytes (hb : s.bytesAtCursor = halfBytes c ++ rest) :
    bsrReadU16 s = .ok c (s.pass 2) ∧ (s.pass 2).bytesAtCursor = rest := by
  have read := bsrReadU16_cons hb
  rwa [bigEndian_hi_lo] at read

theorem readCountArm_literal (hb : s.bytesAtCursor = halfBytes c ++ rest) (hlo : 1 ≤ c.toNat) (hhi : c.toNat < 0x8000) :
    readCountArm s = .ok () (beginLiteral c.toNat (s.pass 2)) := by
  have hn : countLen c ≠ 0 := (countLen_ne_zero_iff c).2 (by omega)
  have hk : countKind c = false := (countKind_eq_false_iff c).2 hhi
  have field_eq : countField false (countLen c) = c := hk ▸ countField_kind_len c
  rw [raw_toNat_of_lit hk]
  exact (readCountArm_lit hn (field_eq.symm ▸ hb)).1

theorem readCountArm_repeat {v : Byte} (hb : s.bytesAtCursor = halfBytes c ++ v :: rest) (hlo : 0x8001 ≤ c.toNat) :
    readCountArm s = .ok () (beginRepeat (c.toNat - 0x8000) v (s.pass 3)) := by
  have hn : countLen c ≠ 0 := (countLen_ne_zero_iff c).2 (by omega)
  have hk : countKind c = true := (countKind_iff c).2 (by omega)
  have field_eq : countField true (countLen c) = c := hk ▸ countField_kind_len c
  have len_eq : c.toNat - 0x8000 = (countLen c).toNat := by
    have := c.isLt
    rw [countLen_toNat]; omega
  rw [len_eq]
  exact (readCountArm_rpt hn (field_eq.symm ▸ hb)).1

theorem readCountArm_reserved (hb : s.bytesAtCursor = halfBytes c ++ rest) (hres : countLen c = 0) :
    readCountArm s = .fault (.reservedCount c) (s.pass 2) := by
  rw [readCountArm, (bsrReadU16_halfBytes hb).1, Res.bind_ok, if_pos ((reservedCount_iff c).2 hres)]

/-- A repeat count field with no value byte after it (R192, R202). -/
theorem readCountArm_noValue (hb : s.bytesAtCursor = halfBytes c) (hn : countLen c ≠ 0) (hk : countKind c = true) :
    readCountArm s = .fault (.truncatedStream (s.bsr.cur + 2)) (s.pass 2) := by
  obtain ⟨field_read, nothing_left⟩ := bsrReadU16_halfBytes (rest := []) (by rw [hb, List.append_nil])
  have not_literal : ¬ c < Config.kindBit := by rw [raw_lt_kindBit_iff, hk]; simp
  rw [readCountArm, field_read, Res.bind_ok, if_neg (mt (reservedCount_iff c).1 hn), if_neg not_literal,
    bsrReadU8_nil nothing_left, Res.bind_fault]
  rfl

theorem readCountArm_short (short : s.bytesAtCursor.length < 2) :
    readCountArm s = .fault (.truncatedStream s.bsr.cur) s := by
  rw [readCountArm, bsrReadU16_short short, Res.bind_fault]

end ReadCount

/-- Settles O26: the clauses are the branches of the `ReadCount` arm. -/
theorem decStepReadCount : Obligations.DecStepReadCount := by
  intro s hp hc hroom hm
  have not_faulted := not_faulted_of_run hp
  have step := decStep_of_readCount hp hc (s.fb.isFull_eq_false_iff.2 hroom) hm
  refine ⟨fun b0 b1 rest hb => ?field,
    fun short => finishComposite_faulted not_faulted (step.trans (readCountArm_short short))⟩
  have hb : s.bytesAtCursor = halfBytes (bigEndian b0 b1) ++ rest := by rw [hb, halfBytes_bigEndian]; rfl
  refine ⟨fun hlo hhi => ?literal, fun v rest' hrest hlo => ?repeating, fun hrest hlo => ?noValue, fun hres => ?reserved⟩
  case literal => exact finishComposite_of_ok not_faulted (step.trans (readCountArm_literal hb hlo hhi))
  case repeating =>
    subst hrest
    exact finishComposite_of_ok not_faulted (step.trans (readCountArm_repeat hb hlo))
  case noValue =>
    rw [hrest, List.append_nil] at hb
    exact finishComposite_faulted not_faulted (step.trans
      (readCountArm_noValue hb ((countLen_ne_zero_iff _).2 (by omega)) ((countKind_iff _).2 (by omega))))
  case reserved =>
    exact finishComposite_faulted not_faulted
      (step.trans (readCountArm_reserved hb ((countLen_eq_zero_iff _).2 hres)))

/-! ## The `Literal` and the `Repeat` step (R193, R194) -/

/-- The placed samples, written as the obligations do: the token is at its end where they are all that it owed. -/
theorem State.placed_eq {s : State} {samples : List Byte} (h : samples.length ≤ s.dec.remaining) :
    s.placed samples =
      { s with
        fb := { s.fb with fcur := s.fb.fcur + samples.length, pix := s.fb.pix ++ samples.map greyPixel }
        dec := { s.dec with
          remaining := s.dec.remaining - samples.length
          dmode := if samples.length = s.dec.remaining then .readCount else s.dec.dmode } } := by
  have ends : s.dec.remaining ≤ samples.length ↔ samples.length = s.dec.remaining := by omega
  simp only [State.placed, ends]
  rfl

/-- Inside a token, with samples of it still owed and room in the frame for the next one. -/
structure InsideToken (s : State) : Prop where
  phase : s.dec.phase = .run
  built : s.fb.constructed = true
  room : s.fb.fcur < s.fb.n
  pixels : s.fb.pix.length = s.fb.fcur
  owes : 1 ≤ s.dec.remaining

/-- A buffer that is not full has room (R30). -/
theorem Fb.Inv.lt_n {f : Fb} (h : f.Inv) (hne : f.fcur ≠ f.height.toNat * f.width.toNat) : f.fcur < f.n := by
  obtain ⟨-, bound, -⟩ := h
  exact lt_of_le_of_ne bound hne

section InsideToken
variable {s : State}

theorem InsideToken.of_inv (hp : s.dec.phase = .run) (hc : s.fb.constructed = true) (inv : s.fb.Inv)
    (hroom : s.fb.fcur ≠ s.fb.height.toNat * s.fb.width.toNat) (owes : 1 ≤ s.dec.remaining) : InsideToken s := by
  have room := inv.lt_n hroom
  obtain ⟨-, -, pixels, -⟩ := inv
  exact ⟨hp, hc, room, pixels, owes⟩

theorem InsideToken.not_full (hs : InsideToken s) : s.fb.isFull = false := beq_false_of_ne hs.room.ne

theorem InsideToken.not_faulted (hs : InsideToken s) : s.faulted .decode = false :=
  not_faulted_of_run hs.phase

theorem InsideToken.decStep_repeating (hs : InsideToken s) (hm : s.dec.dmode = .repeating) :
    decStep s = .ok () (s.placed [s.dec.pixel]) := by
  rw [decStep_eq hs.phase hs.built hs.not_full, decArm, hm]
  exact placeSample_eq hs.built hs.room hs.pixels

theorem InsideToken.decStep_literal (hs : InsideToken s) (hm : s.dec.dmode = .literal) {v : Byte} {rest : List Byte}
    (hb : s.bytesAtCursor = v :: rest) : decStep s = .ok () ((s.pass 1).placed [v]) := by
  have placed : placeSample v (s.pass 1) = .ok () ((s.pass 1).placed [v]) :=
    placeSample_eq hs.built hs.room hs.pixels
  rw [decStep_eq hs.phase hs.built hs.not_full, decArm, hm]
  dsimp only
  rw [literalStep, (bsrReadU8_cons hb).1, Res.bind_ok]
  exact placed

theorem decStep_literal_cut (hp : s.dec.phase = .run) (hc : s.fb.constructed = true) (hf : s.fb.isFull = false)
    (hm : s.dec.dmode = .literal) (hb : s.bytesAtCursor = []) : decStep s = .fault (.truncatedStream s.bsr.cur) s := by
  rw [decStep_eq hp hc hf, decArm, hm]
  dsimp only
  rw [literalStep, bsrReadU8_nil hb, Res.bind_fault]

theorem InsideToken.placed_one (hs : InsideToken s) (v : Byte) :
    s.placed [v] =
      { s with
        fb := { s.fb with fcur := s.fb.fcur + 1, pix := s.fb.pix ++ [⟨v, v, v⟩] }
        dec := { s.dec with
          remaining := s.dec.remaining - 1
          dmode := if s.dec.remaining = 1 then .readCount else s.dec.dmode } } := by
  rw [State.placed_eq (samples := [v]) hs.owes, List.length_singleton]
  simp only [eq_comm (a := 1)]
  rfl

end InsideToken

/-- Settles O27: the byte read is the sample placed; with no byte there is nothing to place. -/
theorem decStepLiteral : Obligations.DecStepLiteral := by
  intro s hp hc inv hroom hm owes
  have inside := InsideToken.of_inv hp hc inv hroom owes
  refine ⟨fun v rest hb => ?sample, fun hb => ?cut⟩
  case sample =>
    have passed : InsideToken (s.pass 1) := ⟨hp, hc, inside.room, inside.pixels, owes⟩
    have placed := inside.decStep_literal hm hb
    rw [passed.placed_one, show (s.pass 1).dec.dmode = .literal from hm] at placed
    exact finishComposite_of_ok inside.not_faulted placed
  case cut =>
    exact finishComposite_faulted inside.not_faulted (decStep_literal_cut hp hc inside.not_full hm hb)

/-- Settles O28: the sample placed is the stored pixel. -/
theorem decStepRepeat : Obligations.DecStepRepeat := by
  intro s hp hc inv hroom hm owes
  have inside := InsideToken.of_inv hp hc inv hroom owes
  have placed := inside.decStep_repeating hm
  rw [inside.placed_one, hm] at placed
  exact finishComposite_of_ok inside.not_faulted placed

/-! ## `DEC.FRAME` (R195, R204, R231) -/

section Frame
variable {s : State}

/-- A frame boundary, written as the obligations do (log 13). -/
theorem atFrameBoundary_iff :
    s.atFrameBoundary = true ↔
      s.fb.fcur = s.fb.height.toNat * s.fb.width.toNat ∨ (s.fb.fcur = 0 ∧ s.dec.frameBegun = false) := by
  simp [State.atFrameBoundary, Fb.isFull_iff]

theorem requireBoundary_insideFrame {α : Type} (hp : s.dec.phase = .run) (hb : s.atFrameBoundary = false) (r : Res α) :
    requireBoundary s r = .refused .insideFrame := by
  simp [requireBoundary, hp, hb]

theorem Bsr.atEnd_eq_false_iff (b : Bsr) : b.atEnd = false ↔ b.cur ≠ b.len := by
  rw [Bsr.atEnd_eq_decide, decide_eq_false_iff_not]

/-- Settles O29: at the end of the stream `DEC.FRAME` only ends the run; off a frame boundary its `require` fails. -/
theorem decFrameAtEnd : Obligations.DecFrameAtEnd := by
  intro s hp
  have not_faulted := not_faulted_of_run hp
  refine ⟨fun boundary ended => ?ended, fun partly begun => ?inside⟩
  case ended =>
    exact finishComposite_of_ok not_faulted
      (decFrame_atEnd hp (atFrameBoundary_iff.2 boundary) (by rw [Bsr.atEnd_eq_decide, decide_eq_true ended]))
  case inside =>
    have inside : s.atFrameBoundary = false := by
      rw [← Bool.not_eq_true, atFrameBoundary_iff]
      rintro (full | ⟨empty, not_begun⟩)
      · exact partly full
      · rcases begun with begun | begun
        · exact begun empty
        · rw [not_begun] at begun; cases begun
    exact finishComposite_of_refused not_faulted (requireBoundary_insideFrame hp inside _)

theorem DecodeKeeps.encodeSide {t : State} (h : DecodeKeeps s t) : t.encodeSide = s.encodeSide := by
  simp [State.encodeSide, h.enc, h.bsw, h.sink, h.encFree]

/-- Settles O30: `decFrame_tokens`, with the cursor read off the bytes that are left. -/
theorem decFrameDecodesTokens : Obligations.DecFrameDecodesTokens := by
  intro ts rest s inv hp boundary legal fills hb
  have runs := inv.decodeRuns hp
  obtain ⟨u, decoded, hu, keeps, frames_eq, left, mode, boundary'⟩ := decFrame_tokens runs boundary legal fills hb
  have cursor : u.bsr.cur = s.bsr.cur + (tokensBytes ts).length := by
    have before := bytesAtCursor_length s
    have after := bytesAtCursor_length u
    obtain ⟨-, -, bound, -⟩ := inv.bsr
    have bound' := keeps.bound bound
    rw [hb, List.length_append] at before
    rw [left, keeps.len] at after
    rw [keeps.len] at bound'
    omega
  have nothing_owed : u.dec.remaining = 0 := by
    have regs := hu.regs
    rwa [Dec.RunInv, mode] at regs
  refine ⟨_, finishComposite_of_ok (not_faulted_of_run hp) decoded, rfl, frames_eq, left, cursor, keeps.buf,
    hu.phase, mode, nothing_owed, boundary', keeps.encodeSide⟩

/-- Settles O31: `DEC.FRAME` is not refused at a frame boundary (`decFrame_completes`), and `decFrame_ensures` says how it
ends. -/
theorem decFrameOutcome : Obligations.DecFrameOutcome := by
  intro s inv hp boundary not_at_end
  have runs := inv.decodeRuns hp
  have not_ended : s.bsr.atEnd = false := s.bsr.atEnd_eq_false_iff.2 not_at_end
  have ends := finishComposite_of_completes (g := .frame) (not_faulted_of_run hp) (decFrame_completes runs boundary)
    (decFrame_ensures runs)
  rcases ends with
    ⟨r, u, done, -, outcome⟩ | ⟨f, u, faulted, ⟨of_step, -, -, keeps, frames_eq, -⟩, at_cursor⟩
  · rcases outcome with ⟨ended, -⟩ | ⟨-, hu, consumed, frame, rfl, frames_eq, whole, height_eq, width_eq, boundary'⟩
    · rw [not_ended] at ended; cases ended
    · exact ⟨_, done, .inl ⟨hu.phase, consumed, boundary', frame, rfl, frames_eq, whole, height_eq, width_eq⟩⟩
  · refine ⟨_, faulted, .inr ⟨rfl, frames_eq, rfl, keeps.cur, ?_⟩⟩
    cases f with
    | truncatedStream c => exact .inl (congrArg _ (at_cursor c rfl))
    | reservedCount raw => exact .inr ⟨raw, rfl⟩
    | _ => exact of_step.elim

/-- Past its `require`, `DEC.FRAME` starts from the frame-start reset (R195, R262). -/
theorem decFrame_eq (hp : s.dec.phase = .run) (hc : s.fb.constructed = true) (hb : s.atFrameBoundary = true)
    (he : s.bsr.atEnd = false) :
    decFrame s = (fillFrame s.fb.n (decFrameStart s.emptyFb)).bind fun _ u =>
      (fbEmit u).bind fun _ t => .ok (some u.fb.frame) t := by
  rw [decFrame, requireBoundary_eq hp hb, he, fbRestart_ok hc]
  rfl

/-- The result register is no part of what a decode operation depends on (R12, log 3). -/
theorem exec_setResult {i : Instr} (hi : i.path = .decode) (x : OpResult) : exec i (s.setResult x) = exec i s := by
  have there : exec i (s.setResult x) = overDecodeOutcome (s.setResult x) (exec i s) :=
    exec_decodeLocal i hi s (s.setResult x)
  have here : exec i s = overDecodeOutcome s (exec i s) := exec_decodeLocal i hi s s
  rw [there]
  conv_rhs => rw [here]
  cases exec i s <;> rfl

end Frame

/-- Settles O32: at the frame start every register that the previous frame may have left is written anew, so that both
states are one and the same from there on. -/
theorem framesAreIndependent : Obligations.FramesAreIndependent := by
  intro s m r p b c pix hp hc not_at_end boundary boundary'
  have not_ended : s.bsr.atEnd = false := s.bsr.atEnd_eq_false_iff.2 not_at_end
  have frame_eq := decFrame_eq hp hc boundary not_ended
  refine ⟨?leftovers, s.emptyFb.setResult .noValue,
    finishPrimitive_of_ok (not_faulted_of_run hp) (fbRestart_ok hc), ?restarted⟩
  case leftovers =>
    have same := (decFrame_eq (s := { s with
      dec := { s.dec with dmode := m, remaining := r, pixel := p, frameBegun := b }
      fb := { s.fb with fcur := c, pix := pix } }) hp hc (atFrameBoundary_iff.2 boundary') not_ended).trans frame_eq.symm
    exact congrArg (fun r => finishComposite .decode .frame (guardPath .decode s r)) same
  case restarted =>
    have same := (decFrame_eq (s := s.emptyFb) hp hc s.emptyFb_atFrameBoundary not_ended).trans frame_eq.symm
    rw [exec_setResult rfl]
    exact congrArg (fun r => finishComposite .decode .frame (guardPath .decode s r)) same

/-! ## `DEC.RUN` (R196, R203, R205) -/

theorem State.Inv.decodeLoaded {s : State} (hi : s.Inv) (hp : s.dec.phase = .idle) (hc : s.fb.constructed = false)
    (ha : s.bsr.attached = true) (h0 : s.bsr.cur = 0) : DecodeLoaded s :=
  ⟨hi.decodeSound, hp, noFault_of_idle hi.dec.1 hp, hc, ha, h0⟩

/-- Settles O33: `decRun_stream`, which goes by induction on the groups (`runLoop_groups`) and on the tokens of each
(`fillLoop_tokens`). -/
theorem decRunOnWellFormedStream : Obligations.DecRunOnWellFormedStream := by
  intro h w groups s hh hw legal fills inv hp hc ha h0 hb
  obtain ⟨t, ran, keeps, done, fault, at_end, height_eq, width_eq, frames_eq⟩ :=
    decRun_stream (inv.decodeLoaded hp hc ha h0) hh hw (fun g hg => ⟨legal g hg, fills g hg⟩) hb
  exact ⟨_, exec_decRun_next hp ran, done, fault, beq_iff_eq.1 at_end, keeps.buf, height_eq, width_eq, frames_eq,
    keeps.encodeSide⟩

/-- The faults of `DEC.RUN` (R222): those of `DEC.START` and those of `DEC.FRAME`. -/
def FaultRecord.ofRun : FaultRecord → Prop
  | .truncatedStream _ => True
  | .invalidHeader _ _ => True
  | .reservedCount _ => True
  | _ => False

theorem FaultRecord.ofStep.ofRun {f : FaultRecord} (h : f.ofStep) : f.ofRun := by
  cases f with
  | truncatedStream _ => trivial
  | reservedCount _ => trivial
  | _ => exact h.elim

/-- Everything `DEC.RUN` can do from power-on state of the decoder: four bytes of header, then at least three for
a frame. -/
theorem decRun_ensures {s : State} (hs : DecodeLoaded s) :
    (decRun s).Ensures
      (fun _ t => DecodeSound t ∧ DecodeKeeps s t ∧ t.dec.phase = .done ∧ t.dec.fault = .noFault ∧ t.bsr.atEnd = true ∧
        3 * t.frames.length + 4 ≤ 3 * s.frames.length + s.bsr.len)
      (fun f t => f.ofRun ∧ DecodeSound t ∧ DecodeKeeps s t) := by
  refine (Res.ensures_bind _ _ _ _).2 ((decStart_ensures hs.toDecodeSound hs.fault).mono ?started ?faulted)
  case started =>
    rintro _ t ⟨-, runs, keeps, frames_eq, cursor, boundary⟩
    obtain ⟨-, -, bound, -⟩ := runs.bsr
    refine (runFrames_ensures _ runs boundary le_rfl).mono ?_ ?_
    · rintro _ u ⟨sound, keeps', done, fault, at_end, few⟩
      refine ⟨sound, keeps.trans keeps', done, fault, at_end, ?_⟩
      have := hs.start
      have := keeps.len
      rw [frames_eq] at few
      omega
    · rintro f u ⟨of_step, sound, keeps', -⟩
      exact ⟨of_step.ofRun, sound, keeps.trans keeps'⟩
  case faulted =>
    rintro f t ⟨-, sound, keeps, -, -, of_start⟩
    refine ⟨?_, sound, keeps⟩
    cases f with
    | truncatedStream _ => trivial
    | invalidHeader _ _ => trivial
    | _ => exact of_start.elim

/-- Settles O34: `DEC.RUN` is not refused (`decRun_completes`), and `decRun_ensures` says how it ends. -/
theorem decRunAlwaysEnds : Obligations.DecRunAlwaysEnds := by
  intro s inv hp hc ha h0
  have ends := finishComposite_of_completes (g := noResult) (not_faulted_of_idle hp) (decRun_completes inv hp ha h0 hc)
    (decRun_ensures (inv.decodeLoaded hp hc ha h0))
  rcases ends with
    ⟨_, u, ran, sound, keeps, done, fault, at_end, few⟩ | ⟨f, u, faulted, ⟨of_run, sound, keeps⟩, at_cursor⟩
  · exact ⟨_, ran, keeps.frames, sound.frames, .inl ⟨done, fault, beq_iff_eq.1 at_end, few⟩⟩
  · refine ⟨_, faulted, keeps.frames, sound.frames, .inr ⟨rfl, ?_⟩⟩
    cases f with
    | truncatedStream c => exact .inl (congrArg _ (at_cursor c rfl))
    | invalidHeader h w => exact .inr (.inl ⟨h, w, rfl⟩)
    | reservedCount raw => exact .inr (.inr ⟨raw, rfl⟩)
    | _ => exact of_run.elim

/-- The frame loop on a count field with nothing after it: a repeat token has no value, a literal one no sample (R202). -/
theorem fillLoop_countOnly {kind : Bool} {n : Len} {s : State} (h : DecodeRuns s) (hm : s.dec.dmode = .readCount)
    (hf : s.fb.isFull = false) (hn : n ≠ 0) (hb : s.bytesAtCursor = halfBytes (countField kind n)) :
    ∃ u, fillLoop s = .fault (.truncatedStream (s.bsr.cur + 2)) u ∧ u.bsr.cur = s.bsr.cur + 2 ∧ u.frames = s.frames := by
  have step := decStep_of_readCount h.phase h.built hf hm
  have loop : fillLoop s = (decStep s).bind fun _ t => fillLoop t := by
    rw [fillLoop_eq h, hf]; rfl
  rw [loop]
  cases kind with
  | true =>
    have cut := readCountArm_noValue hb (by rwa [countLen_countField]) (countKind_countField _ _)
    exact ⟨s.pass 2, by rw [step, cut, Res.bind_fault], rfl, rfl⟩
  | false =>
    obtain ⟨begun, nothing_left⟩ := readCountArm_lit (rest := []) hn hb
    rw [← step] at begun
    have ensured := decStep_ensures h
    rw [begun] at ensured
    obtain ⟨-, inside, -⟩ := ensured
    have room : (beginLiteral n.toNat (s.pass 2)).fb.isFull = false := hf
    have cut := decStep_literal_cut inside.phase inside.built room rfl nothing_left
    refine ⟨beginLiteral n.toNat (s.pass 2), ?_, rfl, rfl⟩
    rw [begun, Res.bind_ok, fillLoop_eq inside, room, cut]
    rfl

/-- `DEC.FRAME` on such bytes: they are all that is read of the frame, and it is not handed over. -/
theorem decFrame_countOnly {kind : Bool} {n : Len} {s : State} (h : DecodeRuns s) (boundary : s.atFrameBoundary = true)
    (hn : n ≠ 0) (hb : s.bytesAtCursor = halfBytes (countField kind n)) :
    ∃ u, decFrame s = .fault (.truncatedStream (s.bsr.cur + 2)) u ∧ u.bsr.cur = s.bsr.cur + 2 ∧ u.frames = s.frames := by
  obtain ⟨-, -, bound, -⟩ := h.bsr
  have not_ended : s.bsr.atEnd = false := by
    rw [← Bool.not_eq_true, atEnd_iff bound, hb]
    exact List.cons_ne_nil _ _
  have start := h.frameStart
  obtain ⟨u, cut, cursor, frames_eq⟩ :=
    fillLoop_countOnly start rfl (start.fb.isFull_of_empty h.built rfl) hn ((bytesAtCursor_congr rfl).trans hb)
  have fill : fillFrame s.fb.n (decFrameStart s.emptyFb) = fillLoop (decFrameStart s.emptyFb) := rfl
  exact ⟨u, by rw [decFrame_eq h.phase h.built boundary not_ended, fill, cut]; rfl, cursor, frames_eq⟩

/-- Settles O35: after the four bytes of the header (`decStart_header`) the first `DEC.FRAME` faults
(`decFrame_countOnly`). -/
theorem countWithoutPayloadTruncates : Obligations.CountWithoutPayloadTruncates := by
  intro h w kind n s hh hw hn inv hp hc ha h0 hb
  have loaded := inv.decodeLoaded hp hc ha h0
  obtain ⟨t, started, runs, -, frames_eq, boundary, -, -, left⟩ := decStart_header loaded hh hw hb
  have ensured := decStart_ensures loaded.toDecodeSound loaded.fault
  rw [started] at ensured
  obtain ⟨-, -, -, -, header_read, -⟩ := ensured
  rw [h0] at header_read
  obtain ⟨u, cut, cursor, frames_eq'⟩ := decFrame_countOnly runs boundary hn left
  rw [header_read] at cut cursor
  have ran : decRun s = .fault (.truncatedStream 6) u := by
    rw [decRun, started, Res.bind_ok]
    exact (runLoop_eq runs boundary).trans (by rw [cut, Res.bind_fault])
  exact ⟨_, finishComposite_of_fault (not_faulted_of_idle hp) ran, rfl, rfl, cursor, frames_eq'.trans frames_eq⟩

/-! ## The token elements (R198 to R200) -/

section Elements
variable {s : State}

theorem MeetsToken.of_inv (hp : s.dec.phase = .run) (hc : s.fb.constructed = true) (inv : s.fb.Inv)
    (hroom : s.fb.fcur ≠ s.fb.height.toNat * s.fb.width.toNat) (hm : s.dec.dmode = .readCount) : MeetsToken s := by
  have room := inv.lt_n hroom
  obtain ⟨-, -, pixels, -⟩ := inv
  exact ⟨hp, hc, room, hm, pixels⟩

theorem Fb.room_le_self (f : Fb) (n : Nat) : f.room n ≤ n := Nat.min_le_left _ _

theorem rsv_eq (hp : s.dec.phase = .run) (hc : s.fb.constructed = true) (hf : s.fb.isFull = false)
    (hm : s.dec.dmode = .readCount) (kind : Bool) :
    rsv kind s = .fault (.reservedCount (countField kind 0)) (s.pass 2) := by
  simp [rsv, requireToken, requireRoom, requireFb, hp, hc, hf, hm]

theorem lit_placed (hs : MeetsToken s) {n : Len} (hn : n ≠ 0) {p : List Byte} (enough : s.fb.room n.toNat ≤ p.length) :
    lit n p s =
      .ok () ((beginLiteral n.toNat (s.pass (2 + s.fb.room n.toNat))).placed (p.take (s.fb.room n.toNat))) := by
  rw [lit_eq hs hn, if_pos enough]

theorem lit_cut (hs : MeetsToken s) {n : Len} (hn : n ≠ 0) {p : List Byte} (cut : p.length < s.fb.room n.toNat) :
    lit n p s =
      .fault (.truncatedStream (s.bsr.cur + (2 + p.length))) ((beginLiteral n.toNat (s.pass (2 + p.length))).placed p) := by
  rw [lit_eq hs hn, if_neg cut.not_ge, Nat.add_assoc]

end Elements

/-- Settles O37: the two cases of `lit_eq`. -/
theorem literalElementResult : Obligations.LiteralElementResult := by
  intro n p s hp hc inv hroom hm hn m hmin
  have meets := MeetsToken.of_inv hp hc inv hroom hm
  have not_faulted := not_faulted_of_run hp
  obtain rfl : m = s.fb.room n.toNat := hmin
  refine ⟨fun enough => ?enough, fun cut => finishComposite_faulted not_faulted (lit_cut meets hn cut)⟩
  have placed := lit_placed meets hn enough
  rw [State.placed_eq (by rw [List.length_take_of_le enough]; exact s.fb.room_le_self _),
    List.length_take_of_le enough] at placed
  exact finishComposite_of_ok not_faulted placed

/-- Settles O38: `rpt_eq`. -/
theorem repeatElementResult : Obligations.RepeatElementResult := by
  intro n v s hp hc inv hroom hm hn m hmin
  obtain rfl : m = s.fb.room n.toNat := hmin
  have placed := rpt_eq (MeetsToken.of_inv hp hc inv hroom hm) hn v
  rw [State.placed_eq (by rw [List.length_replicate]; exact s.fb.room_le_self _), List.length_replicate,
    List.map_replicate] at placed
  exact finishComposite_of_ok (not_faulted_of_run hp) placed

/-- Settles O39: the fault comes before anything is placed. -/
theorem reservedElementResult : Obligations.ReservedElementResult := by
  intro kind s hp hc hroom hm
  have met := rsv_eq hp hc (s.fb.isFull_eq_false_iff.2 hroom) hm kind
  refine ⟨_, finishComposite_of_fault (not_faulted_of_run hp) met, rfl, ?_, rfl, rfl, rfl, rfl, rfl, rfl⟩
  cases kind <;> rfl

/-! ## A token element, step by step (R198, R199) -/

/-- A run of `DEC.STEP`s is the run of states that they go through. -/
theorem runOps_decSteps {m : Nat} {f : Nat → State} (h : ∀ j < m, exec .decStep (f j) = .next (f (j + 1))) :
    runOps (List.replicate m .decStep) (f 0) = .next (f m) := by
  induction m with
  | zero => rfl
  | succ m ih =>
    rw [List.replicate_succ', runOps_append_next (ih fun j hj => h j (by omega)), runOps_cons_next (h m (by omega))]
    rfl

theorem setResult_self {s : State} {x : OpResult} (h : s.result = x) : s.setResult x = s := by
  subst h; rfl

/-- A step that completes, from a state whose result register holds nothing. -/
theorem exec_decStep_next {s t : State} (hp : s.dec.phase = .run) (quiet : t.result = .noValue)
    (h : decStep s = .ok () t) : exec .decStep s = .next t := by
  have done := finishComposite_of_ok (g := noResult) (not_faulted_of_run hp) h
  rwa [noResult, setResult_self quiet] at done

section Samples
variable {s : State} {samples : List Byte}

/-- Inside a token with samples still owed and room for them, it stays so. -/
theorem InsideToken.placed (hs : InsideToken s) (owed : samples.length < s.dec.remaining)
    (room : s.fb.fcur + samples.length < s.fb.n) : InsideToken (s.placed samples) where
  phase := hs.phase
  built := hs.built
  room := room
  pixels := by simp [hs.pixels]
  owes := by simp; omega

theorem placed_dmode_of_lt (owed : samples.length < s.dec.remaining) : (s.placed samples).dec.dmode = s.dec.dmode :=
  if_neg (Nat.not_le.2 owed)

theorem InsideToken.placed_nil (hs : InsideToken s) : s.placed [] = s :=
  State.placed_nil (.inl (Nat.pos_iff_ne_zero.1 hs.owes))

theorem InsideToken.pass (hs : InsideToken s) (k : Nat) : InsideToken (s.pass k) :=
  ⟨hs.phase, hs.built, hs.room, hs.pixels, hs.owes⟩

/-- `m` `Repeat` steps (R199). -/
theorem runOps_repeatSteps {m : Nat} (hs : InsideToken s) (hm : s.dec.dmode = .repeating) (quiet : s.result = .noValue)
    (owed : m ≤ s.dec.remaining) (room : s.fb.fcur + m ≤ s.fb.n) :
    runOps (List.replicate m .decStep) s = .next (s.placed (List.replicate m s.dec.pixel)) := by
  have steps := runOps_decSteps (m := m) (f := fun j => s.placed (List.replicate j s.dec.pixel)) fun j hj => ?step
  case step =>
    have len : (List.replicate j s.dec.pixel).length = j := List.length_replicate
    have inside : InsideToken (s.placed (List.replicate j s.dec.pixel)) := hs.placed (by omega) (by omega)
    have mode : (s.placed (List.replicate j s.dec.pixel)).dec.dmode = .repeating :=
      (placed_dmode_of_lt (by omega)).trans hm
    refine exec_decStep_next inside.phase quiet ((inside.decStep_repeating mode).trans ?_)
    rw [State.placed_append, List.replicate_succ']
    rfl
  rwa [List.replicate_zero, hs.placed_nil] at steps

/-- `Literal` steps on payload bytes that are there (R198). -/
theorem runOps_literalSteps {rest : List Byte} (hs : InsideToken s) (hm : s.dec.dmode = .literal)
    (quiet : s.result = .noValue) (owed : samples.length ≤ s.dec.remaining)
    (room : s.fb.fcur + samples.length ≤ s.fb.n) (hb : s.bytesAtCursor = samples ++ rest) :
    runOps (List.replicate samples.length .decStep) s = .next ((s.pass samples.length).placed samples) := by
  have steps := runOps_decSteps (m := samples.length) (f := fun j => (s.pass j).placed (samples.take j))
    fun j hj => ?step
  case step =>
    have len : (samples.take j).length = j := List.length_take_of_le hj.le
    have owing : (samples.take j).length < s.dec.remaining := by omega
    have inside : InsideToken ((s.pass j).placed (samples.take j)) :=
      (hs.pass j).placed owing (by rw [len]; exact (Nat.add_lt_add_left hj _).trans_le room)
    have mode : ((s.pass j).placed (samples.take j)).dec.dmode = .literal :=
      (placed_dmode_of_lt (s := s.pass j) owing).trans hm
    have next_byte : ((s.pass j).placed (samples.take j)).bytesAtCursor =
        samples[j] :: (samples.drop (j + 1) ++ rest) := by
      calc ((s.pass j).placed (samples.take j)).bytesAtCursor = s.bytesAtCursor.drop j := bytesAtCursor_setCur s j
        _ = samples.drop j ++ rest := by rw [hb, List.drop_append_of_le_length hj.le]
        _ = samples[j] :: (samples.drop (j + 1) ++ rest) := by rw [List.drop_eq_getElem_cons hj, List.cons_append]
    refine exec_decStep_next inside.phase quiet ((inside.decStep_literal mode next_byte).trans ?_)
    rw [State.pass_placed, State.placed_append, State.pass_pass, List.take_succ_eq_append_getElem hj]
  rwa [List.take_zero, State.pass_zero, hs.placed_nil, List.take_length] at steps

end Samples


/-- A token element that completes, and the steps that it is: `ReadCount` and then those of its kind. -/
theorem exec_eq_runOps {i : Instr} {m : Nat} {s u t : State} (begun : exec .decStep s = .next u)
    (steps : runOps (List.replicate m .decStep) u = .next t) (element : exec i s = .next t) :
    exec i s = runOps (List.replicate (1 + m) .decStep) s := by
  rw [Nat.add_comm, List.replicate_succ, runOps_cons_next begun, steps, element]

/-- The length of a token that was decoded is not zero: that would be `RSV` (R107, R113). -/
theorem decodeToken_len_ne_zero {bytes rest : List Byte} {n : Len} {i : Instr} {kind : Bool} {tail : List Byte}
    (hdec : decodeToken bytes = .element i rest) (hb : bytes = halfBytes (countField kind n) ++ tail)
    (token : ∀ k, i ≠ .rsv k) : n ≠ 0 := by
  rintro rfl
  rw [hb, decodeToken_halfBytes, decodeCount_countField_rsv] at hdec
  cases hdec
  exact token kind rfl

section ElementSteps
variable {s : State} {n : Len}

theorem lit_eq_steps {p rest : List Byte} (hs : MeetsToken s) (hn : n ≠ 0) (enough : s.fb.room n.toNat ≤ p.length)
    (hb : s.bytesAtCursor = halfBytes (countField false n) ++ (p ++ rest)) :
    exec (.lit n p) s = runOps (List.replicate (1 + s.fb.room n.toNat) .decStep) s := by
  obtain ⟨begun, left⟩ := readCountArm_lit (rest := p ++ rest) hn hb
  have not_faulted := not_faulted_of_run hs.phase
  have inside : InsideToken ((beginLiteral n.toNat (s.pass 2)).setResult .noValue) :=
    ⟨hs.phase, hs.built, hs.room, hs.pixels, len_pos hn⟩
  have taken : (p.take (s.fb.room n.toNat)).length = s.fb.room n.toNat := List.length_take_of_le enough
  rw [← List.take_append_drop (s.fb.room n.toNat) p, List.append_assoc] at left
  have steps := runOps_literalSteps inside rfl rfl (by rw [taken]; exact s.fb.room_le_self _)
    (by rw [taken]; exact s.fb.room_le hs.room.le _) ((bytesAtCursor_congr rfl).trans left)
  rw [taken] at steps
  have element := lit_placed hs hn enough
  rw [← State.pass_pass] at element
  exact exec_eq_runOps (finishComposite_of_ok not_faulted (hs.step.trans begun)) steps
    (finishComposite_of_ok not_faulted element)

theorem rpt_eq_steps {v : Byte} {rest : List Byte} (hs : MeetsToken s) (hn : n ≠ 0)
    (hb : s.bytesAtCursor = halfBytes (countField true n) ++ v :: rest) :
    exec (.rpt n v) s = runOps (List.replicate (1 + s.fb.room n.toNat) .decStep) s := by
  obtain ⟨begun, -⟩ := readCountArm_rpt hn hb
  have not_faulted := not_faulted_of_run hs.phase
  have inside : InsideToken ((beginRepeat n.toNat v (s.pass 3)).setResult .noValue) :=
    ⟨hs.phase, hs.built, hs.room, hs.pixels, len_pos hn⟩
  have steps := runOps_repeatSteps inside rfl rfl (s.fb.room_le_self n.toNat) (s.fb.room_le hs.room.le _)
  exact exec_eq_runOps (finishComposite_of_ok not_faulted (hs.step.trans begun)) steps
    (finishComposite_of_ok not_faulted (rpt_eq hs hn v))

end ElementSteps

/-- Settles O40: the first step begins the token, and each of the others places one of its samples. -/
theorem elementIsItsSteps : Obligations.ElementIsItsSteps := by
  intro s i rest m inv hp hroom hm hdec token
  have meets := MeetsToken.of_inv hp (inv.running hp) inv.fb hroom hm
  obtain ⟨-, bytes, encoded, hb⟩ := encodeDecodedElement _ _ _ _ hdec
  rcases token with ⟨n, p, rfl, hmin, enough⟩ | ⟨n, v, rfl, hmin⟩
  · obtain rfl : m = s.fb.room n.toNat := hmin
    cases encoded
    rw [List.append_assoc] at hb
    exact lit_eq_steps meets (decodeToken_len_ne_zero hdec hb.symm nofun) enough hb.symm
  · obtain rfl : m = s.fb.room n.toNat := hmin
    cases encoded
    rw [List.append_assoc] at hb
    exact rpt_eq_steps meets (decodeToken_len_ne_zero hdec hb.symm nofun) hb.symm

end Sys2Proof.Machine

/-! PROOFS. The statements of 60_exceptions.md: a faulted path refuses every operation and only reset ends that (R226), and
a token that is cut short faults at the field where the bytes end (R221, R227). -/

namespace Sys2Proof.Machine

/-! ## Operations of a faulted path (R226) -/

section FaultedPath
variable {α : Type} {p : Path} {g : α → OpResult} {s t : State} {i : Instr}

theorem finishPrimitive_of_faulted (faulted : s.faulted p = true) (r : Res α) :
    finishPrimitive p g (guardPath p s r) = .refused (.pathFaulted p) :=
  congrArg (finishPrimitive p g) (guardPath_of_faulted faulted r)

theorem finishComposite_of_faulted (faulted : s.faulted p = true) (r : Res α) :
    finishComposite p g (guardPath p s r) = .refused (.pathFaulted p) :=
  congrArg (finishComposite p g) (guardPath_of_faulted faulted r)

/-- Every operation is guarded by its own path, whether it ends as a primitive or as a composite operation. -/
theorem exec_of_faulted (faulted : s.faulted i.path = true) : exec i s = .refused (.pathFaulted i.path) := by
  cases i with
  | bsrLoad | bsrReadU8 | bsrReadU16 | bsrAtEnd | bswWriteU8 | fbConstruct | fbInsertPixel | fbIsFull | fbEmit | fbRestart =>
    exact finishPrimitive_of_faulted faulted _
  | hdr | lit | rpt | rsv | bswWriteU16 | encStart | encSample | decStart | decStep | decFrame | decRun =>
    exact finishComposite_of_faulted faulted _

/-- An operation that answers a next state is not one of a faulted path. -/
theorem path_ne_of_exec_next (faulted : s.faulted p = true) (h : exec i s = .next t) : i.path ≠ p := by
  rintro rfl
  rw [exec_of_faulted faulted] at h
  cases h

theorem exec_keeps_faulted_enc (hp : s.enc.phase = .fault) (h : exec i s = .next t) : t.enc = s.enc := by
  have other := path_ne_of_exec_next ((faulted_encode_iff s).2 hp) h
  cases hpath : i.path with
  | encode => exact absurd hpath other
  | decode => exact (exec_decode_units hpath h).1

theorem exec_keeps_faulted_dec (hp : s.dec.phase = .fault) (h : exec i s = .next t) : t.dec = s.dec := by
  have other := path_ne_of_exec_next ((faulted_decode_iff s).2 hp) h
  cases hpath : i.path with
  | encode =>
    have side := (exec_encode_frame hpath h).1
    simp only [State.decodeSide, Prod.mk.injEq] at side
    obtain ⟨-, -, dec_eq, -⟩ := side
    exact dec_eq
  | decode => exact absurd hpath other

end FaultedPath

/-- Settles O51: the guard of the operation's own path (`exec_of_faulted`). -/
theorem faultedPathRefuses : Obligations.FaultedPathRefuses := fun _ s =>
  ⟨fun hpath hp => hpath ▸ exec_of_faulted (hpath ▸ (faulted_encode_iff s).2 hp),
    fun hpath hp => hpath ▸ exec_of_faulted (hpath ▸ (faulted_decode_iff s).2 hp)⟩

/-! ## What a step can do (R226, R260) -/

section StepNext
variable {s t : State}

theorem elementPos_faulted (hp : s.dec.phase = .fault) : elementPos s = .inr (.pathFaulted .decode) := by
  simp [elementPos, hp]

/-- An element that is met is executed, or it is cut short on a path that has not faulted. -/
theorem stepElement_next (h : stepElement s = .next t) :
    (∃ i, exec i s = .next t) ∨ s.dec.phase ≠ .fault ∧ ∃ why, cutShort why s = .next t := by
  cases hpos : elementPos s with
  | inr why => rw [stepElement_refused hpos] at h; cases h
  | inl pos =>
    cases hdec : decode pos s.bytesAtCursor with
    | element i rest => exact .inl ⟨i, stepElement_of_decode hpos hdec ▸ h⟩
    | rejected why =>
      refine .inr ⟨fun hp => ?_, why, stepElement_rejected hpos hdec ▸ h⟩
      rw [elementPos_faulted hp] at hpos
      cases hpos

theorem stepOp_next {i : Instr} (h : stepOp i s = .next t) : exec i s = .next t := by
  cases port : i.isElement with
  | true => rw [stepOp_of_element port] at h; cases h
  | false => rwa [stepOp_of_port port] at h

/-- A step that answers a next state did nothing, or took the oldest request from the queue and executed an instruction,
found an element cut short or reset a scope. -/
theorem step_next (h : step s = .next t) :
    t = s ∨ ∃ queue, (∃ i, exec i (s.setRequests queue) = .next t) ∨
      (s.dec.phase ≠ .fault ∧ ∃ why, cutShort why (s.setRequests queue) = .next t) ∨
      ∃ scope, s.requests = .reset scope :: queue ∧ t = resetScope scope (s.setRequests queue) := by
  cases requested : s.requests with
  | nil =>
    rw [step_of_no_request requested] at h
    exact .inl (Host.Outcome.next.inj h).symm
  | cons request queue =>
    refine .inr ⟨queue, ?_⟩
    cases request with
    | op i => exact .inl ⟨i, stepOp_next (step_of_op requested ▸ h)⟩
    | element => exact (stepElement_next (step_of_element requested ▸ h)).imp_right .inl
    | reset scope =>
      rw [step_of_reset requested] at h
      exact .inr (.inr ⟨scope, rfl, (Host.Outcome.next.inj h).symm⟩)

theorem cutShort_keeps_enc {why : Reject} (h : cutShort why s = .next t) : t.enc = s.enc := by
  cases h
  rfl

theorem step_keeps_faulted_enc (hp : s.enc.phase = .fault)
    (noReset : ∀ r queue, s.requests = .reset r :: queue → r = .path .decode) (h : step s = .next t) : t.enc = s.enc := by
  obtain rfl | ⟨queue, ⟨i, ran⟩ | ⟨-, why, cut⟩ | ⟨scope, requested, rfl⟩⟩ := step_next h
  · rfl
  · exact exec_keeps_faulted_enc (s := s.setRequests queue) hp ran
  · exact cutShort_keeps_enc (s := s.setRequests queue) cut
  · obtain rfl := noReset scope queue requested
    rfl

theorem step_keeps_faulted_dec (hp : s.dec.phase = .fault)
    (noReset : ∀ r queue, s.requests = .reset r :: queue → r = .path .encode) (h : step s = .next t) : t.dec = s.dec := by
  obtain rfl | ⟨queue, ⟨i, ran⟩ | ⟨not_fault, -⟩ | ⟨scope, requested, rfl⟩⟩ := step_next h
  · rfl
  · exact exec_keeps_faulted_dec (s := s.setRequests queue) hp ran
  · exact absurd hp not_fault
  · obtain rfl := noReset scope queue requested
    rfl

end StepNext

/-- Settles O52: such a step leaves every register of the faulted encoder or decoder as it is. -/
theorem onlyResetLeavesFault : Obligations.OnlyResetLeavesFault := by
  intro s t h
  refine ⟨fun hp noReset => ?encode, fun hp noReset => ?decode⟩
  case encode =>
    rw [step_keeps_faulted_enc hp noReset h]
    exact ⟨hp, rfl⟩
  case decode =>
    rw [step_keeps_faulted_dec hp noReset h]
    exact ⟨hp, rfl⟩

/-! ## A token that is cut short (R221, R227) -/

/-- Past the count field only a repeat token without its value is rejected; a cut literal payload is not (log 19). -/
theorem decodeCount_rejected {c : Half} {rest : List Byte} {why : Reject} (h : decodeCount c rest = .rejected why) :
    why = .truncatedValue := by
  by_cases hn : countLen c = 0
  · rw [decodeCount_rsv hn] at h; cases h
  · cases hk : countKind c with
    | false => rw [decodeCount_lit hn hk] at h; cases h
    | true =>
      cases rest with
      | nil => rw [decodeCount_rpt_nil hn hk] at h; cases h; rfl
      | cons v rest => rw [decodeCount_rpt hn hk] at h; cases h

theorem decodeToken_rejected {bytes : List Byte} {why : Reject} (h : decodeToken bytes = .rejected why) :
    why = .truncatedCount ∨ why = .truncatedValue := by
  rcases bytes with _ | ⟨b0, _ | ⟨b1, rest⟩⟩
  · cases h; exact .inl rfl
  · cases h; exact .inl rfl
  · exact .inr (decodeCount_rejected h)

/-- Settles O43: the fetch rejects the token (`decodeToken_rejected`), and the fault stands at the cursor, past the fields
that were read. -/
theorem stepOnCutToken : Obligations.StepOnCutToken := by
  intro s queue why requested hp hc hroom hm hdec
  have met : elementPos (s.setRequests queue) = .inl .token :=
    elementPos_token hp hc (s.fb.isFull_eq_false_iff.2 hroom) hm
  refine ⟨_, (step_of_element requested).trans (stepElement_rejected met hdec), rfl, rfl, ?field, rfl, rfl, rfl, rfl⟩
  obtain rfl | rfl := decodeToken_rejected hdec
  · exact .inl ⟨rfl, rfl⟩
  · exact .inr ⟨rfl, rfl⟩

end Sys2Proof.Machine

/-! PROOFS. The statements of 70_reset_and_hazards.md: a reset restores its own path and leaves the other alone (R260). -/

namespace Sys2Proof.Machine

/-! ## Reset of one path (R260) -/

theorem resetPath_encode_restores (s : State) :
    (resetPath .encode s).enc = State.reset.enc ∧ (resetPath .encode s).bsw = State.reset.bsw := ⟨rfl, rfl⟩

theorem resetPath_encode_decodeSide (s : State) : (resetPath .encode s).decodeSide = s.decodeSide := rfl

theorem resetPath_decode_restores (s : State) :
    (resetPath .decode s).bsr = State.reset.bsr ∧ (resetPath .decode s).fb = State.reset.fb ∧
    (resetPath .decode s).dec = State.reset.dec ∧ (resetPath .decode s).frames = [] := ⟨rfl, rfl, rfl, rfl⟩

theorem resetPath_decode_encodeSide (s : State) : (resetPath .decode s).encodeSide = s.encodeSide := rfl

/-! ## Reset of the core (R260) -/

/-- The core resets its encode path first; the reset of the decode path after it keeps what that restored. -/
theorem resetScope_core_restores_encode (s : State) :
    (resetScope .core s).enc = State.reset.enc ∧ (resetScope .core s).bsw = State.reset.bsw := by
  have side : (resetScope .core s).encodeSide = (resetPath .encode s).encodeSide := resetPath_decode_encodeSide _
  obtain ⟨enc_reset, bsw_reset⟩ := resetPath_encode_restores s
  simp only [State.encodeSide, Prod.mk.injEq] at side
  obtain ⟨enc_kept, bsw_kept, -⟩ := side
  exact ⟨enc_kept.trans enc_reset, bsw_kept.trans bsw_reset⟩

/-- Settles O48: each path's reset restores that path, from any state, and keeps the other side; the core's is one after
the other. -/
theorem resetRestoresPath : Obligations.ResetRestoresPath := by
  intro s
  refine ⟨?encode, ?decode, ?core⟩
  case encode =>
    obtain ⟨enc, bsw⟩ := resetPath_encode_restores s
    exact ⟨enc, bsw, resetPath_encode_decodeSide s⟩
  case decode =>
    obtain ⟨bsr, fb, dec, frames⟩ := resetPath_decode_restores s
    exact ⟨bsr, fb, dec, frames, resetPath_decode_encodeSide s⟩
  case core =>
    obtain ⟨enc, bsw⟩ := resetScope_core_restores_encode s
    exact ⟨enc, bsw, resetPath_decode_restores (resetPath .encode s)⟩

end Sys2Proof.Machine

/-! PROOFS. The statement of 95_test_vectors.md section 2.3: the example elements, read back from their bytes. -/

namespace Sys2Proof

/-- The round trip (`decodeEncodeElement`) for bytes that hold one element and nothing after it. -/
theorem decode_of_encode {i : Instr} {bytes : List Byte} (wellFormed : i.wellFormed = true)
    (encoded : encode i = some bytes) : decode i.position bytes = .element i [] := by
  simpa using decodeEncodeElement i bytes [] wellFormed encoded

/-- Settles O1: each example is a well-formed element and the bytes are its encoding, so the round trip reads it back. -/
theorem specExampleBytesDecode : Obligations.SpecExampleBytesDecode := by
  refine ⟨?litOne, ?rptOne, ?rptMax, ?rsvLit, ?rsvRpt, ?rptBigEndian, ?hdr⟩
  case litOne => exact decode_of_encode (i := .lit 1 [0x2A]) rfl rfl
  case rptOne => exact decode_of_encode (i := .rpt 1 0x2A) rfl rfl
  case rptMax => exact decode_of_encode (i := .rpt 0x7FFF 0) rfl rfl
  case rsvLit => exact decode_of_encode (i := .rsv false) rfl rfl
  case rsvRpt => exact decode_of_encode (i := .rsv true) rfl rfl
  case rptBigEndian => exact decode_of_encode (i := .rpt 256 5) rfl rfl
  case hdr => exact decode_of_encode (i := .hdr 256 2) rfl rfl

end Sys2Proof
